-- ==== Sys2Proof/Word.lean ====
section
/-! DEFINITION. The word types of the core (spec/00_scope.md R8, R10, R11): nothing here but widths. -/

namespace Sys2Proof

/-- A 32-bit value: every register, pipeline-register field and memory word (R11). -/
abbrev Word := BitVec 32

/-- One byte of memory (R38). -/
abbrev Byte := BitVec 8

/-- A register number, 0 to 31 (R18): the `rs`, `rt` and `rd` fields of an instruction word (R56). -/
abbrev RegNum := BitVec 5

/-- A shift amount, 0 to 31: the `sa` field (R59). -/
abbrev ShiftAmount := BitVec 5

/-- The 16-bit immediate field (R56). -/
abbrev Imm16 := BitVec 16

end Sys2Proof
end

