-- ==== Sys2Proof/Syntax.lean ====
section
/-! DEFINITION. The instructions: one constructor per row of spec/opcode_table.json (45 rows). Every field of the word is an argument,
also one the instruction ignores (R64), so that an instruction and its word determine each other; the argument order is the field order
of the word, from bit 25 down (R56). -/

namespace Sys2Proof

/-- The instruction set of R62 and R63. -/
inductive Instr where
  -- register format, op 0 (R62): rs rt rd sa
  | sll (rs rt rd : RegNum) (sa : ShiftAmount)
  | srl (rs rt rd : RegNum) (sa : ShiftAmount)
  | sra (rs rt rd : RegNum) (sa : ShiftAmount)
  | jr (rs rt rd : RegNum) (sa : ShiftAmount)
  | jalr (rs rt rd : RegNum) (sa : ShiftAmount)
  /-- bits 25:6 of a SYSCALL word are its `code` (R141) -/
  | syscall (code : BitVec 20)
  | mfhi (rs rt rd : RegNum) (sa : ShiftAmount)
  | mthi (rs rt rd : RegNum) (sa : ShiftAmount)
  | mflo (rs rt rd : RegNum) (sa : ShiftAmount)
  | mtlo (rs rt rd : RegNum) (sa : ShiftAmount)
  | mult (rs rt rd : RegNum) (sa : ShiftAmount)
  | multu (rs rt rd : RegNum) (sa : ShiftAmount)
  | div (rs rt rd : RegNum) (sa : ShiftAmount)
  | divu (rs rt rd : RegNum) (sa : ShiftAmount)
  | add (rs rt rd : RegNum) (sa : ShiftAmount)
  | addu (rs rt rd : RegNum) (sa : ShiftAmount)
  | sub (rs rt rd : RegNum) (sa : ShiftAmount)
  | subu (rs rt rd : RegNum) (sa : ShiftAmount)
  | and (rs rt rd : RegNum) (sa : ShiftAmount)
  | or (rs rt rd : RegNum) (sa : ShiftAmount)
  | xor (rs rt rd : RegNum) (sa : ShiftAmount)
  | nor (rs rt rd : RegNum) (sa : ShiftAmount)
  | slt (rs rt rd : RegNum) (sa : ShiftAmount)
  -- opcode 0x01 (R63, R67): the rt field is 0, 1, or anything else
  | bltz (rs : RegNum) (imm : Imm16)
  | bgez (rs : RegNum) (imm : Imm16)
  | regimmOther (rs rt : RegNum) (imm : Imm16)
  -- J format, op 2 and 3 (R56)
  | j (target : BitVec 26)
  | jal (target : BitVec 26)
  -- the other formats (R63): rs rt imm16
  | beq (rs rt : RegNum) (imm : Imm16)
  | bne (rs rt : RegNum) (imm : Imm16)
  | blez (rs rt : RegNum) (imm : Imm16)
  | bgtz (rs rt : RegNum) (imm : Imm16)
  | addi (rs rt : RegNum) (imm : Imm16)
  | addiu (rs rt : RegNum) (imm : Imm16)
  | slti (rs rt : RegNum) (imm : Imm16)
  | andi (rs rt : RegNum) (imm : Imm16)
  | ori (rs rt : RegNum) (imm : Imm16)
  | xori (rs rt : RegNum) (imm : Imm16)
  | lui (rs rt : RegNum) (imm : Imm16)
  | lb (rs rt : RegNum) (imm : Imm16)
  | lh (rs rt : RegNum) (imm : Imm16)
  | lw (rs rt : RegNum) (imm : Imm16)
  | sb (rs rt : RegNum) (imm : Imm16)
  | sh (rs rt : RegNum) (imm : Imm16)
  | sw (rs rt : RegNum) (imm : Imm16)
  deriving DecidableEq, Repr

end Sys2Proof
end

