-- ==== Sys2Proof/WellFormed.lean ====
section
/-! DEFINITION. Which terms of `Instr` stand for a word. The field widths are in the types; the one condition left is that the row
`REGIMM.other` is opcode 0x01 with an `rt` field other than BLTZ's 0 and BGEZ's 1 (R150). -/

namespace Sys2Proof

/-- An instruction that some word decodes to. -/
def Instr.wellFormed : Instr → Bool
  | .regimmOther _ rt _ => rt != 0#5 && rt != 1#5
  | _ => true

end Sys2Proof
end

