-- ==== Sys2Proof/Decode.lean ====
section
/-! DEFINITION. Instruction words: their fields (R56), decoding (R61 to R67), encoding (R70), and the bytes they are stored as (R57). -/

namespace Sys2Proof

/-! ## Fields of a word (R56) -/

/-- `op`, bits 31:26. -/
def opField (w : Word) : BitVec 6 := w.extractLsb' 26 6
/-- `rs`, bits 25:21. -/
def rsField (w : Word) : RegNum := w.extractLsb' 21 5
/-- `rt`, bits 20:16. -/
def rtField (w : Word) : RegNum := w.extractLsb' 16 5
/-- `rd`, bits 15:11. -/
def rdField (w : Word) : RegNum := w.extractLsb' 11 5
/-- `sa`, bits 10:6. -/
def saField (w : Word) : ShiftAmount := w.extractLsb' 6 5
/-- `funct`, bits 5:0. -/
def functField (w : Word) : BitVec 6 := w.extractLsb' 0 6
/-- `imm16`, bits 15:0. -/
def immField (w : Word) : Imm16 := w.extractLsb' 0 16
/-- The J format's `target`, bits 25:0. -/
def targetField (w : Word) : BitVec 26 := w.extractLsb' 0 26
/-- SYSCALL's `code`, bits 25:6 (R141). -/
def codeField (w : Word) : BitVec 20 := w.extractLsb' 6 20

/-- `sext_32` (R12, R58). -/
def sext32 (v : Imm16) : Word := v.signExtend 32

/-! ## Bytes of a word (R46, R57) -/

/-- The word whose byte at the lowest address is `b0`: little-endian. -/
def wordOfBytes (b0 b1 b2 b3 : Byte) : Word :=
  b0.setWidth 32 ||| b1.setWidth 32 <<< 8 ||| b2.setWidth 32 <<< 16 ||| b3.setWidth 32 <<< 24

/-- Byte `k` of a word, byte 0 being bits 7:0. -/
def byteOfWord (w : Word) (k : Nat) : Byte := w.extractLsb' (8 * k) 8

/-- The four bytes of a word in address order. -/
def bytesOfWord (w : Word) : List Byte := [byteOfWord w 0, byteOfWord w 1, byteOfWord w 2, byteOfWord w 3]

/-! ## Decoding -/

/-- Why bytes are no instruction of the opcode table. -/
inductive Reject where
  /-- fewer than the four bytes of a word -/
  | truncated
  /-- op 0 with a function code R62 does not list (R65) -/
  | unhandledFunction (funct : BitVec 6)
  /-- an op that is not 0 and that R63 does not list (R66) -/
  | unrecognizedOpcode (op : BitVec 6)
  deriving DecidableEq, Repr

/-- The register-format map (R62); every other function code is unhandled (R65). -/
def decodeRegister (w : Word) : Except Reject Instr :=
  let rs := rsField w
  let rt := rtField w
  let rd := rdField w
  let sa := saField w
  match functField w with
  | 0x00#6 => .ok (.sll rs rt rd sa)
  | 0x02#6 => .ok (.srl rs rt rd sa)
  | 0x03#6 => .ok (.sra rs rt rd sa)
  | 0x08#6 => .ok (.jr rs rt rd sa)
  | 0x09#6 => .ok (.jalr rs rt rd sa)
  | 0x0C#6 => .ok (.syscall (codeField w))
  | 0x10#6 => .ok (.mfhi rs rt rd sa)
  | 0x11#6 => .ok (.mthi rs rt rd sa)
  | 0x12#6 => .ok (.mflo rs rt rd sa)
  | 0x13#6 => .ok (.mtlo rs rt rd sa)
  | 0x18#6 => .ok (.mult rs rt rd sa)
  | 0x19#6 => .ok (.multu rs rt rd sa)
  | 0x1A#6 => .ok (.div rs rt rd sa)
  | 0x1B#6 => .ok (.divu rs rt rd sa)
  | 0x20#6 => .ok (.add rs rt rd sa)
  | 0x21#6 => .ok (.addu rs rt rd sa)
  | 0x22#6 => .ok (.sub rs rt rd sa)
  | 0x23#6 => .ok (.subu rs rt rd sa)
  | 0x24#6 => .ok (.and rs rt rd sa)
  | 0x25#6 => .ok (.or rs rt rd sa)
  | 0x26#6 => .ok (.xor rs rt rd sa)
  | 0x27#6 => .ok (.nor rs rt rd sa)
  | 0x2A#6 => .ok (.slt rs rt rd sa)
  | funct => .error (.unhandledFunction funct)

/-- Opcode 0x01 (R63, R67): every `rt` is recognized. -/
def decodeRegimm (w : Word) : Instr :=
  match rtField w with
  | 0#5 => .bltz (rsField w) (immField w)
  | 1#5 => .bgez (rsField w) (immField w)
  | rt => .regimmOther (rsField w) rt (immField w)

/-- Dispatch on the opcode (R61, R63); every other opcode is unrecognized (R66). Unused fields are not checked (R64). -/
def decodeWord (w : Word) : Except Reject Instr :=
  let rs := rsField w
  let rt := rtField w
  let imm := immField w
  match opField w with
  | 0x00#6 => decodeRegister w
  | 0x01#6 => .ok (decodeRegimm w)
  | 0x02#6 => .ok (.j (targetField w))
  | 0x03#6 => .ok (.jal (targetField w))
  | 0x04#6 => .ok (.beq rs rt imm)
  | 0x05#6 => .ok (.bne rs rt imm)
  | 0x06#6 => .ok (.blez rs rt imm)
  | 0x07#6 => .ok (.bgtz rs rt imm)
  | 0x08#6 => .ok (.addi rs rt imm)
  | 0x09#6 => .ok (.addiu rs rt imm)
  | 0x0A#6 => .ok (.slti rs rt imm)
  | 0x0C#6 => .ok (.andi rs rt imm)
  | 0x0D#6 => .ok (.ori rs rt imm)
  | 0x0E#6 => .ok (.xori rs rt imm)
  | 0x0F#6 => .ok (.lui rs rt imm)
  | 0x20#6 => .ok (.lb rs rt imm)
  | 0x21#6 => .ok (.lh rs rt imm)
  | 0x23#6 => .ok (.lw rs rt imm)
  | 0x28#6 => .ok (.sb rs rt imm)
  | 0x29#6 => .ok (.sh rs rt imm)
  | 0x2B#6 => .ok (.sw rs rt imm)
  | op => .error (.unrecognizedOpcode op)

/-- Decode the instruction at the head of some bytes and give the rest: one length, four bytes, little-endian (R56, R57). -/
def decode : List Byte → Except Reject (Instr × List Byte)
  | b0 :: b1 :: b2 :: b3 :: rest => (decodeWord (wordOfBytes b0 b1 b2 b3)).map (fun i => (i, rest))
  | _ => .error .truncated

/-! ## Encoding (R56, R70) -/

/-- An R-format word: op 0, and the other fields shifted to their places (R70). -/
def registerWord (rs rt rd : RegNum) (sa : ShiftAmount) (funct : BitVec 6) : Word :=
  rs.setWidth 32 <<< 21 ||| rt.setWidth 32 <<< 16 ||| rd.setWidth 32 <<< 11 ||| sa.setWidth 32 <<< 6 ||| funct.setWidth 32

/-- An I-format word. -/
def immediateWord (op : BitVec 6) (rs rt : RegNum) (imm : Imm16) : Word :=
  op.setWidth 32 <<< 26 ||| rs.setWidth 32 <<< 21 ||| rt.setWidth 32 <<< 16 ||| imm.setWidth 32

/-- A J-format word. -/
def jumpWord (op : BitVec 6) (target : BitVec 26) : Word :=
  op.setWidth 32 <<< 26 ||| target.setWidth 32

/-- A SYSCALL word with its code bits (R141). -/
def syscallWord (code : BitVec 20) : Word := code.setWidth 32 <<< 6 ||| 0x0C#32

/-- The word of an instruction. -/
def encode : Instr → Word
  | .sll rs rt rd sa => registerWord rs rt rd sa 0x00#6
  | .srl rs rt rd sa => registerWord rs rt rd sa 0x02#6
  | .sra rs rt rd sa => registerWord rs rt rd sa 0x03#6
  | .jr rs rt rd sa => registerWord rs rt rd sa 0x08#6
  | .jalr rs rt rd sa => registerWord rs rt rd sa 0x09#6
  | .syscall code => syscallWord code
  | .mfhi rs rt rd sa => registerWord rs rt rd sa 0x10#6
  | .mthi rs rt rd sa => registerWord rs rt rd sa 0x11#6
  | .mflo rs rt rd sa => registerWord rs rt rd sa 0x12#6
  | .mtlo rs rt rd sa => registerWord rs rt rd sa 0x13#6
  | .mult rs rt rd sa => registerWord rs rt rd sa 0x18#6
  | .multu rs rt rd sa => registerWord rs rt rd sa 0x19#6
  | .div rs rt rd sa => registerWord rs rt rd sa 0x1A#6
  | .divu rs rt rd sa => registerWord rs rt rd sa 0x1B#6
  | .add rs rt rd sa => registerWord rs rt rd sa 0x20#6
  | .addu rs rt rd sa => registerWord rs rt rd sa 0x21#6
  | .sub rs rt rd sa => registerWord rs rt rd sa 0x22#6
  | .subu rs rt rd sa => registerWord rs rt rd sa 0x23#6
  | .and rs rt rd sa => registerWord rs rt rd sa 0x24#6
  | .or rs rt rd sa => registerWord rs rt rd sa 0x25#6
  | .xor rs rt rd sa => registerWord rs rt rd sa 0x26#6
  | .nor rs rt rd sa => registerWord rs rt rd sa 0x27#6
  | .slt rs rt rd sa => registerWord rs rt rd sa 0x2A#6
  | .bltz rs imm => immediateWord 0x01#6 rs 0#5 imm
  | .bgez rs imm => immediateWord 0x01#6 rs 1#5 imm
  | .regimmOther rs rt imm => immediateWord 0x01#6 rs rt imm
  | .j target => jumpWord 0x02#6 target
  | .jal target => jumpWord 0x03#6 target
  | .beq rs rt imm => immediateWord 0x04#6 rs rt imm
  | .bne rs rt imm => immediateWord 0x05#6 rs rt imm
  | .blez rs rt imm => immediateWord 0x06#6 rs rt imm
  | .bgtz rs rt imm => immediateWord 0x07#6 rs rt imm
  | .addi rs rt imm => immediateWord 0x08#6 rs rt imm
  | .addiu rs rt imm => immediateWord 0x09#6 rs rt imm
  | .slti rs rt imm => immediateWord 0x0A#6 rs rt imm
  | .andi rs rt imm => immediateWord 0x0C#6 rs rt imm
  | .ori rs rt imm => immediateWord 0x0D#6 rs rt imm
  | .xori rs rt imm => immediateWord 0x0E#6 rs rt imm
  | .lui rs rt imm => immediateWord 0x0F#6 rs rt imm
  | .lb rs rt imm => immediateWord 0x20#6 rs rt imm
  | .lh rs rt imm => immediateWord 0x21#6 rs rt imm
  | .lw rs rt imm => immediateWord 0x23#6 rs rt imm
  | .sb rs rt imm => immediateWord 0x28#6 rs rt imm
  | .sh rs rt imm => immediateWord 0x29#6 rs rt imm
  | .sw rs rt imm => immediateWord 0x2B#6 rs rt imm

/-- The bytes an instruction is stored as, in address order (R57). -/
def encodeBytes (i : Instr) : List Byte := bytesOfWord (encode i)

/-! ## The opcode table's rows -/

/-- A row's test of a word: the bits under `mask` are those of `pattern`. -/
structure OpcodeRow where
  mask    : Word
  pattern : Word
  deriving DecidableEq, Repr

/-- The row of an R-format instruction: op and funct are fixed. -/
def registerRow (pattern : Word) : OpcodeRow := ⟨0xFC00003F#32, pattern⟩
/-- The row of an instruction that its opcode alone fixes. -/
def opcodeRow (pattern : Word) : OpcodeRow := ⟨0xFC000000#32, pattern⟩
/-- The row of BLTZ and BGEZ: op and rt are fixed. -/
def regimmRow (pattern : Word) : OpcodeRow := ⟨0xFC1F0000#32, pattern⟩

/-- Each instruction's row, with the mask and match of spec/opcode_table.json. -/
def tableRow : Instr → OpcodeRow
  | .sll .. => registerRow 0x00000000#32
  | .srl .. => registerRow 0x00000002#32
  | .sra .. => registerRow 0x00000003#32
  | .jr .. => registerRow 0x00000008#32
  | .jalr .. => registerRow 0x00000009#32
  | .syscall .. => registerRow 0x0000000C#32
  | .mfhi .. => registerRow 0x00000010#32
  | .mthi .. => registerRow 0x00000011#32
  | .mflo .. => registerRow 0x00000012#32
  | .mtlo .. => registerRow 0x00000013#32
  | .mult .. => registerRow 0x00000018#32
  | .multu .. => registerRow 0x00000019#32
  | .div .. => registerRow 0x0000001A#32
  | .divu .. => registerRow 0x0000001B#32
  | .add .. => registerRow 0x00000020#32
  | .addu .. => registerRow 0x00000021#32
  | .sub .. => registerRow 0x00000022#32
  | .subu .. => registerRow 0x00000023#32
  | .and .. => registerRow 0x00000024#32
  | .or .. => registerRow 0x00000025#32
  | .xor .. => registerRow 0x00000026#32
  | .nor .. => registerRow 0x00000027#32
  | .slt .. => registerRow 0x0000002A#32
  | .bltz .. => regimmRow 0x04000000#32
  | .bgez .. => regimmRow 0x04010000#32
  | .regimmOther .. => opcodeRow 0x04000000#32
  | .j .. => opcodeRow 0x08000000#32
  | .jal .. => opcodeRow 0x0C000000#32
  | .beq .. => opcodeRow 0x10000000#32
  | .bne .. => opcodeRow 0x14000000#32
  | .blez .. => opcodeRow 0x18000000#32
  | .bgtz .. => opcodeRow 0x1C000000#32
  | .addi .. => opcodeRow 0x20000000#32
  | .addiu .. => opcodeRow 0x24000000#32
  | .slti .. => opcodeRow 0x28000000#32
  | .andi .. => opcodeRow 0x30000000#32
  | .ori .. => opcodeRow 0x34000000#32
  | .xori .. => opcodeRow 0x38000000#32
  | .lui .. => opcodeRow 0x3C000000#32
  | .lb .. => opcodeRow 0x80000000#32
  | .lh .. => opcodeRow 0x84000000#32
  | .lw .. => opcodeRow 0x8C000000#32
  | .sb .. => opcodeRow 0xA0000000#32
  | .sh .. => opcodeRow 0xA4000000#32
  | .sw .. => opcodeRow 0xAC000000#32

/-- A word has a row's fixed bits. -/
def OpcodeRow.matches (r : OpcodeRow) (w : Word) : Bool := (w &&& r.mask) == r.pattern

/-! ## The host's question -/

/-- The word whose bit 0 is the least significant bit of `w`, with every bit above `nbits` zero. -/
def tableWord (nbits w : Nat) : Word := BitVec.ofNat 32 (w % 2 ^ nbits)

/-- What `decode` reads from the bytes of an instruction whose bits, numbered as spec/opcode_table.json numbers them, are `w`. -/
def decodeTableWord (nbits w : Nat) : Option Instr :=
  match decode (bytesOfWord (tableWord nbits w)) with
  | .ok (i, _) => some i
  | .error _ => none

end Sys2Proof
end

