-- ==== Sys2Proof/Config.lean ====
section
/-! DEFINITION. What is fixed for a whole run and never written by the core (spec/10_state.md R36; spec/00_scope.md R9): the memory
map, the three readings the spec leaves open as parameters, and the program image. The configuration is a field of State, so a
statement about every state is a statement about every configuration. -/

namespace Sys2Proof

/-- The name of a region (R39): the three the spec fixes, and any other a platform configures. -/
inductive RegionName where
  | text
  | data
  | stack
  | other (name : String)
  deriving DecidableEq, Repr

/-- A region `[first, last]` of the memory map, both bounds inclusive (R39). -/
structure Region where
  name  : RegionName
  first : Word
  last  : Word
  deriving DecidableEq, Repr

/-- `WB_MODE` (R9, D4): what Writeback does for a word that has no destination register. -/
inductive WbMode where
  | skipNoDest
  | literal
  deriving DecidableEq, Repr

/-- `SLTI_CMP` and `DIV_CMP` (R9, D6, D7): how an instruction whose signedness the source does not say reads its operands. -/
inductive Signedness where
  | unsigned
  | signed
  deriving DecidableEq, Repr

/-- The parameters of R9 and R36. -/
structure Config where
  regions : List Region
  wbMode  : WbMode
  sltiCmp : Signedness
  divCmp  : Signedness
  image   : List Word
  deriving DecidableEq, Repr

/-- `EX_CFG` (D2), the memory map of the spec's examples. DESIGN CHOICE (log entry 3): it is not normative. -/
def exampleRegions : List Region :=
  [⟨.text, 0x00400000#32, 0x004FFFFF#32⟩,
   ⟨.data, 0x10010000#32, 0x1001FFFF#32⟩,
   ⟨.stack, 0x7FF00000#32, 0x7FFFFFFF#32⟩]

/-- The configuration of `State.reset`: the defaults of R9 and an empty image. DESIGN CHOICE (log entries 2 and 3). -/
def Config.default : Config where
  regions := exampleRegions
  wbMode := .skipNoDest
  sltiCmp := .unsigned
  divCmp := .unsigned
  image := []

/-- `TEXT_BASE` (R39): the first address of the region named `text`. A table without one is refused (HostOps.lean); the 0 of that case
is the address of no run. -/
def Config.textBase (c : Config) : Word :=
  match c.regions.find? (fun r => r.name = .text) with
  | some r => r.first
  | none => 0

end Sys2Proof
end

