-- ==== Sys2Proof/Machine/State.lean ====
section
/-! DEFINITION. What the machine holds (spec/10_state.md R18 to R37), why it can stop, and the state right after reset (R35). -/

namespace Sys2Proof.Machine

/-- One instance of the architectural state (R18, R20, R21): thirty-two registers, none of them special, the pc, HI and LO. -/
structure Arch where
  x  : Vector Word 32
  pc : Word
  hi : Word
  lo : Word
  deriving DecidableEq, Repr

/-- A pipeline register (R24). `pc` is the fetch address plus 4. -/
structure Latch where
  ir        : Word
  pc        : Word
  a         : Word
  b         : Word
  imm       : Word
  aluOutput : Word
  lmd       : Word
  deriving DecidableEq, Repr

/-- A pipeline register after reset: every field 0 (R35). Its `ir` is an SLL (R68, R171). -/
def Latch.zero : Latch := ⟨0, 0, 0, 0, 0, 0, 0⟩

/-- Memory: the bytes that are not 0, by address. An address that is not listed reads as 0, which is what every byte of every region
holds after reset (R50). -/
abbrev Memory := List Host.Cell

/-- The canonical form of a memory: addresses strictly rising, and no byte listed that is 0. -/
abbrev Memory.wf (m : Memory) : Prop := m.Pairwise (fun c d => c.1 < d.1) ∧ ∀ c ∈ m, c.2 ≠ 0

/-- The two kinds of diagnostic (R33). -/
inductive DiagKind where
  | divideByZero
  | unhandledFunction
  deriving DecidableEq, Repr

/-- One diagnostic event (R33): the value of `cycles` at the start of the cycle that raised it, its kind, and the word in Execute. -/
structure DiagEvent where
  cycle : Nat
  kind  : DiagKind
  ir    : Word
  deriving DecidableEq, Repr

/-- Why a step can stop. -/
inductive Fault where
  /-- An access whose first byte is in a region and whose fourth byte is past that region's end (R44, R156). Raised by the memory
  operations of a fetch, a load or a store, which record it in `State.faulted`; answered by every step of a state that records it
  (R75). Safe: the source defines no result there, and no claim about a later cycle can be proved. -/
  | regionStraddle (addr : Word)
  deriving DecidableEq, Repr

/-- What the model has no meaning for. No step of a state that has not faulted answers one. -/
inductive Refusal where
  /-- An instruction without a meaning; no arm of `exec` answers it. Safe. -/
  | notModelled (mnemonic : String)
  /-- The host's reset with an ill-formed region table (R39, D1). Safe. -/
  | illFormedRegions
  /-- The host's reset with an image that does not fit in the text region (R169, D13). Safe. -/
  | imageTooLarge
  /-- The host's read of memory that would run past the end of a region (R102, D12). Safe. -/
  | hostReadStraddle (addr : Word)
  deriving DecidableEq, Repr

/-- The stages whose work depends on the instruction (R61), in the order they run in a cycle (R73). -/
inductive Stage where
  | writeback
  | memoryAccess
  | execute
  deriving DecidableEq, Repr

/-- The machine's state (R37). `cfg` is the configuration of R36, which nothing writes. `stage` is the MODEL's own field: the stage
that the cycle driver is running, which says what share of an instruction `exec` performs (log entry 1); between cycles it is
`writeback`, the first. -/
structure State where
  cfg     : Config
  cur     : Arch
  nxt     : Arch
  ifid    : Latch
  idex    : Latch
  exmem   : Latch
  memwb   : Latch
  mem     : Memory
  cycles  : Nat
  retired : Nat
  running : Bool
  diag    : List DiagEvent
  faulted : Option Fault
  stage   : Stage
  deriving DecidableEq, Repr

/-- What a stage, an instruction or a cycle answers. -/
abbrev Result := Host.Outcome State Fault Refusal

/-- An instance of the architectural state after reset (R35): every register, HI and LO 0, and the pc at `TEXT_BASE`. -/
def Arch.atReset (c : Config) : Arch := ⟨Vector.replicate 32 0, c.textBase, 0, 0⟩

/-- Every field of R35 at its reset value for a configuration, before the image is loaded, with a diagnostic log that reset keeps. -/
def State.zeroed (c : Config) (diag : List DiagEvent) : State where
  cfg := c
  cur := Arch.atReset c
  nxt := Arch.atReset c
  ifid := Latch.zero
  idex := Latch.zero
  exmem := Latch.zero
  memwb := Latch.zero
  mem := []
  cycles := 0
  retired := 0
  running := true
  diag := diag
  faulted := none
  stage := .writeback

/-- The machine right after reset, which is the state at power-on (R35, R170), in the default configuration and with no program
(log entries 2 to 4). -/
def State.reset : State := State.zeroed Config.default []

end Sys2Proof.Machine
end

