-- ==== Sys2Proof/Machine/Ops.lean ====
section
/-! DEFINITION. The operations every stage and every instruction is made of: registers, memory (spec/20_memory.md), the named updates of
the state, the frames of Execute, MemoryAccess and Writeback (spec/40_pipeline.md), and what happens at an error condition
(spec/60_exceptions.md). The core takes no exception and returns from none: R158 and R159 say that no condition saves a pc, changes a
mode or redirects fetch. A condition is an event in the diagnostic log (`raiseDiag`) or the model fault (`markFaulted`). -/

namespace Sys2Proof.Machine

/-! ## General registers (R18) -/

/-- The value of register `r`; register 0 is an ordinary register. -/
def Arch.read (m : Arch) (r : RegNum) : Word := m.x[r.toNat]'(r.isLt)

/-- Write register `r`; register 0 is an ordinary register (R91). -/
def Arch.write (m : Arch) (r : RegNum) (v : Word) : Arch := { m with x := m.x.set r.toNat v r.isLt }

/-! ## Memory -/

/-- The byte at an address: 0 where none is listed (R50). -/
def Memory.readByte : Memory → Nat → Byte
  | [], _ => 0
  | (k, v) :: rest, a => if k = a then v else Memory.readByte rest a

/-- Write one byte and keep the canonical form. -/
def Memory.writeByte : Memory → Nat → Byte → Memory
  | [], a, v => if v = 0 then [] else [(a, v)]
  | (k, w) :: rest, a, v =>
    if a < k then (if v = 0 then (k, w) :: rest else (a, v) :: (k, w) :: rest)
    else if a = k then (if v = 0 then rest else (a, v) :: rest)
    else (k, w) :: Memory.writeByte rest a v

/-- A region holds an address (R40). -/
def regionOwns (r : Region) (a : Nat) : Bool := r.first.toNat ≤ a && a ≤ r.last.toNat

/-- The region that owns an address, by linear scan (R40). -/
def owningRegion (regions : List Region) (addr : Word) : Option Region :=
  regions.find? (fun r => regionOwns r addr.toNat)

/-- The four bytes at `a`, `a+1`, `a+2`, `a+3`, the first the least significant (R41). -/
def Memory.readWord (m : Memory) (a : Nat) : Word :=
  wordOfBytes (m.readByte a) (m.readByte (a + 1)) (m.readByte (a + 2)) (m.readByte (a + 3))

/-- Write the four bytes of a word at `a`, `a+1`, `a+2`, `a+3` (R42). -/
def Memory.writeWord (m : Memory) (a : Nat) (v : Word) : Memory :=
  (((m.writeByte a (byteOfWord v 0)).writeByte (a + 1) (byteOfWord v 1)).writeByte (a + 2) (byteOfWord v 2)).writeByte
    (a + 3) (byteOfWord v 3)

/-- `MemRead(addr, 4)` (R41): 0 outside every region (R43), and the model fault where the word runs past its region's end (R44).
No address is rounded or checked for alignment (R45). -/
def memRead (regions : List Region) (m : Memory) (addr : Word) : Except Fault Word :=
  match owningRegion regions addr with
  | none => .ok 0
  | some r => if r.last.toNat < addr.toNat + 3 then .error (.regionStraddle addr) else .ok (m.readWord addr.toNat)

/-- `MemWrite(addr, 4, v)` (R42): dropped outside every region (R43), and the model fault where the word runs past its region's
end (R44). -/
def memWrite (regions : List Region) (m : Memory) (addr : Word) (v : Word) : Except Fault Memory :=
  match owningRegion regions addr with
  | none => .ok m
  | some r => if r.last.toNat < addr.toNat + 3 then .error (.regionStraddle addr) else .ok (m.writeWord addr.toNat v)

/-! ## Named updates of the state -/

/-- `nxt.x[r] <- v`. -/
def State.writeNxtReg (s : State) (r : RegNum) (v : Word) : State := { s with nxt := s.nxt.write r v }
/-- `nxt.hi <- v`. -/
def State.writeNxtHi (s : State) (v : Word) : State := { s with nxt := { s.nxt with hi := v } }
/-- `nxt.lo <- v`. -/
def State.writeNxtLo (s : State) (v : Word) : State := { s with nxt := { s.nxt with lo := v } }
/-- `nxt.pc <- v`. -/
def State.writeNxtPc (s : State) (v : Word) : State := { s with nxt := { s.nxt with pc := v } }
/-- Reassign IF/ID. -/
def State.setIfid (s : State) (l : Latch) : State := { s with ifid := l }
/-- Reassign ID/EX. -/
def State.setIdex (s : State) (l : Latch) : State := { s with idex := l }
/-- Reassign EX/MEM. -/
def State.setExmem (s : State) (l : Latch) : State := { s with exmem := l }
/-- Reassign MEM/WB. -/
def State.setMemwb (s : State) (l : Latch) : State := { s with memwb := l }
/-- Replace memory's contents. -/
def State.setMem (s : State) (m : Memory) : State := { s with mem := m }
/-- `retired <- retired + 1` (R92). -/
def State.retire (s : State) : State := { s with retired := s.retired + 1 }
/-- Which stage the cycle driver is running (log entry 1). -/
def State.atStage (s : State) (st : Stage) : State := { s with stage := st }

/-- `raise` (R15, R153, R154): one event for the word in Execute is appended to the log, and the stage goes on. -/
def State.raiseDiag (s : State) (k : DiagKind) : State := { s with diag := s.diag ++ [⟨s.cycles, k, s.idex.ir⟩] }

/-- `fault` (R15, R156): the fault is recorded; no later stage and no further cycle runs. -/
def State.markFaulted (s : State) (f : Fault) : State := { s with faulted := some f }

/-- The end of a cycle (R23, R73): `cur <- nxt`, a copy, then `cycles <- cycles + 1`. -/
def State.commit (s : State) : State := { s with cur := s.nxt, cycles := s.cycles + 1 }

/-! ## The frames of the stages -/

/-- Execute's frame (R81, R26): EX/MEM gets ID/EX's `ir`, `pc`, `a`, `b` and `imm`, the result `v`, and `lmd` 0. -/
def State.executeResult (s : State) (v : Word) : State := s.setExmem { s.idex with aluOutput := v, lmd := 0 }

/-- Execute of an instruction that computes no result: `aluOutput` stays 0 (R81). -/
def State.executeNothing (s : State) : State := s.executeResult 0

/-- MemoryAccess's frame without an access (R85, R86): MEM/WB gets EX/MEM's fields, and `lmd` 0. -/
def State.memoryPass (s : State) : State := s.setMemwb { s.exmem with lmd := 0 }

/-- MemoryAccess of a load (R85, R133): MEM/WB gets EX/MEM's fields, and the bits of the word at `EXMEM.aluOutput` under `mask`. -/
def State.memoryLoad (s : State) (mask : Word) : State :=
  match memRead s.cfg.regions s.mem s.exmem.aluOutput with
  | .ok w => s.setMemwb { s.exmem with lmd := w &&& mask }
  | .error f => s.memoryPass.markFaulted f

/-- MemoryAccess of a store (R85, R136): all four bytes of `EXMEM.b` at `EXMEM.aluOutput`. -/
def State.memoryStore (s : State) : State :=
  match memWrite s.cfg.regions s.mem s.exmem.aluOutput s.exmem.b with
  | .ok m => s.memoryPass.setMem m
  | .error f => s.memoryPass.markFaulted f

/-- Writeback of a word with a destination register (R89, R90): write it and retire. -/
def State.writebackTo (s : State) (d : RegNum) (v : Word) : State := (s.writeNxtReg d v).retire

/-- Writeback of a word without one: under `skipNoDest` no register is written (R89); under `literal` the register of the word's
destination field `d` gets `aluOutput` (R90). It retires under both (R92). -/
def State.writebackNoDest (s : State) (d : RegNum) : State :=
  match s.cfg.wbMode with
  | .skipNoDest => s.retire
  | .literal => s.writebackTo d s.memwb.aluOutput

/-- Writeback of a word that updates nothing: SYSCALL, and every word that is no instruction of the table (R89). -/
def State.writebackNothing (s : State) : State := s

/-- The share of a word's work that the running stage performs: one function for each stage that depends on the word (R61). -/
def stageWork (execute memoryAccess writeback : State → State) (s : State) : Result :=
  match s.stage with
  | .writeback => .next (writeback s)
  | .memoryAccess => .next (memoryAccess s)
  | .execute => .next (execute s)

/-! ## The four shapes of an instruction (R89) -/

/-- An instruction that computes a result in Execute and writes it to register `d` in Writeback. -/
def resultTo (d : RegNum) (result : State → Word) (s : State) : Result :=
  stageWork
    (execute := fun s => s.executeResult (result s))
    (memoryAccess := State.memoryPass)
    (writeback := fun s => s.writebackTo d s.memwb.aluOutput) s

/-- An instruction whose Execute has a side effect and computes no result, and which has no destination register; `d` is the word's
destination field. -/
def effectOnly (d : RegNum) (effect : State → State) (s : State) : Result :=
  stageWork
    (execute := fun s => (effect s).executeNothing)
    (memoryAccess := State.memoryPass)
    (writeback := fun s => s.writebackNoDest d) s

/-- A load (R132, R133): the address in Execute, the word under `mask` in MemoryAccess, `lmd` to register `d` in Writeback. -/
def loadTo (d : RegNum) (mask : Word) (address : State → Word) (s : State) : Result :=
  stageWork
    (execute := fun s => s.executeResult (address s))
    (memoryAccess := fun s => s.memoryLoad mask)
    (writeback := fun s => s.writebackTo d s.memwb.lmd) s

/-- A store (R132, R136): the address in Execute, the whole word `b` in MemoryAccess, no destination register. -/
def storeFrom (d : RegNum) (address : State → Word) (s : State) : Result :=
  stageWork
    (execute := fun s => s.executeResult (address s))
    (memoryAccess := State.memoryStore)
    (writeback := fun s => s.writebackNoDest d) s

end Sys2Proof.Machine
end

