-- ==== Sys2Proof/Machine/Operands.lean ====
section
/-! DEFINITION. Operands: what Decode forms for every word (spec/40_pipeline.md R79; spec/30_encoding.md R58 to R60), and the operand
forms of the instructions. -/

namespace Sys2Proof.Machine

/-- The contents Decode gives ID/EX for a word `ir` fetched with pc snapshot `pc` (R79, R26): both register fields are read from `cur`
for every word (R60, R80), and the immediate is sign-extended (R58). -/
def State.decodedLatch (s : State) (ir pc : Word) : Latch where
  ir := ir
  pc := pc
  a := s.cur.read (rsField ir)
  b := s.cur.read (rtField ir)
  imm := sext32 (immField ir)
  aluOutput := 0
  lmd := 0

/-- The shift operand forms (R105 to R107): `b` shifted by the field `sa`. -/
def shiftLeft (b : Word) (sa : ShiftAmount) : Word := b <<< sa.toNat
/-- Zeros shifted in at bit 31 (R106). -/
def shiftRightLogical (b : Word) (sa : ShiftAmount) : Word := b >>> sa.toNat
/-- Copies of bit 31 shifted in (R107). -/
def shiftRightArithmetic (b : Word) (sa : ShiftAmount) : Word := b.sshiftRight sa.toNat

/-- ADDI's second sign extension of an immediate that is already sign-extended (R125). -/
def reextend (imm : Word) : Word := if imm.getLsbD 15 then imm ||| 0xFFFF0000#32 else imm

/-- LUI's operand (R131). -/
def upperImmediate (imm : Word) : Word := imm <<< 16

/-- The one addressing mode: base plus displacement, modulo 2^32 (R132). -/
def effectiveAddress (a imm : Word) : Word := a + imm

/-- The masks of LB, LH and LW (R133 to R135). -/
def byteMask : Word := 0x000000FF#32
/-- The low halfword. -/
def halfMask : Word := 0x0000FFFF#32
/-- The whole word. -/
def wordMask : Word := 0xFFFFFFFF#32

/-- The bits of a J or JAL word that Writeback reads as `rt`: bits 20:16 (R144, R145). -/
def jumpRtField (target : BitVec 26) : RegNum := target.extractLsb' 16 5

/-- The 64-bit product of two unsigned words (R112). -/
def product64 (a b : Word) : BitVec 64 := a.setWidth 64 * b.setWidth 64
/-- Bits 31:0 of the product. -/
def productLow (a b : Word) : Word := (product64 a b).extractLsb' 0 32
/-- Bits 63:32 of the product. -/
def productHigh (a b : Word) : Word := (product64 a b).extractLsb' 32 32

/-- The quotient (R114, R115): unsigned rounded down, or signed rounded toward zero and reduced modulo 2^32. The divisor is not 0 where
an instruction asks for it. -/
def quotient : Signedness → Word → Word → Word
  | .unsigned, a, b => BitVec.ofNat 32 (a.toNat / b.toNat)
  | .signed, a, b => BitVec.ofInt 32 (a.toInt.tdiv b.toInt)

/-- The remainder that goes with `quotient`. -/
def remainder : Signedness → Word → Word → Word
  | .unsigned, a, b => BitVec.ofNat 32 (a.toNat % b.toNat)
  | .signed, a, b => BitVec.ofInt 32 (a.toInt - a.toInt.tdiv b.toInt * b.toInt)

end Sys2Proof.Machine
end

