-- ==== Sys2Proof/Machine/Flags.lean ====
section
/-! DEFINITION. Conditions. The core has no flags, condition codes or predicates (spec/10_state.md R30), so no instruction computes one.
What takes their place: the comparisons of SLT and SLTI, and the divide-by-zero condition (spec/60_exceptions.md R154). -/

namespace Sys2Proof.Machine

/-- `a < b` under a reading of the operands (R11, R127). -/
def lessThan : Signedness → Word → Word → Bool
  | .unsigned, a, b => a.toNat < b.toNat
  | .signed, a, b => a.toInt < b.toInt

/-- The word of a comparison: 1 or 0 (R124). -/
def boolWord (c : Bool) : Word := if c then 1 else 0

/-- The condition under which DIV and DIVU raise `DivideByZero` (R154). -/
def dividesByZero (b : Word) : Bool := b == 0

end Sys2Proof.Machine
end

