-- ==== Sys2Proof/Machine/AluImm.lean ====
section
/-! DEFINITION. The immediate instructions (spec/44_alu_imm.md). `IDEX.imm` is sign-extended for every one of them (R58, R59); the
destination is rt. -/

namespace Sys2Proof.Machine

/-- ADDI (R125). -/
def execAddi (_rs rt : RegNum) (_imm : Imm16) (s : State) : Result :=
  resultTo rt (fun s => reextend s.idex.imm + s.idex.a) s

/-- ADDIU (R126). -/
def execAddiu (_rs rt : RegNum) (_imm : Imm16) (s : State) : Result :=
  resultTo rt (fun s => s.idex.a + s.idex.imm) s

/-- SLTI (R127). -/
def execSlti (_rs rt : RegNum) (_imm : Imm16) (s : State) : Result :=
  resultTo rt (fun s => boolWord (lessThan s.cfg.sltiCmp s.idex.a s.idex.imm)) s

/-- ANDI (R128). -/
def execAndi (_rs rt : RegNum) (_imm : Imm16) (s : State) : Result :=
  resultTo rt (fun s => s.idex.a &&& s.idex.imm) s

/-- ORI (R129). -/
def execOri (_rs rt : RegNum) (_imm : Imm16) (s : State) : Result :=
  resultTo rt (fun s => s.idex.a ||| s.idex.imm) s

/-- XORI (R130). -/
def execXori (_rs rt : RegNum) (_imm : Imm16) (s : State) : Result :=
  resultTo rt (fun s => s.idex.a ^^^ s.idex.imm) s

/-- LUI (R131). -/
def execLui (_rs rt : RegNum) (_imm : Imm16) (s : State) : Result :=
  resultTo rt (fun s => upperImmediate s.idex.imm) s

end Sys2Proof.Machine
end

