-- ==== Sys2Proof/Machine/AluReg.lean ====
section
/-! DEFINITION. The register-register instructions (spec/43_alu_reg.md). None of them reports overflow (R116, R157). -/

namespace Sys2Proof.Machine

/-- ADD (R116). -/
def execAdd (_rs _rt rd : RegNum) (_sa : ShiftAmount) (s : State) : Result :=
  resultTo rd (fun s => s.idex.a + s.idex.b) s

/-- ADDU (R117). -/
def execAddu (_rs _rt rd : RegNum) (_sa : ShiftAmount) (s : State) : Result :=
  resultTo rd (fun s => s.idex.a + s.idex.b) s

/-- SUB (R118). -/
def execSub (_rs _rt rd : RegNum) (_sa : ShiftAmount) (s : State) : Result :=
  resultTo rd (fun s => s.idex.a - s.idex.b) s

/-- SUBU (R119). -/
def execSubu (_rs _rt rd : RegNum) (_sa : ShiftAmount) (s : State) : Result :=
  resultTo rd (fun s => s.idex.a - s.idex.b) s

/-- AND (R120). -/
def execAnd (_rs _rt rd : RegNum) (_sa : ShiftAmount) (s : State) : Result :=
  resultTo rd (fun s => s.idex.a &&& s.idex.b) s

/-- OR (R121). -/
def execOr (_rs _rt rd : RegNum) (_sa : ShiftAmount) (s : State) : Result :=
  resultTo rd (fun s => s.idex.a ||| s.idex.b) s

/-- XOR (R122). -/
def execXor (_rs _rt rd : RegNum) (_sa : ShiftAmount) (s : State) : Result :=
  resultTo rd (fun s => s.idex.a ^^^ s.idex.b) s

/-- NOR (R123). -/
def execNor (_rs _rt rd : RegNum) (_sa : ShiftAmount) (s : State) : Result :=
  resultTo rd (fun s => ~~~(s.idex.a ||| s.idex.b)) s

/-- SLT (R124). -/
def execSlt (_rs _rt rd : RegNum) (_sa : ShiftAmount) (s : State) : Result :=
  resultTo rd (fun s => boolWord (lessThan .unsigned s.idex.a s.idex.b)) s

end Sys2Proof.Machine
end

