-- ==== Sys2Proof/Machine/Control.lean ====
section
/-! DEFINITION. The control-transfer and system encodings (spec/46_control.md). None of them changes the pc, reads an operand or computes a
result (R151); they differ in the field that Writeback takes as the destination under `WB_MODE = literal`. -/

namespace Sys2Proof.Machine

/-- JR (R139). -/
def execJr (_rs _rt rd : RegNum) (_sa : ShiftAmount) (s : State) : Result :=
  effectOnly rd id s

/-- JALR (R140): no link is written. -/
def execJalr (_rs _rt rd : RegNum) (_sa : ShiftAmount) (s : State) : Result :=
  effectOnly rd id s

/-- SYSCALL (R141): nothing in any stage, and it does not retire. -/
def execSyscall (_code : BitVec 20) (s : State) : Result :=
  stageWork
    (execute := State.executeNothing)
    (memoryAccess := State.memoryPass)
    (writeback := State.writebackNothing) s

/-- BLTZ (R142): its rt field is 0. -/
def execBltz (_rs : RegNum) (_imm : Imm16) (s : State) : Result :=
  effectOnly 0 id s

/-- BGEZ (R143): its rt field is 1. -/
def execBgez (_rs : RegNum) (_imm : Imm16) (s : State) : Result :=
  effectOnly 1 id s

/-- Opcode 0x01 with any other rt (R150): no link is written. -/
def execRegimmOther (_rs rt : RegNum) (_imm : Imm16) (s : State) : Result :=
  effectOnly rt id s

/-- J (R144). -/
def execJ (target : BitVec 26) (s : State) : Result :=
  effectOnly (jumpRtField target) id s

/-- JAL (R145): no link is written. -/
def execJal (target : BitVec 26) (s : State) : Result :=
  effectOnly (jumpRtField target) id s

/-- BEQ (R146): never taken. -/
def execBeq (_rs rt : RegNum) (_imm : Imm16) (s : State) : Result :=
  effectOnly rt id s

/-- BNE (R147): never taken. -/
def execBne (_rs rt : RegNum) (_imm : Imm16) (s : State) : Result :=
  effectOnly rt id s

/-- BLEZ (R148): never taken. -/
def execBlez (_rs rt : RegNum) (_imm : Imm16) (s : State) : Result :=
  effectOnly rt id s

/-- BGTZ (R149): never taken. -/
def execBgtz (_rs rt : RegNum) (_imm : Imm16) (s : State) : Result :=
  effectOnly rt id s

end Sys2Proof.Machine
end

