-- ==== Sys2Proof/Machine/HiLo.lean ====
section
/-! DEFINITION. The HI/LO instructions (spec/42_hilo.md). They read `cur` and write `nxt` in Execute (R84). -/

namespace Sys2Proof.Machine

/-- MFHI (R108). -/
def execMfhi (_rs _rt rd : RegNum) (_sa : ShiftAmount) (s : State) : Result :=
  resultTo rd (fun s => s.cur.hi) s

/-- MTHI (R109). -/
def execMthi (_rs _rt rd : RegNum) (_sa : ShiftAmount) (s : State) : Result :=
  effectOnly rd (fun s => s.writeNxtHi s.idex.a) s

/-- MFLO (R110). -/
def execMflo (_rs _rt rd : RegNum) (_sa : ShiftAmount) (s : State) : Result :=
  resultTo rd (fun s => s.cur.lo) s

/-- MTLO (R111). -/
def execMtlo (_rs _rt rd : RegNum) (_sa : ShiftAmount) (s : State) : Result :=
  effectOnly rd (fun s => s.writeNxtLo s.idex.a) s

/-- `nxt.lo` and `nxt.hi` get the two halves of the unsigned product (R112). -/
def State.writeProduct (s : State) : State :=
  (s.writeNxtLo (productLow s.idex.a s.idex.b)).writeNxtHi (productHigh s.idex.a s.idex.b)

/-- `nxt.lo` and `nxt.hi` get the quotient and the remainder; a divisor of 0 is reported, and then neither is written (R114, R115,
R154). -/
def State.writeQuotient (s : State) (reading : Signedness) : State :=
  if dividesByZero s.idex.b then s.raiseDiag .divideByZero
  else (s.writeNxtLo (quotient reading s.idex.a s.idex.b)).writeNxtHi (remainder reading s.idex.a s.idex.b)

/-- MULT (R112): unsigned, like MULTU. -/
def execMult (_rs _rt rd : RegNum) (_sa : ShiftAmount) (s : State) : Result :=
  effectOnly rd State.writeProduct s

/-- MULTU (R113). -/
def execMultu (_rs _rt rd : RegNum) (_sa : ShiftAmount) (s : State) : Result :=
  effectOnly rd State.writeProduct s

/-- DIV (R114), under the configured reading of its operands (D7). -/
def execDiv (_rs _rt rd : RegNum) (_sa : ShiftAmount) (s : State) : Result :=
  effectOnly rd (fun s => s.writeQuotient s.cfg.divCmp) s

/-- DIVU (R115). -/
def execDivu (_rs _rt rd : RegNum) (_sa : ShiftAmount) (s : State) : Result :=
  effectOnly rd (fun s => s.writeQuotient .unsigned) s

end Sys2Proof.Machine
end

