-- ==== Sys2Proof/Machine/LoadStore.lean ====
section
/-! DEFINITION. Loads and stores (spec/45_load_store.md). Each makes one access of four bytes at `a + imm` (R132, R47); LB and LH keep
the low bits without sign extension; SB and SH store the whole register. -/

namespace Sys2Proof.Machine

/-- LB (R133). -/
def execLb (_rs rt : RegNum) (_imm : Imm16) (s : State) : Result :=
  loadTo rt byteMask (fun s => effectiveAddress s.idex.a s.idex.imm) s

/-- LH (R134). -/
def execLh (_rs rt : RegNum) (_imm : Imm16) (s : State) : Result :=
  loadTo rt halfMask (fun s => effectiveAddress s.idex.a s.idex.imm) s

/-- LW (R135). -/
def execLw (_rs rt : RegNum) (_imm : Imm16) (s : State) : Result :=
  loadTo rt wordMask (fun s => effectiveAddress s.idex.a s.idex.imm) s

/-- SB (R136). -/
def execSb (_rs rt : RegNum) (_imm : Imm16) (s : State) : Result :=
  storeFrom rt (fun s => effectiveAddress s.idex.a s.idex.imm) s

/-- SH (R137). -/
def execSh (_rs rt : RegNum) (_imm : Imm16) (s : State) : Result :=
  storeFrom rt (fun s => effectiveAddress s.idex.a s.idex.imm) s

/-- SW (R138). -/
def execSw (_rs rt : RegNum) (_imm : Imm16) (s : State) : Result :=
  storeFrom rt (fun s => effectiveAddress s.idex.a s.idex.imm) s

end Sys2Proof.Machine
end

