-- ==== Sys2Proof/Machine/Shift.lean ====
section
/-! DEFINITION. SLL, SRL and SRA (spec/41_shift.md). They shift `b`, the rt register, by the field `sa`; `rs` is ignored. -/

namespace Sys2Proof.Machine

/-- SLL (R105). -/
def execSll (_rs _rt rd : RegNum) (sa : ShiftAmount) (s : State) : Result :=
  resultTo rd (fun s => shiftLeft s.idex.b sa) s

/-- SRL (R106). -/
def execSrl (_rs _rt rd : RegNum) (sa : ShiftAmount) (s : State) : Result :=
  resultTo rd (fun s => shiftRightLogical s.idex.b sa) s

/-- SRA (R107). -/
def execSra (_rs _rt rd : RegNum) (sa : ShiftAmount) (s : State) : Result :=
  resultTo rd (fun s => shiftRightArithmetic s.idex.b sa) s

end Sys2Proof.Machine
end

