-- ==== Sys2Proof/Machine/Dispatch.lean ====
section
/-! DEFINITION. The meaning of every instruction: the share of its work that belongs to the stage the cycle driver is running
(spec/30_encoding.md R61: Execute, MemoryAccess and Writeback dispatch on the word in the latch before them). -/

namespace Sys2Proof.Machine

def exec (i : Instr) (s : State) : Host.Outcome State Fault Refusal :=
  match i with
  -- spec/41_shift.md
  | .sll rs rt rd sa => Sys2Proof.Machine.execSll rs rt rd sa s
  | .srl rs rt rd sa => Sys2Proof.Machine.execSrl rs rt rd sa s
  | .sra rs rt rd sa => Sys2Proof.Machine.execSra rs rt rd sa s
  -- spec/46_control.md, register format
  | .jr rs rt rd sa => Sys2Proof.Machine.execJr rs rt rd sa s
  | .jalr rs rt rd sa => Sys2Proof.Machine.execJalr rs rt rd sa s
  | .syscall code => Sys2Proof.Machine.execSyscall code s
  -- spec/42_hilo.md
  | .mfhi rs rt rd sa => Sys2Proof.Machine.execMfhi rs rt rd sa s
  | .mthi rs rt rd sa => Sys2Proof.Machine.execMthi rs rt rd sa s
  | .mflo rs rt rd sa => Sys2Proof.Machine.execMflo rs rt rd sa s
  | .mtlo rs rt rd sa => Sys2Proof.Machine.execMtlo rs rt rd sa s
  | .mult rs rt rd sa => Sys2Proof.Machine.execMult rs rt rd sa s
  | .multu rs rt rd sa => Sys2Proof.Machine.execMultu rs rt rd sa s
  | .div rs rt rd sa => Sys2Proof.Machine.execDiv rs rt rd sa s
  | .divu rs rt rd sa => Sys2Proof.Machine.execDivu rs rt rd sa s
  -- spec/43_alu_reg.md
  | .add rs rt rd sa => Sys2Proof.Machine.execAdd rs rt rd sa s
  | .addu rs rt rd sa => Sys2Proof.Machine.execAddu rs rt rd sa s
  | .sub rs rt rd sa => Sys2Proof.Machine.execSub rs rt rd sa s
  | .subu rs rt rd sa => Sys2Proof.Machine.execSubu rs rt rd sa s
  | .and rs rt rd sa => Sys2Proof.Machine.execAnd rs rt rd sa s
  | .or rs rt rd sa => Sys2Proof.Machine.execOr rs rt rd sa s
  | .xor rs rt rd sa => Sys2Proof.Machine.execXor rs rt rd sa s
  | .nor rs rt rd sa => Sys2Proof.Machine.execNor rs rt rd sa s
  | .slt rs rt rd sa => Sys2Proof.Machine.execSlt rs rt rd sa s
  -- spec/46_control.md, other formats
  | .bltz rs imm => Sys2Proof.Machine.execBltz rs imm s
  | .bgez rs imm => Sys2Proof.Machine.execBgez rs imm s
  | .regimmOther rs rt imm => Sys2Proof.Machine.execRegimmOther rs rt imm s
  | .j target => Sys2Proof.Machine.execJ target s
  | .jal target => Sys2Proof.Machine.execJal target s
  | .beq rs rt imm => Sys2Proof.Machine.execBeq rs rt imm s
  | .bne rs rt imm => Sys2Proof.Machine.execBne rs rt imm s
  | .blez rs rt imm => Sys2Proof.Machine.execBlez rs rt imm s
  | .bgtz rs rt imm => Sys2Proof.Machine.execBgtz rs rt imm s
  -- spec/44_alu_imm.md
  | .addi rs rt imm => Sys2Proof.Machine.execAddi rs rt imm s
  | .addiu rs rt imm => Sys2Proof.Machine.execAddiu rs rt imm s
  | .slti rs rt imm => Sys2Proof.Machine.execSlti rs rt imm s
  | .andi rs rt imm => Sys2Proof.Machine.execAndi rs rt imm s
  | .ori rs rt imm => Sys2Proof.Machine.execOri rs rt imm s
  | .xori rs rt imm => Sys2Proof.Machine.execXori rs rt imm s
  | .lui rs rt imm => Sys2Proof.Machine.execLui rs rt imm s
  -- spec/45_load_store.md
  | .lb rs rt imm => Sys2Proof.Machine.execLb rs rt imm s
  | .lh rs rt imm => Sys2Proof.Machine.execLh rs rt imm s
  | .lw rs rt imm => Sys2Proof.Machine.execLw rs rt imm s
  | .sb rs rt imm => Sys2Proof.Machine.execSb rs rt imm s
  | .sh rs rt imm => Sys2Proof.Machine.execSh rs rt imm s
  | .sw rs rt imm => Sys2Proof.Machine.execSw rs rt imm s

end Sys2Proof.Machine
end

