-- ==== Sys2Proof/Machine/Cycle.lean ====
section
/-! DEFINITION. The cycle (spec/40_pipeline.md R73): what each stage does to the word in its latch, Decode and Fetch, and the order of
the five. Step.lean only calls it. -/

namespace Sys2Proof.Machine

/-- A word that is no instruction of the table. An unhandled function code raises its diagnostic in Execute (R65, R153), an
unrecognized opcode does nothing (R66, R155); neither computes a result, accesses memory, writes a register or retires. -/
def skipWord (r : Reject) (s : State) : Result :=
  stageWork
    (execute := fun s =>
      match r with
      | .unhandledFunction _ => (s.raiseDiag .unhandledFunction).executeNothing
      | .unrecognizedOpcode _ => s.executeNothing
      | .truncated => s.executeNothing)
    (memoryAccess := State.memoryPass)
    (writeback := State.writebackNothing) s

/-- Run the share of the word `w` that belongs to stage `st`: the same dispatch in all three (R61). -/
def runStage (st : Stage) (w : Word) (s : State) : Result :=
  match decodeWord w with
  | .ok i => exec i (s.atStage st)
  | .error r => skipWord r (s.atStage st)

/-- Decode (R79): ID/EX from the word in IF/ID and the registers of `cur`. -/
def State.decodeStage (s : State) : State := s.setIdex (s.decodedLatch s.ifid.ir s.ifid.pc)

/-- The contents Fetch gives IF/ID for a word `w` (R77, R26). -/
def State.fetchedLatch (s : State) (w : Word) : Latch := { Latch.zero with ir := w, pc := s.cur.pc + 4 }

/-- Fetch (R77): the word at `cur.pc`, and `nxt.pc <- cur.pc + 4`; the model fault where that word runs past its region's end. -/
def State.fetchStage (s : State) : State :=
  match memRead s.cfg.regions s.mem s.cur.pc with
  | .ok w => (s.setIfid (s.fetchedLatch w)).writeNxtPc (s.cur.pc + 4)
  | .error f => s.markFaulted f

/-- Go on with the rest of the cycle, unless a stage took the model fault: then the cycle stops where the fault occurred (R73, R156),
with `stage` put back to the value it has between cycles. -/
def andThen (r : Result) (rest : State → Result) : Result :=
  match r with
  | .next s =>
    match s.faulted with
    | none => rest s
    | some _ => .next (s.atStage .writeback)
  | .fault f => .fault f
  | .refused x => .refused x

/-- One cycle (R73): Writeback, MemoryAccess, Execute, Decode, Fetch, then `cur <- nxt` and `cycles <- cycles + 1`. -/
def cycle (s : State) : Result :=
  andThen (runStage .writeback s.memwb.ir s) fun s1 =>
  andThen (runStage .memoryAccess s1.exmem.ir s1) fun s2 =>
  andThen (runStage .execute s2.idex.ir s2) fun s3 =>
  andThen (.next s3.decodeStage.fetchStage) fun s4 =>
  .next (s4.commit.atStage .writeback)

/-- A cycle, where one is enabled: a faulted state has none, and stays stopped for the reason it records (R75). -/
def cycleIfEnabled (s : State) : Result :=
  match s.faulted with
  | none => cycle s
  | some f => .fault f

/-- The state in which the very next cycle fetches the word `w` and executes it: `w` stands at `cur.pc`, and in ID/EX as Decode would
have left it (log entry 4). -/
def State.placeWord (s : State) (w : Word) : State :=
  let placed : State :=
    match memWrite s.cfg.regions s.mem s.cur.pc w with
    | .ok m => s.setMem m
    | .error _ => s
  placed.setIdex (s.decodedLatch w (s.cur.pc + 4))

end Sys2Proof.Machine
end

