-- ==== Sys2Proof/Machine/Step.lean ====
section
/-! DEFINITION. One step of the machine is one cycle of the core (spec/40_pipeline.md R72, R96). -/

namespace Sys2Proof.Machine

/-- `step()` (R96): one cycle; it does not read `running`. -/
def step (s : State) : Host.Outcome State Fault Refusal := cycleIfEnabled s

/-- The instruction with bits `w`, numbered as spec/opcode_table.json numbers them, placed so that the very next step fetches it and
executes it (log entry 4). -/
def State.withFetchWord (s : State) (nbits w : Nat) : State := s.placeWord (tableWord nbits w)

end Sys2Proof.Machine
end

