-- ==== Sys2Proof/Machine/HostOps.lean ====
section
/-! DEFINITION. The operations the core offers its host between cycles (spec/40_pipeline.md R95 to R104), reset with the image load
(spec/70_reset_and_hazards.md R168, R169), and the checks of the configuration (spec/20_memory.md R39). -/

namespace Sys2Proof.Machine

/-! ## The configuration's checks -/

/-- No two regions share a byte (R39): neither begins inside the other. -/
def regionsDisjoint (r q : Region) : Bool := r.last.toNat < q.first.toNat || q.last.toNat < r.first.toNat

/-- No region shares a byte with a later one of the list. -/
def regionsPairwiseDisjoint : List Region → Bool
  | [] => true
  | r :: rest => rest.all (regionsDisjoint r) && regionsPairwiseDisjoint rest

/-- A well-formed table (R39): every region has its bounds in order, no two share a byte, and exactly one is named `text`. -/
def regionsWellFormed (regions : List Region) : Bool :=
  regions.all (fun r => r.first.toNat ≤ r.last.toNat) && regionsPairwiseDisjoint regions &&
    (regions.countP (fun r => r.name = .text) == 1)

/-- The image fits in the text region (R169): `TEXT_BASE + 4 * n - 1 <= text.end`. -/
def imageFits (c : Config) : Bool :=
  match c.regions.find? (fun r => r.name = .text) with
  | some r => r.first.toNat + 4 * c.image.length ≤ r.last.toNat + 1
  | none => false

/-! ## Reset -/

/-- `LoadImage` (R169): each word with `MemWrite`, from an address upward. An image that fits meets no fault. -/
def loadWords (regions : List Region) (m : Memory) (addr : Word) : List Word → Memory
  | [] => m
  | w :: rest =>
    let m' : Memory :=
      match memWrite regions m addr w with
      | .ok written => written
      | .error _ => m
    loadWords regions m' (addr + 4) rest

/-- The state after reset in a configuration (R35, R168): everything zeroed, then the image loaded; the diagnostic log is kept. -/
def State.afterReset (c : Config) (diag : List DiagEvent) : State :=
  (State.zeroed c diag).setMem (loadWords c.regions [] c.textBase c.image)

/-- Reset under the checks of R39 and R169. -/
def resetWith (c : Config) (diag : List DiagEvent) : Result :=
  if !regionsWellFormed c.regions then .refused .illFormedRegions
  else if !imageFits c then .refused .imageTooLarge
  else .next (State.afterReset c diag)

/-- The power-on state in a configuration: the first load of the program is a reset (R170), and the log is empty (R35). -/
def powerOn (c : Config) : Result := resetWith c []

/-! ## The host's moves -/

/-- The operations of R95 that change the state; the reading ones are below. R104: the host has no other move. -/
inductive HostOp where
  | step
  | reset
  | setRunning (v : Bool)
  | setReg (r : RegNum) (v : Word)
  | setHi (v : Word)
  | setLo (v : Word)
  deriving DecidableEq, Repr

/-- `setReg` (R101): both instances. -/
def State.hostSetReg (s : State) (r : RegNum) (v : Word) : State := { s with cur := s.cur.write r v, nxt := s.nxt.write r v }
/-- `setHi` (R101): both instances. -/
def State.hostSetHi (s : State) (v : Word) : State := { s with cur := { s.cur with hi := v }, nxt := { s.nxt with hi := v } }
/-- `setLo` (R101): both instances. -/
def State.hostSetLo (s : State) (v : Word) : State := { s with cur := { s.cur with lo := v }, nxt := { s.nxt with lo := v } }
/-- `setRunning` (R98). -/
def State.hostSetRunning (s : State) (v : Bool) : State := { s with running := v }

/-- One move of the host (R95). A faulted state is final (R37, R168): every move answers the fault it records (log entry 14). -/
def hostMove (op : HostOp) (s : State) : Result :=
  match s.faulted with
  | some f => .fault f
  | none =>
    match op with
    | .step => step s
    | .reset => resetWith s.cfg s.diag
    | .setRunning v => .next (s.hostSetRunning v)
    | .setReg r v => .next (s.hostSetReg r v)
    | .setHi v => .next (s.hostSetHi v)
    | .setLo v => .next (s.hostSetLo v)

/-! ## What the host reads -/

/-- `isRunning()` (R98). -/
def State.isRunning (s : State) : Bool := s.running

/-- What `readState()` returns (R100). -/
structure StateView where
  x       : Vector Word 32
  pc      : Word
  hi      : Word
  lo      : Word
  cycles  : Nat
  retired : Nat
  diag    : List DiagEvent
  deriving DecidableEq, Repr

/-- `readState()` (R100). -/
def State.readState (s : State) : StateView :=
  ⟨s.cur.x, s.cur.pc, s.cur.hi, s.cur.lo, s.cycles, s.retired, s.diag⟩

/-- `readMem(addr)` (R102): `MemRead` without a change of state; a read that would straddle is refused. -/
def State.readMem (s : State) (addr : Word) : Except Refusal Word :=
  match memRead s.cfg.regions s.mem addr with
  | .ok w => .ok w
  | .error _ => .error (.hostReadStraddle addr)

/-- What `readPipeline()` returns (R103). -/
structure PipelineView where
  ifid  : Latch
  idex  : Latch
  exmem : Latch
  memwb : Latch
  deriving DecidableEq, Repr

/-- `readPipeline()` (R103). -/
def State.readPipeline (s : State) : PipelineView := ⟨s.ifid, s.idex, s.exmem, s.memwb⟩

/-! ## Run loops (R99) -/

/-- The loop's guard: go on only while running and not faulted. -/
def State.mayRun (s : State) : Bool := s.running && s.faulted.isNone

/-- `runCycles(n)` (R99): it ends early, in the state it has, when the run flag is clear or the state is faulted. -/
def runCycles : Nat → State → Result
  | 0, s => .next s
  | n + 1, s =>
    if s.mayRun then
      match step s with
      | .next s' => runCycles n s'
      | .fault f => .fault f
      | .refused r => .refused r
    else .next s

/-- `runToCompletion()` (R99) from `s` ends in `t`: repeated steps while the state may run. It is a relation because no core rule
clears the run flag, so it need not end (D18). -/
inductive RunsToCompletion : State → State → Prop where
  | stopped (s : State) : s.mayRun = false → RunsToCompletion s s
  | step (s t u : State) : s.mayRun = true → Sys2Proof.Machine.step s = .next t → RunsToCompletion t u → RunsToCompletion s u

end Sys2Proof.Machine
end

