-- ==== Sys2Proof/Safety.lean ====
section
/-! DEFINITION. What a safe run is, and the invariants of the machine that claims use. -/

namespace Sys2Proof.Machine

/-- A safe state: no model fault has been recorded (R156). -/
abbrev State.Safe (s : State) : Prop := s.faulted = none

/-- Every listed byte of memory lies in a configured region: only those are backed by storage (R38). -/
abbrev Memory.InRegions (regions : List Region) (m : Memory) : Prop :=
  ∀ c ∈ m, regions.any (fun r => regionOwns r c.1) = true

/-- Between cycles the two instances of the architectural state are equal (R22, R23), and the cycle driver is at its first stage; a
cycle that a model fault stopped leaves the instances as they were where it stopped (R73). -/
abbrev State.BetweenCycles (s : State) : Prop := s.stage = .writeback ∧ (s.Safe → s.nxt = s.cur)

/-- The invariant every step and every move of the host keeps: memory is canonical and inside the regions, and the state stands
between cycles. -/
structure State.Inv (s : State) : Prop where
  memoryCanonical : s.mem.wf
  memoryInRegions : s.mem.InRegions s.cfg.regions
  betweenCycles   : s.BetweenCycles

/-- What the stages leave in the pipeline registers (R26, R79, R81, R85): the immediate is the sign-extended field of the word it stands
beside, and the fields no stage has produced are 0. -/
structure State.LatchesProduced (s : State) : Prop where
  ifidRest   : s.ifid = { Latch.zero with ir := s.ifid.ir, pc := s.ifid.pc }
  idexImm    : s.idex.imm = sext32 (immField s.idex.ir)
  idexAlu    : s.idex.aluOutput = 0
  idexLmd    : s.idex.lmd = 0
  exmemImm   : s.exmem.imm = sext32 (immField s.exmem.ir)
  exmemLmd   : s.exmem.lmd = 0
  memwbImm   : s.memwb.imm = sext32 (immField s.memwb.ir)

/-- The pc has advanced by 4 in every cycle since reset (R180). -/
abbrev State.PcCounts (s : State) : Prop := s.cur.pc = s.cfg.textBase + BitVec.ofNat 32 (4 * s.cycles)

/-- `n` steps in a row that all complete without a model fault, from `s` to `t`. -/
inductive SafeRun : Nat → State → State → Prop where
  | done (s : State) : s.Safe → SafeRun 0 s s
  | step (n : Nat) (s t u : State) : Sys2Proof.Machine.step s = .next t → t.Safe → SafeRun n t u → SafeRun (n + 1) s u

end Sys2Proof.Machine
end

