-- ==== Sys2Proof/Certificates/Slice0/Obligations.lean ====
section
/-! DEFINITION. The statements for the provers. `Sys2Proof.Claims` holds the words they share; the meaning of each word is spelled out
in terms of `State`'s fields, not of the operations the model is written with. -/

namespace Sys2Proof.Claims

open Sys2Proof.Machine

/-! ## What an instruction does in each of its three stages -/

/-- In Execute, EX/MEM gets ID/EX's fields with the result `v`, and nothing else changes. -/
def ExecutesTo (i : Instr) (v : State → Word) : Prop :=
  ∀ s : State, s.stage = .execute →
    exec i s = .next { s with exmem := { s.idex with aluOutput := v s, lmd := 0 } }

/-- In MemoryAccess, MEM/WB gets EX/MEM's fields with `lmd` 0, and nothing else changes: no access is made. -/
def PassesMemory (i : Instr) : Prop :=
  ∀ s : State, s.stage = .memoryAccess →
    exec i s = .next { s with memwb := { s.exmem with lmd := 0 } }

/-- In Writeback, register `d` of `nxt` gets `v` and the instruction retires, and nothing else changes. -/
def WritesBack (i : Instr) (d : RegNum) (v : State → Word) : Prop :=
  ∀ s : State, s.stage = .writeback →
    exec i s = .next { s with nxt := { s.nxt with x := s.nxt.x.set d.toNat (v s) d.isLt }, retired := s.retired + 1 }

/-- In Writeback of an instruction without a destination register: it retires, and under `literal`, and only there, the register of
its destination field `d` gets `aluOutput`. -/
def WritesBackNoDest (i : Instr) (d : RegNum) : Prop :=
  ∀ s : State, s.stage = .writeback →
    (s.cfg.wbMode = .skipNoDest → exec i s = .next { s with retired := s.retired + 1 }) ∧
    (s.cfg.wbMode = .literal →
      exec i s = .next { s with
        nxt := { s.nxt with x := s.nxt.x.set d.toNat s.memwb.aluOutput d.isLt }
        retired := s.retired + 1 })

/-- The whole of an instruction that computes `v` from ID/EX and HI/LO and writes it to register `d`. -/
def ComputesInto (i : Instr) (d : RegNum) (v : State → Word) : Prop :=
  ExecutesTo i v ∧ PassesMemory i ∧ WritesBack i d (fun s => s.memwb.aluOutput)

/-- The whole of an instruction that does nothing but retire. -/
def OnlyRetires (i : Instr) (d : RegNum) : Prop :=
  ExecutesTo i (fun _ => 0) ∧ PassesMemory i ∧ WritesBackNoDest i d

/-- In Execute, HI and LO of `nxt` get `hi` and `lo`, `aluOutput` stays 0, and nothing else changes. -/
def ExecutesToHiLo (i : Instr) (hi lo : State → Word) : Prop :=
  ∀ s : State, s.stage = .execute →
    exec i s = .next { s with
      exmem := { s.idex with aluOutput := 0, lmd := 0 }
      nxt := { s.nxt with hi := hi s, lo := lo s } }

/-- In Execute, a divisor of 0 is reported: one event is appended, `aluOutput` stays 0, and nothing else changes; any other divisor gives
HI and LO the values `hi` and `lo`. -/
def Divides (i : Instr) (hi lo : State → Word) : Prop :=
  ∀ s : State, s.stage = .execute →
    (s.idex.b = 0 →
      exec i s = .next { s with
        exmem := { s.idex with aluOutput := 0, lmd := 0 }
        diag := s.diag ++ [⟨s.cycles, .divideByZero, s.idex.ir⟩] }) ∧
    (s.idex.b ≠ 0 →
      exec i s = .next { s with
        exmem := { s.idex with aluOutput := 0, lmd := 0 }
        nxt := { s.nxt with hi := hi s, lo := lo s } })

/-- In MemoryAccess, the word at `EXMEM.aluOutput` under a mask goes to `lmd`, and nothing else changes; where the word runs past its
region's end the fault is recorded instead. -/
def LoadsMasked (i : Instr) (masked : Word → Word) : Prop :=
  ∀ s : State, s.stage = .memoryAccess →
    (∀ w, memRead s.cfg.regions s.mem s.exmem.aluOutput = .ok w →
      exec i s = .next { s with memwb := { s.exmem with lmd := masked w } }) ∧
    (∀ f, memRead s.cfg.regions s.mem s.exmem.aluOutput = .error f →
      exec i s = .next { s with memwb := { s.exmem with lmd := 0 }, faulted := some f })

/-- In MemoryAccess, all of `EXMEM.b` is written at `EXMEM.aluOutput`, and nothing else changes; where the word runs past its region's
end the fault is recorded instead. -/
def StoresWord (i : Instr) : Prop :=
  ∀ s : State, s.stage = .memoryAccess →
    (∀ m, memWrite s.cfg.regions s.mem s.exmem.aluOutput s.exmem.b = .ok m →
      exec i s = .next { s with memwb := { s.exmem with lmd := 0 }, mem := m }) ∧
    (∀ f, memWrite s.cfg.regions s.mem s.exmem.aluOutput s.exmem.b = .error f →
      exec i s = .next { s with memwb := { s.exmem with lmd := 0 }, faulted := some f })

/-! ## Encodings (R56) -/

/-- Every word with op 0 and the function code `funct` is the instruction `i` of its fields rs, rt, rd and sa, whatever they hold. -/
def FunctIs (funct : BitVec 6) (i : RegNum → RegNum → RegNum → ShiftAmount → Instr) : Prop :=
  ∀ w : Word, w.extractLsb' 26 6 = 0 → w.extractLsb' 0 6 = funct →
    decodeWord w = .ok (i (w.extractLsb' 21 5) (w.extractLsb' 16 5) (w.extractLsb' 11 5) (w.extractLsb' 6 5))

/-- Every word with the opcode `op` is the instruction `i` of its fields rs, rt and imm16, whatever they hold. -/
def OpIs (op : BitVec 6) (i : RegNum → RegNum → Imm16 → Instr) : Prop :=
  ∀ w : Word, w.extractLsb' 26 6 = op → decodeWord w = .ok (i (w.extractLsb' 21 5) (w.extractLsb' 16 5) (w.extractLsb' 0 16))

/-! ## Kinds of instruction -/

/-- LB, LH, LW. -/
def isLoad : Instr → Bool
  | .lb .. | .lh .. | .lw .. => true
  | _ => false

/-- SB, SH, SW. -/
def isStore : Instr → Bool
  | .sb .. | .sh .. | .sw .. => true
  | _ => false

/-- MTHI, MTLO, MULT, MULTU, DIV, DIVU: the six that write HI or LO (R84). -/
def writesHiLo : Instr → Bool
  | .mthi .. | .mtlo .. | .mult .. | .multu .. | .div .. | .divu .. => true
  | _ => false

/-- DIV, DIVU. -/
def isDivide : Instr → Bool
  | .div .. | .divu .. => true
  | _ => false

/-- The register a word writes in Writeback, from the tables of R89 and R90. -/
def destination (mode : WbMode) (i : Instr) : Option RegNum :=
  match i with
  | .sll _ _ rd _ | .srl _ _ rd _ | .sra _ _ rd _ | .mfhi _ _ rd _ | .mflo _ _ rd _ | .add _ _ rd _ | .addu _ _ rd _
  | .sub _ _ rd _ | .subu _ _ rd _ | .and _ _ rd _ | .or _ _ rd _ | .xor _ _ rd _ | .nor _ _ rd _ | .slt _ _ rd _ => some rd
  | .addi _ rt _ | .addiu _ rt _ | .slti _ rt _ | .andi _ rt _ | .ori _ rt _ | .xori _ rt _ | .lui _ rt _
  | .lb _ rt _ | .lh _ rt _ | .lw _ rt _ => some rt
  | .syscall _ => none
  | .jr _ _ rd _ | .jalr _ _ rd _ | .mthi _ _ rd _ | .mtlo _ _ rd _ | .mult _ _ rd _ | .multu _ _ rd _ | .div _ _ rd _
  | .divu _ _ rd _ => if mode = .literal then some rd else none
  | .bltz _ _ => if mode = .literal then some 0 else none
  | .bgez _ _ => if mode = .literal then some 1 else none
  | .j target | .jal target => if mode = .literal then some (target.extractLsb' 16 5) else none
  | .regimmOther _ rt _ | .beq _ rt _ | .bne _ rt _ | .blez _ rt _ | .bgtz _ rt _ | .sb _ rt _ | .sh _ rt _ | .sw _ rt _ =>
    if mode = .literal then some rt else none

/-- The value a word writes in Writeback: `lmd` for a load, else `aluOutput` (R89, R90). -/
def writtenValue (i : Instr) (l : Latch) : Word := if isLoad i then l.lmd else l.aluOutput

/-- The words that retire (R92): every instruction of the table but SYSCALL. -/
def retires (w : Word) : Bool :=
  match decodeWord w with
  | .ok (.syscall _) => false
  | .ok _ => true
  | .error _ => false

/-- The word in a latch is a load or a store whose four bytes run past the end of their region. -/
def accessStraddles (s : State) : Prop :=
  (∃ i, decodeWord s.exmem.ir = .ok i ∧ (isLoad i = true ∨ isStore i = true)) ∧
    ∃ r, owningRegion s.cfg.regions s.exmem.aluOutput = some r ∧ r.last.toNat < s.exmem.aluOutput.toNat + 3

/-- The word at the pc runs past the end of its region. -/
def fetchStraddles (s : State) : Prop :=
  ∃ r, owningRegion s.cfg.regions s.cur.pc = some r ∧ r.last.toNat < s.cur.pc.toNat + 3

/-- The event the word in a latch raises in Execute, if any (R153, R154). -/
def diagnosticOf (cycles : Nat) (l : Latch) : List DiagEvent :=
  match decodeWord l.ir with
  | .error (.unhandledFunction _) => [⟨cycles, .unhandledFunction, l.ir⟩]
  | .error _ => []
  | .ok i => if isDivide i = true ∧ l.b = 0 then [⟨cycles, .divideByZero, l.ir⟩] else []

/-- The result of an instruction that computes one, from its operands and HI/LO: the register it goes to and the value. -/
def computed (c : Config) (i : Instr) (a b hi lo : Word) : Option (RegNum × Word) :=
  match i with
  | .sll _ _ rd sa => some (rd, b <<< sa.toNat)
  | .srl _ _ rd sa => some (rd, b >>> sa.toNat)
  | .sra _ _ rd sa => some (rd, b.sshiftRight sa.toNat)
  | .mfhi _ _ rd _ => some (rd, hi)
  | .mflo _ _ rd _ => some (rd, lo)
  | .add _ _ rd _ | .addu _ _ rd _ => some (rd, a + b)
  | .sub _ _ rd _ | .subu _ _ rd _ => some (rd, a - b)
  | .and _ _ rd _ => some (rd, a &&& b)
  | .or _ _ rd _ => some (rd, a ||| b)
  | .xor _ _ rd _ => some (rd, a ^^^ b)
  | .nor _ _ rd _ => some (rd, ~~~(a ||| b))
  | .slt _ _ rd _ => some (rd, if a.toNat < b.toNat then 1 else 0)
  | .addi _ rt imm | .addiu _ rt imm => some (rt, a + imm.signExtend 32)
  | .slti _ rt imm =>
    match c.sltiCmp with
    | .unsigned => some (rt, if a.toNat < (imm.signExtend 32).toNat then 1 else 0)
    | .signed => some (rt, if a.toInt < imm.toInt then 1 else 0)
  | .andi _ rt imm => some (rt, a &&& imm.signExtend 32)
  | .ori _ rt imm => some (rt, a ||| imm.signExtend 32)
  | .xori _ rt imm => some (rt, a ^^^ imm.signExtend 32)
  | .lui _ rt imm => some (rt, imm.setWidth 32 <<< 16)
  | _ => none

/-- The bits of a loaded word that a load keeps (R133 to R135). -/
def loaded (i : Instr) (w : Word) : Option (RegNum × Word) :=
  match i with
  | .lb _ rt _ => some (rt, (w.setWidth 8).setWidth 32)
  | .lh _ rt _ => some (rt, (w.setWidth 16).setWidth 32)
  | .lw _ rt _ => some (rt, w)
  | _ => none

/-- The bits of a word that its instruction uses: the opcode; the function code where the opcode is 0; the fields that an operand, a shift
amount or an immediate comes from; and the field of the register that Writeback writes, which under `literal` also the instructions without
a destination register have (R64, R79, R89, R90). -/
def usedBits (mode : WbMode) (i : Instr) : Word :=
  match i with
  | .sll .. | .srl .. | .sra .. | .lui .. => 0xFC1FFFFF#32
  | .add .. | .addu .. | .sub .. | .subu .. | .and .. | .or .. | .xor .. | .nor .. | .slt .. => 0xFFFFF83F#32
  | .mfhi .. | .mflo .. => 0xFC00F83F#32
  | .mthi .. | .mtlo .. => if mode = .literal then 0xFFE0F83F#32 else 0xFFE0003F#32
  | .mult .. | .multu .. | .div .. | .divu .. => if mode = .literal then 0xFFFFF83F#32 else 0xFFFF003F#32
  | .jr .. | .jalr .. => if mode = .literal then 0xFC00F83F#32 else 0xFC00003F#32
  | .syscall .. => 0xFC00003F#32
  | .bltz .. | .bgez .. | .regimmOther .. | .j .. | .jal .. | .beq .. | .bne .. | .blez .. | .bgtz .. =>
    if mode = .literal then 0xFC1F0000#32 else 0xFC000000#32
  | .addi .. | .addiu .. | .slti .. | .andi .. | .ori .. | .xori .. | .lb .. | .lh .. | .lw .. | .sb .. | .sh .. | .sw .. =>
    0xFFFFFFFF#32

/-- Two latches that may differ in the word they hold and in the values that Decode formed from it, and in nothing a stage produced. -/
def SameWork (l l' : Latch) : Prop := l'.pc = l.pc ∧ l'.aluOutput = l.aluOutput ∧ l'.lmd = l.lmd

/-- Two states that agree in everything but the words in the latches, the values Decode formed from them, and the words the events of the
log name. -/
def SameEffects (t t' : State) : Prop :=
  t'.cur = t.cur ∧ t'.nxt = t.nxt ∧ t'.mem = t.mem ∧ t'.cycles = t.cycles ∧ t'.retired = t.retired ∧ t'.running = t.running ∧
  t'.faulted = t.faulted ∧ t'.cfg = t.cfg ∧ t'.stage = t.stage ∧
  t'.diag.map (fun e => (e.cycle, e.kind)) = t.diag.map (fun e => (e.cycle, e.kind)) ∧
  SameWork t.ifid t'.ifid ∧ SameWork t.idex t'.idex ∧ SameWork t.exmem t'.exmem ∧ SameWork t.memwb t'.memwb

/-- HI and LO after the Execute of an instruction with the operands `a` and `b`, from HI and LO before it (R109 to R115); every other
instruction keeps them, and so does a zero divisor. -/
def hiLoAfter (c : Config) (i : Instr) (a b hi lo : Word) : Word × Word :=
  match i with
  | .mthi .. => (a, lo)
  | .mtlo .. => (hi, a)
  | .mult .. | .multu .. => (BitVec.ofNat 32 (a.toNat * b.toNat / 2 ^ 32), BitVec.ofNat 32 (a.toNat * b.toNat % 2 ^ 32))
  | .divu .. => if b = 0 then (hi, lo) else (a % b, a / b)
  | .div .. =>
    if b = 0 then (hi, lo)
    else
      match c.divCmp with
      | .unsigned => (a % b, a / b)
      | .signed => (BitVec.ofInt 32 (a.toInt.tmod b.toInt), BitVec.ofInt 32 (a.toInt.tdiv b.toInt))
  | _ => (hi, lo)

/-- Five steps in a row, the last to a state that has not faulted. -/
def FiveCycles (s s1 s2 s3 s4 s5 : State) : Prop :=
  step s = .next s1 ∧ step s1 = .next s2 ∧ step s2 = .next s3 ∧ step s3 = .next s4 ∧ step s4 = .next s5 ∧ s5.faulted = none

end Sys2Proof.Claims

open Sys2Proof Sys2Proof.Machine Sys2Proof.Claims

/-! ## Encoding -/

/-- Words written out from the spec's encodings (R56, R70; the words of 95_test_vectors.md) decode to what they stand for. -/
def Obligations.SpecWordsDecode : Prop :=
  decodeWord 0x00021FC0#32 = .ok (.sll 0 2 3 31) ∧
  decodeWord 0x00221820#32 = .ok (.add 1 2 3 0) ∧
  decodeWord 0x00001810#32 = .ok (.mfhi 0 0 3 0) ∧
  decodeWord 0x0022001A#32 = .ok (.div 1 2 0 0) ∧
  decodeWord 0x2023FFFF#32 = .ok (.addi 1 3 0xFFFF#16) ∧
  decodeWord 0x8C23FFFC#32 = .ok (.lw 1 3 0xFFFC#16) ∧
  decodeWord 0xA0220001#32 = .ok (.sb 1 2 1#16) ∧
  decodeWord 0x04300004#32 = .ok (.regimmOther 1 16 4#16) ∧
  decodeWord 0x08100000#32 = .ok (.j 0x0100000#26) ∧
  decodeWord 0x0000000C#32 = .ok (.syscall 0) ∧
  decodeWord 0x0022182B#32 = .error (.unhandledFunction 0x2B#6) ∧
  decodeWord 0x2C230005#32 = .error (.unrecognizedOpcode 0x0B#6)

/-- Encoding then decoding gives the instruction back, every operand at every value its field admits (which row names which rt of opcode
0x01, and the target and code fields: log entry 20). -/
def Obligations.DecodeOfEncode : Prop :=
  ∀ i : Instr, i.wellFormed = true → decodeWord (encode i) = .ok i

/-- Decoding then encoding gives the word back: no bit of a word is dropped, also of a field the instruction ignores, and every decoded
instruction is well-formed (log entry 20). -/
def Obligations.EncodeOfDecode : Prop :=
  ∀ (w : Word) (i : Instr), decodeWord w = .ok i → encode i = w ∧ i.wellFormed = true

/-- R62 and R63: the 23 function codes under op 0 and the 20 other opcodes, each with its instruction; opcode 0x01 is BLTZ for rt 0, BGEZ
for rt 1 and recognized for any other rt; every other function code is unhandled and every other opcode unrecognized. -/
def Obligations.DecodeFollowsTheMaps : Prop :=
  (FunctIs 0x00 .sll ∧ FunctIs 0x02 .srl ∧ FunctIs 0x03 .sra ∧ FunctIs 0x08 .jr ∧ FunctIs 0x09 .jalr ∧ FunctIs 0x10 .mfhi ∧
    FunctIs 0x11 .mthi ∧ FunctIs 0x12 .mflo ∧ FunctIs 0x13 .mtlo ∧ FunctIs 0x18 .mult ∧ FunctIs 0x19 .multu ∧ FunctIs 0x1A .div ∧
    FunctIs 0x1B .divu ∧ FunctIs 0x20 .add ∧ FunctIs 0x21 .addu ∧ FunctIs 0x22 .sub ∧ FunctIs 0x23 .subu ∧ FunctIs 0x24 .and ∧
    FunctIs 0x25 .or ∧ FunctIs 0x26 .xor ∧ FunctIs 0x27 .nor ∧ FunctIs 0x2A .slt ∧
    ∀ w : Word, w.extractLsb' 26 6 = 0 → w.extractLsb' 0 6 = 0x0C → ∃ code, decodeWord w = .ok (.syscall code)) ∧
  (OpIs 0x04 .beq ∧ OpIs 0x05 .bne ∧ OpIs 0x06 .blez ∧ OpIs 0x07 .bgtz ∧ OpIs 0x08 .addi ∧ OpIs 0x09 .addiu ∧ OpIs 0x0A .slti ∧
    OpIs 0x0C .andi ∧ OpIs 0x0D .ori ∧ OpIs 0x0E .xori ∧ OpIs 0x0F .lui ∧ OpIs 0x20 .lb ∧ OpIs 0x21 .lh ∧ OpIs 0x23 .lw ∧
    OpIs 0x28 .sb ∧ OpIs 0x29 .sh ∧ OpIs 0x2B .sw) ∧
  (∀ w : Word, w.extractLsb' 26 6 = 0x01 →
    (w.extractLsb' 16 5 = 0 → decodeWord w = .ok (.bltz (w.extractLsb' 21 5) (w.extractLsb' 0 16))) ∧
    (w.extractLsb' 16 5 = 1 → decodeWord w = .ok (.bgez (w.extractLsb' 21 5) (w.extractLsb' 0 16))) ∧
    (w.extractLsb' 16 5 ≠ 0 → w.extractLsb' 16 5 ≠ 1 →
      decodeWord w = .ok (.regimmOther (w.extractLsb' 21 5) (w.extractLsb' 16 5) (w.extractLsb' 0 16)))) ∧
  (∀ w : Word, (w.extractLsb' 26 6 = 0x02 → ∃ target, decodeWord w = .ok (.j target)) ∧
    (w.extractLsb' 26 6 = 0x03 → ∃ target, decodeWord w = .ok (.jal target))) ∧
  (∀ w : Word, w.extractLsb' 26 6 = 0 →
    w.extractLsb' 0 6 ∉ [0x00#6, 0x02#6, 0x03#6, 0x08#6, 0x09#6, 0x0C#6, 0x10#6, 0x11#6, 0x12#6, 0x13#6, 0x18#6, 0x19#6, 0x1A#6, 0x1B#6,
      0x20#6, 0x21#6, 0x22#6, 0x23#6, 0x24#6, 0x25#6, 0x26#6, 0x27#6, 0x2A#6] →
    decodeWord w = .error (.unhandledFunction (w.extractLsb' 0 6))) ∧
  (∀ w : Word, w.extractLsb' 26 6 ∉ [0x00#6, 0x01#6, 0x02#6, 0x03#6, 0x04#6, 0x05#6, 0x06#6, 0x07#6, 0x08#6, 0x09#6, 0x0A#6, 0x0C#6,
      0x0D#6, 0x0E#6, 0x0F#6, 0x20#6, 0x21#6, 0x23#6, 0x28#6, 0x29#6, 0x2B#6] →
    decodeWord w = .error (.unrecognizedOpcode (w.extractLsb' 26 6)))

/-- Every word decodes to the instruction in whose row of spec/opcode_table.json it falls: it has the row's fixed bits (30_encoding.md
section 3). -/
def Obligations.DecodedWordsMatchTheirRow : Prop :=
  ∀ (w : Word) (i : Instr), decodeWord w = .ok i → (tableRow i).matches w = true

/-- R57: the bytes of an instruction, the first the least significant, decode to it and leave the rest; fewer than four bytes are no
instruction. -/
def Obligations.BytesDecodeLittleEndian : Prop :=
  (∀ (b0 b1 b2 b3 : Byte) (rest : List Byte), ∃ w : Word,
    (w.extractLsb' 0 8 = b0 ∧ w.extractLsb' 8 8 = b1 ∧ w.extractLsb' 16 8 = b2 ∧ w.extractLsb' 24 8 = b3) ∧
    decode (b0 :: b1 :: b2 :: b3 :: rest) = (decodeWord w).map (fun i => (i, rest))) ∧
  (∀ bytes : List Byte, bytes.length < 4 → decode bytes = .error .truncated) ∧
  (∀ (i : Instr) (rest : List Byte), i.wellFormed = true → decode (encodeBytes i ++ rest) = .ok (i, rest))

/-- R64, for every instruction: the opcode, and under opcode 0 the function code, decide alone whether a word is recognized and which row
it falls in (under opcode 0x01, which of its three); and two words that agree in the bits their instruction uses, standing in IF/ID of
otherwise equal states, give equal registers, HI, LO, pc, memory, counters, faults, results and events after any number of steps, and from
the fourth on equal latches. Which field Writeback uses without a destination register is the spec's decision D4 (log entry 8). -/
def Obligations.UnusedFieldsChangeNothing : Prop :=
  (∀ (w w' : Word) (i : Instr), decodeWord w = .ok i → w'.extractLsb' 26 6 = w.extractLsb' 26 6 →
    (w.extractLsb' 26 6 = 0 → w'.extractLsb' 0 6 = w.extractLsb' 0 6) →
    ∃ i', decodeWord w' = .ok i' ∧ (w.extractLsb' 26 6 ≠ 1 → tableRow i' = tableRow i)) ∧
  (∀ (n : Nat) (s t : State) (w w' : Word) (i : Instr), decodeWord w = .ok i →
    w' &&& usedBits s.cfg.wbMode i = w &&& usedBits s.cfg.wbMode i →
    Host.Core.run core n { s with ifid := { s.ifid with ir := w } } = .next t →
    ∃ t', Host.Core.run core n { s with ifid := { s.ifid with ir := w' } } = .next t' ∧ SameEffects t t' ∧
      (4 ≤ n → t'.ifid = t.ifid ∧ t'.idex = t.idex ∧ t'.exmem = t.exmem ∧ t'.memwb = t.memwb))

/-! ## Results of the instructions, stage by stage -/

/-- R105 to R107: the encodings of SLL, SRL and SRA, each of which shifts `b` by `sa`, makes no access, writes rd and retires. -/
def Obligations.ShiftsComputeIntoRd : Prop :=
  (FunctIs 0x00 .sll ∧ FunctIs 0x02 .srl ∧ FunctIs 0x03 .sra) ∧
  ∀ (rs rt rd : RegNum) (sa : ShiftAmount),
    ComputesInto (.sll rs rt rd sa) rd (fun s => s.idex.b <<< sa.toNat) ∧
    ComputesInto (.srl rs rt rd sa) rd (fun s => s.idex.b >>> sa.toNat) ∧
    ComputesInto (.sra rs rt rd sa) rd (fun s => s.idex.b.sshiftRight sa.toNat)

/-- R117 to R124: the register-register instructions but ADD, with their encodings, and SLTU's function code, which is unhandled. -/
def Obligations.RegisterAluComputesIntoRd : Prop :=
  (FunctIs 0x21 .addu ∧ FunctIs 0x22 .sub ∧ FunctIs 0x23 .subu ∧ FunctIs 0x24 .and ∧ FunctIs 0x25 .or ∧ FunctIs 0x26 .xor ∧
    FunctIs 0x27 .nor ∧ FunctIs 0x2A .slt ∧
    ∀ w : Word, w.extractLsb' 26 6 = 0 → w.extractLsb' 0 6 = 0x2B → decodeWord w = .error (.unhandledFunction 0x2B)) ∧
  ∀ (rs rt rd : RegNum) (sa : ShiftAmount),
    ComputesInto (.addu rs rt rd sa) rd (fun s => s.idex.a + s.idex.b) ∧
    ComputesInto (.sub rs rt rd sa) rd (fun s => s.idex.a - s.idex.b) ∧
    ComputesInto (.subu rs rt rd sa) rd (fun s => s.idex.a - s.idex.b) ∧
    ComputesInto (.and rs rt rd sa) rd (fun s => s.idex.a &&& s.idex.b) ∧
    ComputesInto (.or rs rt rd sa) rd (fun s => s.idex.a ||| s.idex.b) ∧
    ComputesInto (.xor rs rt rd sa) rd (fun s => s.idex.a ^^^ s.idex.b) ∧
    ComputesInto (.nor rs rt rd sa) rd (fun s => ~~~(s.idex.a ||| s.idex.b)) ∧
    ComputesInto (.slt rs rt rd sa) rd (fun s => if s.idex.a < s.idex.b then 1 else 0)

/-- R126 and R128 to R130: ADDIU and the logical immediates, with their encodings; all of them use `IDEX.imm`, which Decode sign-extends. -/
def Obligations.ImmediateAluComputesIntoRt : Prop :=
  (OpIs 0x09 .addiu ∧ OpIs 0x0C .andi ∧ OpIs 0x0D .ori ∧ OpIs 0x0E .xori) ∧
  (∀ s t : State, step s = .next t → t.faulted = none → t.idex.imm = (s.ifid.ir.extractLsb' 0 16).signExtend 32) ∧
  ∀ (rs rt : RegNum) (imm : Imm16),
    ComputesInto (.addiu rs rt imm) rt (fun s => s.idex.a + s.idex.imm) ∧
    ComputesInto (.andi rs rt imm) rt (fun s => s.idex.a &&& s.idex.imm) ∧
    ComputesInto (.ori rs rt imm) rt (fun s => s.idex.a ||| s.idex.imm) ∧
    ComputesInto (.xori rs rt imm) rt (fun s => s.idex.a ^^^ s.idex.imm)

/-- ADD, ADDI and LUI (43_alu_reg.md, 44_alu_imm.md), whose rules carry inferences the spec marks as its own: the sums wrap and nothing is
reported; on an immediate that Decode sign-extended, ADDI's second extension changes nothing, and LUI keeps exactly the 16 bits. -/
def Obligations.AddAddiLuiComputeSilently : Prop :=
  (∀ (rs rt rd : RegNum) (sa : ShiftAmount), ComputesInto (.add rs rt rd sa) rd (fun s => s.idex.a + s.idex.b)) ∧
  (∀ (rs rt : RegNum) (imm : Imm16),
    PassesMemory (.addi rs rt imm) ∧ WritesBack (.addi rs rt imm) rt (fun s => s.memwb.aluOutput) ∧
    PassesMemory (.lui rs rt imm) ∧ WritesBack (.lui rs rt imm) rt (fun s => s.memwb.aluOutput) ∧
    ExecutesTo (.addi rs rt imm)
      (fun s => (if s.idex.imm.getLsbD 15 = true then s.idex.imm ||| 0xFFFF0000#32 else s.idex.imm) + s.idex.a) ∧
    ExecutesTo (.lui rs rt imm) (fun s => s.idex.imm <<< 16) ∧
    ∀ (s : State) (v : Imm16), s.stage = .execute → s.idex.imm = v.signExtend 32 →
      exec (.addi rs rt imm) s = .next { s with exmem := { s.idex with aluOutput := s.idex.a + v.signExtend 32, lmd := 0 } } ∧
      exec (.lui rs rt imm) s = .next { s with exmem := { s.idex with aluOutput := v.setWidth 32 <<< 16, lmd := 0 } })

/-- SLTI under both values of `SLTI_CMP` (44_alu_imm.md; the spec's decision D6, log entry 9). -/
def Obligations.SltiUnderBothReadings : Prop :=
  ∀ (rs rt : RegNum) (imm : Imm16),
    PassesMemory (.slti rs rt imm) ∧ WritesBack (.slti rs rt imm) rt (fun s => s.memwb.aluOutput) ∧
    ∀ s : State, s.stage = .execute →
      (s.cfg.sltiCmp = .unsigned →
        exec (.slti rs rt imm) s = .next { s with
          exmem := { s.idex with aluOutput := if s.idex.a < s.idex.imm then 1 else 0, lmd := 0 } }) ∧
      (s.cfg.sltiCmp = .signed →
        exec (.slti rs rt imm) s = .next { s with
          exmem := { s.idex with aluOutput := if s.idex.a.slt s.idex.imm then 1 else 0, lmd := 0 } })

/-- MFHI and MFLO (42_hilo.md) give rd the HI or LO of `cur` at the cycle they are in Execute. -/
def Obligations.MoveFromHiLoComputesIntoRd : Prop :=
  ∀ (rs rt rd : RegNum) (sa : ShiftAmount),
    ComputesInto (.mfhi rs rt rd sa) rd (fun s => s.cur.hi) ∧
    ComputesInto (.mflo rs rt rd sa) rd (fun s => s.cur.lo)

/-- MTHI and MTLO (42_hilo.md) write `a` to HI or LO of `nxt`, leave the other, and have no destination register (the spec's decision D4,
log entry 8). -/
def Obligations.MoveToHiLoWritesHiLo : Prop :=
  ∀ (rs rt rd : RegNum) (sa : ShiftAmount),
    (ExecutesToHiLo (.mthi rs rt rd sa) (fun s => s.idex.a) (fun s => s.nxt.lo) ∧
      PassesMemory (.mthi rs rt rd sa) ∧ WritesBackNoDest (.mthi rs rt rd sa) rd) ∧
    (ExecutesToHiLo (.mtlo rs rt rd sa) (fun s => s.nxt.hi) (fun s => s.idex.a) ∧
      PassesMemory (.mtlo rs rt rd sa) ∧ WritesBackNoDest (.mtlo rs rt rd sa) rd)

/-- MULT and MULTU (42_hilo.md): HI and LO get the quotient and the remainder by 2^32 of the exact product of the unsigned operands; no
destination register (the spec's decision D4, log entry 8). -/
def Obligations.MultiplyIsUnsigned : Prop :=
  ∀ (rs rt rd : RegNum) (sa : ShiftAmount),
    (ExecutesToHiLo (.mult rs rt rd sa) (fun s => BitVec.ofNat 32 (s.idex.a.toNat * s.idex.b.toNat / 2 ^ 32))
        (fun s => BitVec.ofNat 32 (s.idex.a.toNat * s.idex.b.toNat % 2 ^ 32)) ∧
      PassesMemory (.mult rs rt rd sa) ∧ WritesBackNoDest (.mult rs rt rd sa) rd) ∧
    (ExecutesToHiLo (.multu rs rt rd sa) (fun s => BitVec.ofNat 32 (s.idex.a.toNat * s.idex.b.toNat / 2 ^ 32))
        (fun s => BitVec.ofNat 32 (s.idex.a.toNat * s.idex.b.toNat % 2 ^ 32)) ∧
      PassesMemory (.multu rs rt rd sa) ∧ WritesBackNoDest (.multu rs rt rd sa) rd)

/-- DIVU (42_hilo.md): quotient to LO and remainder to HI, or the report of a zero divisor with HI and LO kept (the spec's decisions D4 and
D10, log entries 8 and 11). -/
def Obligations.DivideUnsigned : Prop :=
  ∀ (rs rt rd : RegNum) (sa : ShiftAmount),
    Divides (.divu rs rt rd sa) (fun s => s.idex.a % s.idex.b) (fun s => s.idex.a / s.idex.b) ∧
    PassesMemory (.divu rs rt rd sa) ∧ WritesBackNoDest (.divu rs rt rd sa) rd

/-- DIV under both values of `DIV_CMP` (42_hilo.md; the spec's decisions D4, D7 and D10, log entries 8, 10 and 11): a zero divisor is
reported under both; the signed quotient is rounded toward zero and reduced modulo 2^32, so the most negative number divided by -1 gives
itself and remainder 0. -/
def Obligations.DivideUnderBothReadings : Prop :=
  ∀ (rs rt rd : RegNum) (sa : ShiftAmount),
    PassesMemory (.div rs rt rd sa) ∧ WritesBackNoDest (.div rs rt rd sa) rd ∧
    ∀ s : State, s.stage = .execute →
      (s.idex.b = 0 →
        exec (.div rs rt rd sa) s = .next { s with
          exmem := { s.idex with aluOutput := 0, lmd := 0 }
          diag := s.diag ++ [⟨s.cycles, .divideByZero, s.idex.ir⟩] }) ∧
      (s.idex.b ≠ 0 → s.cfg.divCmp = .unsigned →
        exec (.div rs rt rd sa) s = .next { s with
          exmem := { s.idex with aluOutput := 0, lmd := 0 }
          nxt := { s.nxt with hi := s.idex.a % s.idex.b, lo := s.idex.a / s.idex.b } }) ∧
      (s.idex.b ≠ 0 → s.cfg.divCmp = .signed →
        exec (.div rs rt rd sa) s = .next { s with
          exmem := { s.idex with aluOutput := 0, lmd := 0 }
          nxt := { s.nxt with
            hi := BitVec.ofInt 32 (s.idex.a.toInt.tmod s.idex.b.toInt)
            lo := BitVec.ofInt 32 (s.idex.a.toInt.tdiv s.idex.b.toInt) } }) ∧
      (s.idex.a = 0x80000000#32 → s.idex.b = 0xFFFFFFFF#32 → s.cfg.divCmp = .signed →
        exec (.div rs rt rd sa) s = .next { s with
          exmem := { s.idex with aluOutput := 0, lmd := 0 }
          nxt := { s.nxt with hi := 0, lo := 0x80000000#32 } })

/-- LB, LH and LW (45_load_store.md): the address is `a + imm`, the low 8, 16 or 32 bits of the word there go to rt without sign extension,
and a word that runs past its region's end is the model fault (the spec's decision D3, log entry 5). -/
def Obligations.LoadsKeepLowBits : Prop :=
  ∀ (rs rt : RegNum) (imm : Imm16),
    (ExecutesTo (.lb rs rt imm) (fun s => s.idex.a + s.idex.imm) ∧
      LoadsMasked (.lb rs rt imm) (fun w => (w.setWidth 8).setWidth 32) ∧ WritesBack (.lb rs rt imm) rt (fun s => s.memwb.lmd)) ∧
    (ExecutesTo (.lh rs rt imm) (fun s => s.idex.a + s.idex.imm) ∧
      LoadsMasked (.lh rs rt imm) (fun w => (w.setWidth 16).setWidth 32) ∧ WritesBack (.lh rs rt imm) rt (fun s => s.memwb.lmd)) ∧
    (ExecutesTo (.lw rs rt imm) (fun s => s.idex.a + s.idex.imm) ∧
      LoadsMasked (.lw rs rt imm) (fun w => w) ∧ WritesBack (.lw rs rt imm) rt (fun s => s.memwb.lmd))

/-- SB, SH and SW (45_load_store.md): the address is `a + imm`, and all three write the whole word `b` there; no destination register (the
spec's decision D4, log entry 8); a word that runs past its region's end is the model fault (D3, log entry 5). -/
def Obligations.StoresWriteTheWholeWord : Prop :=
  ∀ (rs rt : RegNum) (imm : Imm16),
    (ExecutesTo (.sb rs rt imm) (fun s => s.idex.a + s.idex.imm) ∧ StoresWord (.sb rs rt imm) ∧ WritesBackNoDest (.sb rs rt imm) rt) ∧
    (ExecutesTo (.sh rs rt imm) (fun s => s.idex.a + s.idex.imm) ∧ StoresWord (.sh rs rt imm) ∧ WritesBackNoDest (.sh rs rt imm) rt) ∧
    (ExecutesTo (.sw rs rt imm) (fun s => s.idex.a + s.idex.imm) ∧ StoresWord (.sw rs rt imm) ∧ WritesBackNoDest (.sw rs rt imm) rt)

/-- The branches and jumps (46_control.md) transfer no control, write no link and only retire; under `literal` the register of their
destination field gets `aluOutput` (the spec's decision D4, log entry 8). -/
def Obligations.ControlWordsOnlyRetire : Prop :=
  (∀ (rs rt rd : RegNum) (sa : ShiftAmount), OnlyRetires (.jr rs rt rd sa) rd ∧ OnlyRetires (.jalr rs rt rd sa) rd) ∧
  (∀ (rs : RegNum) (imm : Imm16), OnlyRetires (.bltz rs imm) 0 ∧ OnlyRetires (.bgez rs imm) 1) ∧
  (∀ (rs rt : RegNum) (imm : Imm16), OnlyRetires (.regimmOther rs rt imm) rt ∧ OnlyRetires (.beq rs rt imm) rt ∧
    OnlyRetires (.bne rs rt imm) rt ∧ OnlyRetires (.blez rs rt imm) rt ∧ OnlyRetires (.bgtz rs rt imm) rt) ∧
  (∀ target : BitVec 26, OnlyRetires (.j target) (target.extractLsb' 16 5) ∧ OnlyRetires (.jal target) (target.extractLsb' 16 5))

/-- Any two words of opcode 0x01 behave the same, whatever their rt fields (30_encoding.md section 4): each is recognized and only retires;
Execute, MemoryAccess and, under `skipNoDest`, Writeback are equal; under `literal` each writes `aluOutput` to the register of its own rt
field, and the results differ in those two registers alone (the spec's decision D4, log entry 8). -/
def Obligations.RegimmIgnoresRt : Prop :=
  ∀ w w' : Word, w.extractLsb' 26 6 = 0x01 → w'.extractLsb' 26 6 = 0x01 →
    ∃ i i' : Instr, decodeWord w = .ok i ∧ decodeWord w' = .ok i' ∧
      OnlyRetires i (w.extractLsb' 16 5) ∧ OnlyRetires i' (w'.extractLsb' 16 5) ∧
      (∀ s : State, s.stage = .execute ∨ s.stage = .memoryAccess ∨ s.cfg.wbMode = .skipNoDest → exec i s = exec i' s) ∧
      (∀ s : State, s.stage = .writeback → s.cfg.wbMode = .literal →
        ∃ t t', exec i s = .next t ∧ exec i' s = .next t' ∧
          t.nxt.read (w.extractLsb' 16 5) = s.memwb.aluOutput ∧ t'.nxt.read (w'.extractLsb' 16 5) = s.memwb.aluOutput ∧
          (∀ r, r ≠ w.extractLsb' 16 5 → r ≠ w'.extractLsb' 16 5 → t.nxt.read r = t'.nxt.read r) ∧
          t' = { t with nxt := { t.nxt with x := t'.nxt.x } })

/-- SYSCALL updates nothing and does not retire, under both values of `WB_MODE`, and leaves the run flag alone (46_control.md; the spec's
decision D9, log entry 12). -/
def Obligations.SyscallUpdatesNothing : Prop :=
  ∀ code : BitVec 20,
    ExecutesTo (.syscall code) (fun _ => 0) ∧ PassesMemory (.syscall code) ∧
    ∀ s : State, s.stage = .writeback → exec (.syscall code) s = .next s

/-! ## Frames -/

/-- What every instruction leaves unchanged in Execute (R84, R81): every register and the pc; HI and LO but for the six that write them;
memory; the latches but for EX/MEM; the counters; and the log but for DIV and DIVU with a zero divisor. -/
def Obligations.ExecuteFrame : Prop :=
  ∀ (i : Instr) (s t : State), s.stage = .execute → exec i s = .next t →
    (∀ r, t.nxt.read r = s.nxt.read r) ∧ t.nxt.pc = s.nxt.pc ∧ t.cur = s.cur ∧
    (writesHiLo i = false → t.nxt.hi = s.nxt.hi ∧ t.nxt.lo = s.nxt.lo) ∧
    (∀ a, t.mem.readByte a = s.mem.readByte a) ∧
    t.ifid = s.ifid ∧ t.idex = s.idex ∧ t.memwb = s.memwb ∧
    t.exmem = { s.idex with aluOutput := t.exmem.aluOutput, lmd := 0 } ∧
    (¬ (isDivide i = true ∧ s.idex.b = 0) → t.diag = s.diag) ∧
    t.cycles = s.cycles ∧ t.retired = s.retired ∧ t.running = s.running ∧ t.faulted = s.faulted ∧ t.cfg = s.cfg ∧ t.stage = s.stage

/-- What every instruction leaves unchanged in MemoryAccess (R85, R86): every register, the pc, HI and LO; every byte of memory but, for a
store, the four at the address Execute left in `EXMEM.aluOutput`; the latches but for MEM/WB; and the fault record but for a load or store
that straddles. -/
def Obligations.MemoryAccessFrame : Prop :=
  ∀ (i : Instr) (s t : State), s.stage = .memoryAccess → exec i s = .next t →
    t.nxt = s.nxt ∧ t.cur = s.cur ∧
    (∀ addr : Word, s.exmem.aluOutput = addr →
      ∀ a : Nat, isStore i = false ∨ a < addr.toNat ∨ addr.toNat + 3 < a → t.mem.readByte a = s.mem.readByte a) ∧
    t.ifid = s.ifid ∧ t.idex = s.idex ∧ t.exmem = s.exmem ∧
    t.memwb = { s.exmem with lmd := t.memwb.lmd } ∧ (isLoad i = false → t.memwb.lmd = 0) ∧
    (isLoad i = false ∧ isStore i = false → t.faulted = s.faulted) ∧
    t.diag = s.diag ∧ t.cycles = s.cycles ∧ t.retired = s.retired ∧ t.running = s.running ∧ t.cfg = s.cfg ∧ t.stage = s.stage

/-- What every instruction writes and leaves unchanged in Writeback (the tables of 40_pipeline.md section 6; the spec's decisions D4 and
D17, log entries 8 and 13): its destination register gets its value, every other register is unchanged, and so are the pc, HI, LO, memory
and the latches; every instruction but SYSCALL retires. -/
def Obligations.WritebackFrame : Prop :=
  ∀ (i : Instr) (s t : State), s.stage = .writeback → exec i s = .next t →
    (∀ d, destination s.cfg.wbMode i = some d → t.nxt.read d = writtenValue i s.memwb) ∧
    (∀ r, destination s.cfg.wbMode i ≠ some r → t.nxt.read r = s.nxt.read r) ∧
    t.nxt.pc = s.nxt.pc ∧ t.nxt.hi = s.nxt.hi ∧ t.nxt.lo = s.nxt.lo ∧ t.cur = s.cur ∧
    (∀ a, t.mem.readByte a = s.mem.readByte a) ∧
    t.ifid = s.ifid ∧ t.idex = s.idex ∧ t.exmem = s.exmem ∧ t.memwb = s.memwb ∧
    t.retired = (if (∃ code, i = .syscall code) then s.retired else s.retired + 1) ∧
    t.diag = s.diag ∧ t.cycles = s.cycles ∧ t.running = s.running ∧ t.faulted = s.faulted ∧ t.cfg = s.cfg ∧ t.stage = s.stage

/-! ## Memory -/

/-- `MemRead` and `MemWrite` (20_memory.md section 2): outside every region a read gives 0 and a write is dropped; inside one, byte `k` of
the word is the byte at `addr + k`; a word that runs past its region's end is the model fault (the spec's decision D3, log entry 5). -/
def Obligations.AccessesAreLittleEndian : Prop :=
  ∀ (regions : List Region) (m : Memory) (addr v : Word), m.wf →
    (owningRegion regions addr = none → memRead regions m addr = .ok 0 ∧ memWrite regions m addr v = .ok m) ∧
    (∀ r, owningRegion regions addr = some r → addr.toNat + 3 ≤ r.last.toNat →
      (∃ w, memRead regions m addr = .ok w ∧ ∀ k < 4, w.extractLsb' (8 * k) 8 = m.readByte (addr.toNat + k)) ∧
      (∃ m', memWrite regions m addr v = .ok m' ∧ (∀ k < 4, m'.readByte (addr.toNat + k) = v.extractLsb' (8 * k) 8) ∧
        ∀ a, a < addr.toNat ∨ addr.toNat + 3 < a → m'.readByte a = m.readByte a)) ∧
    (∀ r, owningRegion regions addr = some r → r.last.toNat < addr.toNat + 3 →
      memRead regions m addr = .error (.regionStraddle addr) ∧ memWrite regions m addr v = .error (.regionStraddle addr))

/-- A word written inside a region reads back, and a word apart from it reads as before (20_memory.md section 2). -/
def Obligations.WrittenWordReadsBack : Prop :=
  ∀ (regions : List Region) (m m' : Memory) (addr v : Word), m.wf → memWrite regions m addr v = .ok m' →
    ((owningRegion regions addr).isSome = true → memRead regions m' addr = .ok v) ∧
    (∀ b : Word, b.toNat + 3 < addr.toNat ∨ addr.toNat + 3 < b.toNat → memRead regions m' b = memRead regions m b)

/-- A write keeps memory canonical and inside the regions; two canonical memories that read alike are equal (the form is the model's, log
entry 7). -/
def Obligations.MemoryFormIsCanonical : Prop :=
  (∀ (regions : List Region) (m m' : Memory) (addr v : Word), memWrite regions m addr v = .ok m' →
    (m.wf → m'.wf) ∧ (m.InRegions regions → m'.InRegions regions)) ∧
  (∀ m m' : Memory, m.wf → m'.wf → (∀ a, m.readByte a = m'.readByte a) → m = m')

/-! ## Steps -/

/-- A step runs the decoded instructions (R61, R73): where the words in MEM/WB, EX/MEM and ID/EX decode, a step is Writeback of the first,
MemoryAccess of the second and Execute of the third by `exec`, then Decode and Fetch, and `cur <- nxt`; a fault in MemoryAccess or Fetch
ends it where it occurs (the spec's decision D3, log entry 5). -/
def Obligations.StepRunsTheDecodedInstructions : Prop :=
  ∀ (s s1 s2 : State) (iW iM : Instr), s.faulted = none →
    decodeWord s.memwb.ir = .ok iW → exec iW { s with stage := .writeback } = .next s1 →
    decodeWord s.exmem.ir = .ok iM → exec iM { s1 with stage := .memoryAccess } = .next s2 →
    (∀ f, s2.faulted = some f → step s = .next { s2 with stage := .writeback }) ∧
    (s2.faulted = none → ∀ (s3 : State) (iE : Instr),
      decodeWord s.idex.ir = .ok iE → exec iE { s2 with stage := .execute } = .next s3 →
      (∀ w, memRead s.cfg.regions s2.mem s.cur.pc = .ok w →
        step s = .next { s3 with
          idex := ⟨s.ifid.ir, s.ifid.pc, s.cur.read (rsField s.ifid.ir), s.cur.read (rtField s.ifid.ir),
            (immField s.ifid.ir).signExtend 32, 0, 0⟩
          ifid := ⟨w, s.cur.pc + 4, 0, 0, 0, 0, 0⟩
          cur := { s3.nxt with pc := s.cur.pc + 4 }
          nxt := { s3.nxt with pc := s.cur.pc + 4 }
          cycles := s.cycles + 1
          stage := .writeback }) ∧
      (∀ f, memRead s.cfg.regions s2.mem s.cur.pc = .error f →
        step s = .next { s3 with
          idex := ⟨s.ifid.ir, s.ifid.pc, s.cur.read (rsField s.ifid.ir), s.cur.read (rtField s.ifid.ir),
            (immField s.ifid.ir).signExtend 32, 0, 0⟩
          faulted := some f
          stage := .writeback }))

/-- `withFetchWord` (the model's choice, log entry 4): the word stands in ID/EX with the operands Decode reads for it, so that the very
next step executes it, and at the pc, so that it is fetched; memory is what `MemWrite` of the word at the pc leaves, so every byte but the
four at the pc reads as before, and where the pc is outside every region or its word straddles, memory is unchanged; nothing else changes. -/
def Obligations.PlacedWordIsNext : Prop :=
  ∀ (s : State) (w : Word),
    (s.withFetchWord 32 w.toNat).idex =
      ⟨w, s.cur.pc + 4, s.cur.read (rsField w), s.cur.read (rtField w), (immField w).signExtend 32, 0, 0⟩ ∧
    decodeTableWord 32 w.toNat = (decodeWord w).toOption ∧
    s.withFetchWord 32 w.toNat = { s with
      idex := (s.withFetchWord 32 w.toNat).idex, mem := (s.withFetchWord 32 w.toNat).mem } ∧
    (∀ m, memWrite s.cfg.regions s.mem s.cur.pc w = .ok m → (s.withFetchWord 32 w.toNat).mem = m) ∧
    (∀ a, a < s.cur.pc.toNat ∨ s.cur.pc.toNat + 3 < a →
      (s.withFetchWord 32 w.toNat).mem.readByte a = s.mem.readByte a) ∧
    (owningRegion s.cfg.regions s.cur.pc = none → (s.withFetchWord 32 w.toNat).mem = s.mem) ∧
    (∀ r, owningRegion s.cfg.regions s.cur.pc = some r → r.last.toNat < s.cur.pc.toNat + 3 →
      (s.withFetchWord 32 w.toNat).mem = s.mem) ∧
    (∀ r, s.mem.wf → owningRegion s.cfg.regions s.cur.pc = some r → s.cur.pc.toNat + 3 ≤ r.last.toNat →
      memRead s.cfg.regions (s.withFetchWord 32 w.toNat).mem s.cur.pc = .ok w)

/-- Every instruction completes in every state and stage, and every step of a state that has not faulted answers a next state: no word is
illegal and nothing stops the core but the model fault (30_encoding.md section 4; 40_pipeline.md section 1). A load, store or fetch that
straddles answers a next state too, one that records the fault, and only the step after it answers `.fault`: that two-step answer is the
model's choice (the spec's decision D3, log entry 5). -/
def Obligations.NothingStopsButAFault : Prop :=
  (∀ (i : Instr) (s : State), ∃ t, exec i s = .next t) ∧
  (∀ s : State, s.faulted = none → ∃ t, step s = .next t)

/-- A faulted state has no cycle and no move of the host changes it (the spec's decision D3 and the model's reading of it, log entries 5 and
14). -/
def Obligations.FaultedStateIsFinal : Prop :=
  ∀ (s : State) (f : Fault), s.faulted = some f →
    step s = .fault f ∧ (∀ op, hostMove op s = .fault f) ∧ ∀ n, Host.Core.run core (n + 1) s = .fault f

/-- When a step records a fault, and what a faulted cycle leaves (60_exceptions.md; the spec's decision D3, log entry 5): exactly when the
load or store in MemoryAccess straddles, or it does not and the fetch does; `cur` and `cycles` are those before the cycle, and a straddling
store writes nothing. -/
def Obligations.OnlyStraddlesFault : Prop :=
  ∀ s t : State, step s = .next t →
    (t.faulted = some (.regionStraddle s.exmem.aluOutput) ∧ accessStraddles s ∧ t.mem = s.mem ∧ t.diag = s.diag ∨
      t.faulted = some (.regionStraddle s.cur.pc) ∧ ¬ accessStraddles s ∧ fetchStraddles s ∨
      t.faulted = none ∧ ¬ accessStraddles s ∧ ¬ fetchStraddles s) ∧
    (t.faulted ≠ none → t.cur = s.cur ∧ t.cycles = s.cycles)

/-- R73, R77, R79 in a cycle that completes: the pc and `cycles` advance, Fetch reads memory after MemoryAccess has written it, Decode reads
the registers of `cur`, the latches pass on, and `cur` and `nxt` end equal (the zero fields are the spec's decision D8, log entry 6). -/
def Obligations.CompletedCycleMovesThePipeline : Prop :=
  ∀ s t : State, step s = .next t → t.faulted = none →
    t.cur.pc = s.cur.pc + 4 ∧ t.cycles = s.cycles + 1 ∧ t.nxt = t.cur ∧
    (∃ w, memRead s.cfg.regions t.mem s.cur.pc = .ok w ∧ t.ifid = ⟨w, s.cur.pc + 4, 0, 0, 0, 0, 0⟩) ∧
    t.idex = ⟨s.ifid.ir, s.ifid.pc, s.cur.read (rsField s.ifid.ir), s.cur.read (rtField s.ifid.ir),
      (immField s.ifid.ir).signExtend 32, 0, 0⟩ ∧
    t.exmem = { s.idex with aluOutput := t.exmem.aluOutput, lmd := 0 } ∧
    t.memwb = { s.exmem with lmd := t.memwb.lmd }

/-- No step writes the configuration or the run flag (10_state.md sections 4 and 6; the flag is the spec's decision D9, log entry 12). -/
def Obligations.StepKeepsConfigAndRunFlag : Prop :=
  ∀ s t : State, step s = .next t → t.cfg = s.cfg ∧ t.running = s.running

/-- Writeback writes at most one general register in a cycle, in `nxt`, register 0 like any other; Decode of that cycle does not see it and
Decode of the next does (40_pipeline.md section 6; the spec's decisions D4 and D5, log entry 8). -/
def Obligations.OneRegisterWrittenAndSeenNextCycle : Prop :=
  ∀ s t u : State, step s = .next t → step t = .next u → u.faulted = none →
    (∀ i, decodeWord s.memwb.ir = .ok i →
      (∀ d, destination s.cfg.wbMode i = some d → t.cur.read d = writtenValue i s.memwb) ∧
      (∀ r, destination s.cfg.wbMode i ≠ some r → t.cur.read r = s.nxt.read r)) ∧
    (∀ e, decodeWord s.memwb.ir = .error e → ∀ r, t.cur.read r = s.nxt.read r) ∧
    t.idex.a = s.cur.read (rsField s.ifid.ir) ∧ t.idex.b = s.cur.read (rtField s.ifid.ir) ∧
    u.idex.a = t.cur.read (rsField t.ifid.ir) ∧ u.idex.b = t.cur.read (rtField t.ifid.ir)

/-- R91: in a cycle at most one general register changes; Writeback writes it in `nxt` and leaves `cur`, so Decode of that cycle does not
see it and Decode of the next does; and register 0 is written like any register. -/
def Obligations.WritebackWritesAtMostOneRegister : Prop :=
  ∀ s t u : State, step s = .next t → step t = .next u → u.faulted = none →
    (∃ d : RegNum, ∀ r, r ≠ d → t.cur.read r = s.nxt.read r) ∧
    (∀ (i : Instr) (s1 : State), exec i { s with stage := .writeback } = .next s1 → s1.cur = s.cur) ∧
    (t.idex.a = s.cur.read (rsField s.ifid.ir) ∧ t.idex.b = s.cur.read (rtField s.ifid.ir)) ∧
    (u.idex.a = t.cur.read (rsField t.ifid.ir) ∧ u.idex.b = t.cur.read (rtField t.ifid.ir)) ∧
    (∀ (rs rt : RegNum) (sa : ShiftAmount), decodeWord s.memwb.ir = .ok (.sll rs rt 0 sa) → t.cur.read 0 = s.memwb.aluOutput)

/-- R21: MFHI and MFLO leave `cur.hi` and `cur.lo` in `aluOutput`, and MTHI, MTLO, MULT, MULTU, DIV and DIVU write `nxt.hi` and `nxt.lo`,
all in Execute (MTHI and MTLO their one register; DIV and DIVU where the divisor is not 0, and DIV's two values, which the statement on
DIV gives, whatever HI and LO held before); no other instruction reads them, no other instruction and no other stage writes them, and of
the host's moves `setReg` and `setRunning` leave them, so that only `setHi`, `setLo`, reset and a step remain. -/
def Obligations.HiLoReachedByEightInstructionsAndHost : Prop :=
  (∀ (rs rt rd : RegNum) (sa : ShiftAmount),
    (ExecutesTo (.mfhi rs rt rd sa) (fun s => s.cur.hi) ∧ ExecutesTo (.mflo rs rt rd sa) (fun s => s.cur.lo)) ∧
    (ExecutesToHiLo (.mthi rs rt rd sa) (fun s => s.idex.a) (fun s => s.nxt.lo) ∧
      ExecutesToHiLo (.mtlo rs rt rd sa) (fun s => s.nxt.hi) (fun s => s.idex.a)) ∧
    (ExecutesToHiLo (.mult rs rt rd sa) (fun s => BitVec.ofNat 32 (s.idex.a.toNat * s.idex.b.toNat / 2 ^ 32))
        (fun s => BitVec.ofNat 32 (s.idex.a.toNat * s.idex.b.toNat % 2 ^ 32)) ∧
      ExecutesToHiLo (.multu rs rt rd sa) (fun s => BitVec.ofNat 32 (s.idex.a.toNat * s.idex.b.toNat / 2 ^ 32))
        (fun s => BitVec.ofNat 32 (s.idex.a.toNat * s.idex.b.toNat % 2 ^ 32))) ∧
    (∀ s : State, s.stage = .execute → s.idex.b ≠ 0 →
      exec (.divu rs rt rd sa) s = .next { s with
        exmem := { s.idex with aluOutput := 0, lmd := 0 }
        nxt := { s.nxt with hi := s.idex.a % s.idex.b, lo := s.idex.a / s.idex.b } } ∧
      ∃ hi lo : Word, ∀ hi' lo' : Word,
        exec (.div rs rt rd sa) { s with nxt := { s.nxt with hi := hi', lo := lo' } } = .next { s with
          exmem := { s.idex with aluOutput := 0, lmd := 0 }
          nxt := { s.nxt with hi := hi, lo := lo } })) ∧
  (∀ (i : Instr) (s t : State) (hi lo : Word), (∀ rs rt rd sa, i ≠ .mfhi rs rt rd sa ∧ i ≠ .mflo rs rt rd sa) → exec i s = .next t →
    exec i { s with cur := { s.cur with hi := hi, lo := lo } } = .next { t with cur := { t.cur with hi := hi, lo := lo } }) ∧
  (∀ (i : Instr) (s t : State), exec i s = .next t → s.stage ≠ .execute ∨ writesHiLo i = false →
    t.nxt.hi = s.nxt.hi ∧ t.nxt.lo = s.nxt.lo) ∧
  (∀ s t : State, step s = .next t → t.faulted = none → (∀ i, decodeWord s.idex.ir = .ok i → writesHiLo i = false) →
    t.cur.hi = s.nxt.hi ∧ t.cur.lo = s.nxt.lo) ∧
  (∀ (s : State) (r : RegNum) (v : Word) (b : Bool) (t : State),
    hostMove (.setReg r v) s = .next t ∨ hostMove (.setRunning b) s = .next t →
    t.cur.hi = s.cur.hi ∧ t.cur.lo = s.cur.lo ∧ t.nxt.hi = s.nxt.hi ∧ t.nxt.lo = s.nxt.lo)

/-- R57: the word a cycle fetches is the one `MemRead` gives at the pc, and inside a region its byte `k`, the first the least significant,
is the byte at the pc plus `k`. -/
def Obligations.FetchReadsLittleEndianWords : Prop :=
  ∀ s t : State, step s = .next t → t.faulted = none →
    memRead s.cfg.regions t.mem s.cur.pc = .ok t.ifid.ir ∧
    ((owningRegion s.cfg.regions s.cur.pc).isSome = true →
      ∀ k < 4, t.ifid.ir.extractLsb' (8 * k) 8 = t.mem.readByte (s.cur.pc.toNat + k))

/-- The retired counter rises by one exactly where the word in Writeback retires (40_pipeline.md section 6; the spec's decision D17, log
entry 13), also in a cycle that a fault stops later: that the work done before the fault stands is the model's reading (the spec's decision
D3, log entry 5). -/
def Obligations.RetiredCountsRetiringWords : Prop :=
  ∀ s t : State, step s = .next t → t.retired = s.retired + (if retires s.memwb.ir = true then 1 else 0)

/-- The log only grows, by the event of the word in Execute, if any (60_exceptions.md; the spec's decisions D10 and D16, log entry 11); in a
cycle that MemoryAccess stops nothing is emitted, and in one that Fetch stops the event stands (the spec's decision D3, log entry 5). -/
def Obligations.DiagnosticsComeFromExecute : Prop :=
  ∀ s t : State, step s = .next t →
    (accessStraddles s → t.diag = s.diag) ∧ (¬ accessStraddles s → t.diag = s.diag ++ diagnosticOf s.cycles s.idex)

/-- An unhandled function code or an unrecognized opcode computes nothing, accesses nothing, writes nothing and does not retire
(30_encoding.md section 4); the diagnostic of the first is in the statement above (conflict C7, log entry 21). -/
def Obligations.UnlistedWordsDoNothing : Prop :=
  ∀ (s t : State) (e : Reject), step s = .next t → t.faulted = none →
    (decodeWord s.idex.ir = .error e → t.exmem = { s.idex with aluOutput := 0, lmd := 0 } ∧ t.cur.hi = s.nxt.hi ∧ t.cur.lo = s.nxt.lo) ∧
    (decodeWord s.exmem.ir = .error e → t.memwb = { s.exmem with lmd := 0 } ∧ t.mem = s.mem) ∧
    (decodeWord s.memwb.ir = .error e → t.retired = s.retired ∧ ∀ r, t.cur.read r = s.nxt.read r)

/-! ## Invariants -/

/-- The invariants hold at `State.reset`, which is the default configuration (the model's choice, log entry 2) with the example regions
`EX_CFG` (log entry 3) and an empty image; for every other configuration `HostKeepsInvariants` has the move `reset`. Memory's form and the
driver's stage are the model's (log entries 1 and 7). -/
def Obligations.InvariantAtReset : Prop :=
  State.reset.Inv ∧ State.reset.LatchesProduced ∧ State.reset.PcCounts

/-- Every step keeps the invariant: memory canonical and inside the regions, the driver between cycles, and, while no fault is recorded,
`nxt = cur` (10_state.md section 2; memory's form and the driver's stage are the model's, log entries 1 and 7). -/
def Obligations.StepKeepsInvariant : Prop :=
  ∀ s t : State, s.Inv → step s = .next t → t.Inv

/-- Every step keeps the contents of the latches as the stages produce them (the zero fields are the spec's decision D8, log entry 6). -/
def Obligations.StepKeepsLatchesProduced : Prop :=
  ∀ s t : State, s.LatchesProduced → step s = .next t → t.LatchesProduced

/-- Every move of the host keeps the invariants (40_pipeline.md section 8). -/
def Obligations.HostKeepsInvariants : Prop :=
  ∀ (op : HostOp) (s t : State), hostMove op s = .next t →
    (s.Inv → t.Inv) ∧ (s.LatchesProduced → t.LatchesProduced) ∧ (s.PcCounts → t.PcCounts)

/-! ## Runs -/

/-- No program changes the sequence of fetched addresses: after `n` completed cycles the pc has advanced by `4 * n` modulo 2^32 and `cycles`
by `n`, whatever the words were (46_control.md; 70_reset_and_hazards.md section 4). -/
def Obligations.PcAdvancesByFourPerCycle : Prop :=
  ∀ (n : Nat) (s t : State), SafeRun n s t →
    t.cur.pc = s.cur.pc + BitVec.ofNat 32 (4 * n) ∧ t.cycles = s.cycles + n ∧ t.cfg = s.cfg ∧ (s.PcCounts → t.PcCounts)

/-- The word fetched in one cycle reads its operands in the second, computes in the third, and its register has the result after the fifth,
whatever stands around it (40_pipeline.md section 7; 70_reset_and_hazards.md section 3; SLTI under the value of `SLTI_CMP`, the spec's
decision D6, log entry 9). -/
def Obligations.ResultReachesItsRegister : Prop :=
  ∀ (s s1 s2 s3 s4 s5 : State) (w : Word) (i : Instr) (d : RegNum) (v : Word),
    FiveCycles s s1 s2 s3 s4 s5 → memRead s.cfg.regions s1.mem s.cur.pc = .ok w → decodeWord w = .ok i →
    computed s.cfg i (s1.cur.read (rsField w)) (s1.cur.read (rtField w)) s2.cur.hi s2.cur.lo = some (d, v) →
    s5.cur.read d = v ∧ (∀ r, r ≠ d → s5.cur.read r = s4.cur.read r) ∧ s5.retired = s4.retired + 1

/-- A load fetched in one cycle reads memory in the fourth, after every earlier store, at the base it read in the second, and its register
has the value after the fifth (45_load_store.md; 70_reset_and_hazards.md section 3). -/
def Obligations.LoadReachesItsRegister : Prop :=
  ∀ (s s1 s2 s3 s4 s5 : State) (w v : Word) (i : Instr) (d : RegNum) (x : Word),
    FiveCycles s s1 s2 s3 s4 s5 → memRead s.cfg.regions s1.mem s.cur.pc = .ok w → decodeWord w = .ok i →
    memRead s.cfg.regions s3.mem (s1.cur.read (rsField w) + (immField w).signExtend 32) = .ok x →
    loaded i x = some (d, v) →
    s5.cur.read d = v ∧ (∀ r, r ≠ d → s5.cur.read r = s4.cur.read r) ∧ s4.mem = s3.mem

/-- A store fetched in one cycle writes the word and the address it read in the second, in the fourth; no byte outside its four changes
(45_load_store.md; 70_reset_and_hazards.md section 3). -/
def Obligations.StoreReachesMemory : Prop :=
  ∀ (s s1 s2 s3 s4 s5 : State) (w : Word) (i : Instr),
    FiveCycles s s1 s2 s3 s4 s5 → memRead s.cfg.regions s1.mem s.cur.pc = .ok w → decodeWord w = .ok i → isStore i = true →
    memWrite s.cfg.regions s3.mem (s1.cur.read (rsField w) + (immField w).signExtend 32) (s1.cur.read (rtField w)) = .ok s4.mem ∧
    (∀ addr : Word, s1.cur.read (rsField w) + (immField w).signExtend 32 = addr →
      ∀ a : Nat, a < addr.toNat ∨ addr.toNat + 3 < a → s4.mem.readByte a = s3.mem.readByte a)

/-- There is no HI/LO hazard (70_reset_and_hazards.md section 3): what MTHI, MTLO, MULT, MULTU, DIV or DIVU leaves in HI and LO is in `cur`
after its Execute, and MFHI and MFLO right after it see it; any other instruction, and a zero divisor, leave HI and LO as they were. DIV is
under the value of `DIV_CMP` (the spec's decision D7, log entry 10). -/
def Obligations.HiLoSeenByTheNextWord : Prop :=
  ∀ (s t : State) (iE : Instr) (hi lo : Word), step s = .next t → t.faulted = none → decodeWord s.idex.ir = .ok iE →
    hiLoAfter s.cfg iE s.idex.a s.idex.b s.nxt.hi s.nxt.lo = (hi, lo) →
    (t.cur.hi = hi ∧ t.cur.lo = lo) ∧
    (∀ (u : State) (rs rt rd : RegNum) (sa : ShiftAmount), step t = .next u → u.faulted = none →
      (decodeWord s.ifid.ir = .ok (.mfhi rs rt rd sa) → u.exmem.aluOutput = hi) ∧
      (decodeWord s.ifid.ir = .ok (.mflo rs rt rd sa) → u.exmem.aluOutput = lo))

/-- There is no memory hazard: LW right after a store to the same address sees it, and a fetch in the cycle of a store's MemoryAccess sees it
too (20_memory.md section 5; 70_reset_and_hazards.md section 3). -/
def Obligations.StoreSeenByNextLoadAndFetch : Prop :=
  ∀ (s t : State) (i : Instr), step s = .next t → t.faulted = none → s.mem.wf →
    decodeWord s.exmem.ir = .ok i → isStore i = true → (owningRegion s.cfg.regions s.exmem.aluOutput).isSome = true →
    (s.cur.pc = s.exmem.aluOutput → t.ifid.ir = s.exmem.b) ∧
    (∀ (rs rt : RegNum) (imm : Imm16) (u : State), step t = .next u → u.faulted = none →
      decodeWord s.idex.ir = .ok (.lw rs rt imm) → s.idex.a + s.idex.imm = s.exmem.aluOutput → u.memwb.lmd = s.exmem.b)

/-- The four bubbles after reset (70_reset_and_hazards.md section 1): with every latch zero, register 0 is 0 after each of the first three
cycles and has the value it had before them after the fourth, whatever the words fetched; every cycle retires one, and no other register
changes. -/
def Obligations.BubblesAfterReset : Prop :=
  ∀ s s1 s2 s3 s4 : State, s.nxt = s.cur → s.ifid = Latch.zero → s.idex = Latch.zero → s.exmem = Latch.zero → s.memwb = Latch.zero →
    step s = .next s1 → step s1 = .next s2 → step s2 = .next s3 → step s3 = .next s4 → s4.faulted = none →
    s1.cur.read 0 = 0 ∧ s2.cur.read 0 = 0 ∧ s3.cur.read 0 = 0 ∧ s4.cur.read 0 = s.cur.read 0 ∧
    (∀ r, r ≠ 0 → s4.cur.read r = s.cur.read r) ∧
    s1.retired = s.retired + 1 ∧ s2.retired = s.retired + 2 ∧ s3.retired = s.retired + 3 ∧ s4.retired = s.retired + 4

/-! ## Reset and the host -/

/-- What reset leaves outside memory (10_state.md section 5; 70_reset_and_hazards.md section 1): in a well-formed configuration whose image
fits it answers the state with every register, HI, LO, latch and counter 0 and the pc at `TEXT_BASE`; the run flag true (the spec's decision
D9, log entry 12) and the log kept (D10, log entry 11); otherwise it is refused (D1 and D13, log entries 15 and 16). The last clause: at
power-on in the default configuration (the model's choice, log entry 2; its regions are `EX_CFG`, log entry 3) the state is `State.reset`. -/
def Obligations.ResetLeavesTheStatedValues : Prop :=
  (∀ s : State, s.faulted = none →
    (regionsWellFormed s.cfg.regions = false → hostMove .reset s = .refused .illFormedRegions) ∧
    (regionsWellFormed s.cfg.regions = true → imageFits s.cfg = false → hostMove .reset s = .refused .imageTooLarge) ∧
    (regionsWellFormed s.cfg.regions = true → imageFits s.cfg = true →
      ∃ t, hostMove .reset s = .next t ∧
        (∀ r, t.cur.read r = 0) ∧ t.cur.hi = 0 ∧ t.cur.lo = 0 ∧ t.cur.pc = s.cfg.textBase ∧ t.nxt = t.cur ∧
        t.ifid = Latch.zero ∧ t.idex = Latch.zero ∧ t.exmem = Latch.zero ∧ t.memwb = Latch.zero ∧
        t.cycles = 0 ∧ t.retired = 0 ∧ t.running = true ∧ t.diag = s.diag ∧ t.faulted = none ∧ t.cfg = s.cfg)) ∧
  powerOn Config.default = .next State.reset

/-- The image after reset (70_reset_and_hazards.md section 1; the spec's decision D13, log entry 16): word `k` is at `TEXT_BASE + 4 * k`, and
every byte outside the image is 0. -/
def Obligations.ResetLoadsTheImage : Prop :=
  ∀ (c : Config) (d : List DiagEvent) (t : State), resetWith c d = .next t →
    (∀ (k : Nat) (h : k < c.image.length),
      memRead c.regions t.mem (c.textBase + BitVec.ofNat 32 (4 * k)) = .ok (c.image[k]'h)) ∧
    (∀ a : Nat, a < c.textBase.toNat ∨ c.textBase.toNat + 4 * c.image.length ≤ a → t.mem.readByte a = 0)

/-- R50: a reset from any state leaves every byte 0 but those of the program image, which is written after. -/
def Obligations.ResetZeroFillsMemory : Prop :=
  ∀ s t : State, hostMove .reset s = .next t →
    (∀ a : Nat, a < s.cfg.textBase.toNat ∨ s.cfg.textBase.toNat + 4 * s.cfg.image.length ≤ a → t.mem.readByte a = 0) ∧
    (s.cfg.image = [] → t.mem = [])

/-- The host's writes and reads (40_pipeline.md section 8; the spec's decisions D9 and D12, log entries 12 and 14): `setReg`, also of register
0, `setHi` and `setLo` write both instances and nothing else; `setRunning` writes the flag; a read of memory that would straddle is refused. -/
def Obligations.HostWritesBothInstances : Prop :=
  ∀ (s : State) (r : RegNum) (v : Word) (b : Bool), s.faulted = none →
    (∃ t, hostMove (.setReg r v) s = .next t ∧ t.cur.read r = v ∧ t.nxt.read r = v ∧
      (∀ q, q ≠ r → t.cur.read q = s.cur.read q ∧ t.nxt.read q = s.nxt.read q) ∧
      t = { s with cur := { s.cur with x := t.cur.x }, nxt := { s.nxt with x := t.nxt.x } }) ∧
    hostMove (.setHi v) s = .next { s with cur := { s.cur with hi := v }, nxt := { s.nxt with hi := v } } ∧
    hostMove (.setLo v) s = .next { s with cur := { s.cur with lo := v }, nxt := { s.nxt with lo := v } } ∧
    hostMove (.setRunning b) s = .next { s with running := b } ∧
    hostMove .step s = step s ∧
    (∀ f, memRead s.cfg.regions s.mem v = .error f → s.readMem v = .error (.hostReadStraddle v)) ∧
    (∀ w, memRead s.cfg.regions s.mem v = .ok w → s.readMem v = .ok w)

/-- The run loops (40_pipeline.md section 8; the run flag is the spec's decision D9, log entry 12; the end of a run D18, log entry 19):
both stop, in the state they have, where the flag is clear or a fault is recorded; `runCycles` of a state that runs is that many steps, and
where one of them records a fault it ends in that state; `runToCompletion` ends where `runCycles` first stands still, in one state at most;
and from a state that runs it ends only by a fault, since no step clears the flag. -/
def Obligations.RunCyclesIsRepeatedStep : Prop :=
  (∀ (n : Nat) (s : State), s.running = false ∨ s.faulted ≠ none → runCycles n s = .next s) ∧
  (∀ (n : Nat) (s t : State), s.running = true → SafeRun n s t → runCycles n s = .next t ∧ Host.Core.run core n s = .next t) ∧
  (∀ (n k : Nat) (s t u : State), s.running = true → SafeRun n s t → step t = .next u → u.faulted ≠ none →
    runCycles (n + 1 + k) s = .next u ∧ RunsToCompletion s u) ∧
  (∀ (n : Nat) (s : State), ∃ t, runCycles n s = .next t) ∧
  (∀ s t : State, RunsToCompletion s t ↔ ∃ n, runCycles n s = .next t ∧ (t.running = false ∨ t.faulted ≠ none)) ∧
  (∀ s t t' : State, RunsToCompletion s t → RunsToCompletion s t' → t = t') ∧
  (∀ s t : State, s.running = true → RunsToCompletion s t → t.running = true ∧ t.faulted ≠ none)
end

