-- ==== Sys2Proof/Laws/Meanings.lean ====
section
/-! SUPPORT. Each instruction in terms of the shape it has (Ops.lean): no later proof unfolds a meaning. -/

namespace Sys2Proof.Machine

@[simp] theorem exec_sll (rs rt rd : RegNum) (sa : ShiftAmount) (s : State) :
    exec (.sll rs rt rd sa) s = resultTo rd (fun s => shiftLeft s.idex.b sa) s := rfl
@[simp] theorem exec_srl (rs rt rd : RegNum) (sa : ShiftAmount) (s : State) :
    exec (.srl rs rt rd sa) s = resultTo rd (fun s => shiftRightLogical s.idex.b sa) s := rfl
@[simp] theorem exec_sra (rs rt rd : RegNum) (sa : ShiftAmount) (s : State) :
    exec (.sra rs rt rd sa) s = resultTo rd (fun s => shiftRightArithmetic s.idex.b sa) s := rfl
@[simp] theorem exec_jr (rs rt rd : RegNum) (sa : ShiftAmount) (s : State) :
    exec (.jr rs rt rd sa) s = effectOnly rd id s := rfl
@[simp] theorem exec_jalr (rs rt rd : RegNum) (sa : ShiftAmount) (s : State) :
    exec (.jalr rs rt rd sa) s = effectOnly rd id s := rfl
@[simp] theorem exec_syscall (code : BitVec 20) (s : State) :
    exec (.syscall code) s = stageWork State.executeNothing State.memoryPass State.writebackNothing s := rfl
@[simp] theorem exec_mfhi (rs rt rd : RegNum) (sa : ShiftAmount) (s : State) :
    exec (.mfhi rs rt rd sa) s = resultTo rd (fun s => s.cur.hi) s := rfl
@[simp] theorem exec_mthi (rs rt rd : RegNum) (sa : ShiftAmount) (s : State) :
    exec (.mthi rs rt rd sa) s = effectOnly rd (fun s => s.writeNxtHi s.idex.a) s := rfl
@[simp] theorem exec_mflo (rs rt rd : RegNum) (sa : ShiftAmount) (s : State) :
    exec (.mflo rs rt rd sa) s = resultTo rd (fun s => s.cur.lo) s := rfl
@[simp] theorem exec_mtlo (rs rt rd : RegNum) (sa : ShiftAmount) (s : State) :
    exec (.mtlo rs rt rd sa) s = effectOnly rd (fun s => s.writeNxtLo s.idex.a) s := rfl
@[simp] theorem exec_mult (rs rt rd : RegNum) (sa : ShiftAmount) (s : State) :
    exec (.mult rs rt rd sa) s = effectOnly rd State.writeProduct s := rfl
@[simp] theorem exec_multu (rs rt rd : RegNum) (sa : ShiftAmount) (s : State) :
    exec (.multu rs rt rd sa) s = effectOnly rd State.writeProduct s := rfl
@[simp] theorem exec_div (rs rt rd : RegNum) (sa : ShiftAmount) (s : State) :
    exec (.div rs rt rd sa) s = effectOnly rd (fun s => s.writeQuotient s.cfg.divCmp) s := rfl
@[simp] theorem exec_divu (rs rt rd : RegNum) (sa : ShiftAmount) (s : State) :
    exec (.divu rs rt rd sa) s = effectOnly rd (fun s => s.writeQuotient .unsigned) s := rfl
@[simp] theorem exec_add (rs rt rd : RegNum) (sa : ShiftAmount) (s : State) :
    exec (.add rs rt rd sa) s = resultTo rd (fun s => s.idex.a + s.idex.b) s := rfl
@[simp] theorem exec_addu (rs rt rd : RegNum) (sa : ShiftAmount) (s : State) :
    exec (.addu rs rt rd sa) s = resultTo rd (fun s => s.idex.a + s.idex.b) s := rfl
@[simp] theorem exec_sub (rs rt rd : RegNum) (sa : ShiftAmount) (s : State) :
    exec (.sub rs rt rd sa) s = resultTo rd (fun s => s.idex.a - s.idex.b) s := rfl
@[simp] theorem exec_subu (rs rt rd : RegNum) (sa : ShiftAmount) (s : State) :
    exec (.subu rs rt rd sa) s = resultTo rd (fun s => s.idex.a - s.idex.b) s := rfl
@[simp] theorem exec_and (rs rt rd : RegNum) (sa : ShiftAmount) (s : State) :
    exec (.and rs rt rd sa) s = resultTo rd (fun s => s.idex.a &&& s.idex.b) s := rfl
@[simp] theorem exec_or (rs rt rd : RegNum) (sa : ShiftAmount) (s : State) :
    exec (.or rs rt rd sa) s = resultTo rd (fun s => s.idex.a ||| s.idex.b) s := rfl
@[simp] theorem exec_xor (rs rt rd : RegNum) (sa : ShiftAmount) (s : State) :
    exec (.xor rs rt rd sa) s = resultTo rd (fun s => s.idex.a ^^^ s.idex.b) s := rfl
@[simp] theorem exec_nor (rs rt rd : RegNum) (sa : ShiftAmount) (s : State) :
    exec (.nor rs rt rd sa) s = resultTo rd (fun s => ~~~(s.idex.a ||| s.idex.b)) s := rfl
@[simp] theorem exec_slt (rs rt rd : RegNum) (sa : ShiftAmount) (s : State) :
    exec (.slt rs rt rd sa) s = resultTo rd (fun s => boolWord (lessThan .unsigned s.idex.a s.idex.b)) s := rfl
@[simp] theorem exec_bltz (rs : RegNum) (imm : Imm16) (s : State) :
    exec (.bltz rs imm) s = effectOnly 0 id s := rfl
@[simp] theorem exec_bgez (rs : RegNum) (imm : Imm16) (s : State) :
    exec (.bgez rs imm) s = effectOnly 1 id s := rfl
@[simp] theorem exec_regimmOther (rs rt : RegNum) (imm : Imm16) (s : State) :
    exec (.regimmOther rs rt imm) s = effectOnly rt id s := rfl
@[simp] theorem exec_j (target : BitVec 26) (s : State) :
    exec (.j target) s = effectOnly (jumpRtField target) id s := rfl
@[simp] theorem exec_jal (target : BitVec 26) (s : State) :
    exec (.jal target) s = effectOnly (jumpRtField target) id s := rfl
@[simp] theorem exec_beq (rs rt : RegNum) (imm : Imm16) (s : State) :
    exec (.beq rs rt imm) s = effectOnly rt id s := rfl
@[simp] theorem exec_bne (rs rt : RegNum) (imm : Imm16) (s : State) :
    exec (.bne rs rt imm) s = effectOnly rt id s := rfl
@[simp] theorem exec_blez (rs rt : RegNum) (imm : Imm16) (s : State) :
    exec (.blez rs rt imm) s = effectOnly rt id s := rfl
@[simp] theorem exec_bgtz (rs rt : RegNum) (imm : Imm16) (s : State) :
    exec (.bgtz rs rt imm) s = effectOnly rt id s := rfl
@[simp] theorem exec_addi (rs rt : RegNum) (imm : Imm16) (s : State) :
    exec (.addi rs rt imm) s = resultTo rt (fun s => reextend s.idex.imm + s.idex.a) s := rfl
@[simp] theorem exec_addiu (rs rt : RegNum) (imm : Imm16) (s : State) :
    exec (.addiu rs rt imm) s = resultTo rt (fun s => s.idex.a + s.idex.imm) s := rfl
@[simp] theorem exec_slti (rs rt : RegNum) (imm : Imm16) (s : State) :
    exec (.slti rs rt imm) s = resultTo rt (fun s => boolWord (lessThan s.cfg.sltiCmp s.idex.a s.idex.imm)) s := rfl
@[simp] theorem exec_andi (rs rt : RegNum) (imm : Imm16) (s : State) :
    exec (.andi rs rt imm) s = resultTo rt (fun s => s.idex.a &&& s.idex.imm) s := rfl
@[simp] theorem exec_ori (rs rt : RegNum) (imm : Imm16) (s : State) :
    exec (.ori rs rt imm) s = resultTo rt (fun s => s.idex.a ||| s.idex.imm) s := rfl
@[simp] theorem exec_xori (rs rt : RegNum) (imm : Imm16) (s : State) :
    exec (.xori rs rt imm) s = resultTo rt (fun s => s.idex.a ^^^ s.idex.imm) s := rfl
@[simp] theorem exec_lui (rs rt : RegNum) (imm : Imm16) (s : State) :
    exec (.lui rs rt imm) s = resultTo rt (fun s => upperImmediate s.idex.imm) s := rfl
@[simp] theorem exec_lb (rs rt : RegNum) (imm : Imm16) (s : State) :
    exec (.lb rs rt imm) s = loadTo rt byteMask (fun s => effectiveAddress s.idex.a s.idex.imm) s := rfl
@[simp] theorem exec_lh (rs rt : RegNum) (imm : Imm16) (s : State) :
    exec (.lh rs rt imm) s = loadTo rt halfMask (fun s => effectiveAddress s.idex.a s.idex.imm) s := rfl
@[simp] theorem exec_lw (rs rt : RegNum) (imm : Imm16) (s : State) :
    exec (.lw rs rt imm) s = loadTo rt wordMask (fun s => effectiveAddress s.idex.a s.idex.imm) s := rfl
@[simp] theorem exec_sb (rs rt : RegNum) (imm : Imm16) (s : State) :
    exec (.sb rs rt imm) s = storeFrom rt (fun s => effectiveAddress s.idex.a s.idex.imm) s := rfl
@[simp] theorem exec_sh (rs rt : RegNum) (imm : Imm16) (s : State) :
    exec (.sh rs rt imm) s = storeFrom rt (fun s => effectiveAddress s.idex.a s.idex.imm) s := rfl
@[simp] theorem exec_sw (rs rt : RegNum) (imm : Imm16) (s : State) :
    exec (.sw rs rt imm) s = storeFrom rt (fun s => effectiveAddress s.idex.a s.idex.imm) s := rfl

end Sys2Proof.Machine
end

