-- ==== Sys2Proof/Laws/Encoding.lean ====
section
/-! SUPPORT. The fields of an assembled word, and a word reassembled from its fields. -/

namespace Sys2Proof

section RegisterWord
variable (rs rt rd : RegNum) (sa : ShiftAmount) (funct : BitVec 6)

@[simp] theorem opField_registerWord : opField (registerWord rs rt rd sa funct) = 0#6 := by
  apply BitVec.eq_of_getLsbD_eq; intro i hi; interval_cases i <;> simp [opField, registerWord]
@[simp] theorem rsField_registerWord : rsField (registerWord rs rt rd sa funct) = rs := by
  apply BitVec.eq_of_getLsbD_eq; intro i hi; interval_cases i <;> simp [rsField, registerWord]
@[simp] theorem rtField_registerWord : rtField (registerWord rs rt rd sa funct) = rt := by
  apply BitVec.eq_of_getLsbD_eq; intro i hi; interval_cases i <;> simp [rtField, registerWord]
@[simp] theorem rdField_registerWord : rdField (registerWord rs rt rd sa funct) = rd := by
  apply BitVec.eq_of_getLsbD_eq; intro i hi; interval_cases i <;> simp [rdField, registerWord]
@[simp] theorem saField_registerWord : saField (registerWord rs rt rd sa funct) = sa := by
  apply BitVec.eq_of_getLsbD_eq; intro i hi; interval_cases i <;> simp [saField, registerWord]
@[simp] theorem functField_registerWord : functField (registerWord rs rt rd sa funct) = funct := by
  apply BitVec.eq_of_getLsbD_eq; intro i hi; interval_cases i <;> simp [functField, registerWord]

/-- The bits a register row fixes hold the function code. -/
theorem registerWord_and_rowMask : registerWord rs rt rd sa funct &&& 0xFC00003F#32 = funct.setWidth 32 := by
  apply BitVec.eq_of_getLsbD_eq; intro i hi; interval_cases i <;> simp [registerWord]

end RegisterWord

section ImmediateWord
variable (op : BitVec 6) (rs rt : RegNum) (imm : Imm16)

@[simp] theorem opField_immediateWord : opField (immediateWord op rs rt imm) = op := by
  apply BitVec.eq_of_getLsbD_eq; intro i hi; interval_cases i <;> simp [opField, immediateWord]
@[simp] theorem rsField_immediateWord : rsField (immediateWord op rs rt imm) = rs := by
  apply BitVec.eq_of_getLsbD_eq; intro i hi; interval_cases i <;> simp [rsField, immediateWord]
@[simp] theorem rtField_immediateWord : rtField (immediateWord op rs rt imm) = rt := by
  apply BitVec.eq_of_getLsbD_eq; intro i hi; interval_cases i <;> simp [rtField, immediateWord]
@[simp] theorem immField_immediateWord : immField (immediateWord op rs rt imm) = imm := by
  apply BitVec.eq_of_getLsbD_eq; intro i hi; interval_cases i <;> simp [immField, immediateWord]

/-- The bits an opcode row fixes hold the opcode. -/
theorem immediateWord_and_rowMask : immediateWord op rs rt imm &&& 0xFC000000#32 = op.setWidth 32 <<< 26 := by
  apply BitVec.eq_of_getLsbD_eq; intro i hi; interval_cases i <;> simp [immediateWord]

/-- The bits the BLTZ and BGEZ rows fix hold the opcode and rt. -/
theorem immediateWord_and_regimmMask :
    immediateWord op rs rt imm &&& 0xFC1F0000#32 = op.setWidth 32 <<< 26 ||| rt.setWidth 32 <<< 16 := by
  apply BitVec.eq_of_getLsbD_eq; intro i hi; interval_cases i <;> simp [immediateWord]

end ImmediateWord

section JumpWord
variable (op : BitVec 6) (target : BitVec 26)

@[simp] theorem opField_jumpWord : opField (jumpWord op target) = op := by
  apply BitVec.eq_of_getLsbD_eq; intro i hi; interval_cases i <;> simp [opField, jumpWord]
@[simp] theorem targetField_jumpWord : targetField (jumpWord op target) = target := by
  apply BitVec.eq_of_getLsbD_eq; intro i hi; interval_cases i <;> simp [targetField, jumpWord]

/-- The bits an opcode row fixes hold the opcode. -/
theorem jumpWord_and_rowMask : jumpWord op target &&& 0xFC000000#32 = op.setWidth 32 <<< 26 := by
  apply BitVec.eq_of_getLsbD_eq; intro i hi; interval_cases i <;> simp [jumpWord]

end JumpWord

section SyscallWord
variable (code : BitVec 20)

@[simp] theorem opField_syscallWord : opField (syscallWord code) = 0#6 := by
  apply BitVec.eq_of_getLsbD_eq; intro i hi; interval_cases i <;> simp [opField, syscallWord]
@[simp] theorem functField_syscallWord : functField (syscallWord code) = 0x0C#6 := by
  apply BitVec.eq_of_getLsbD_eq; intro i hi; interval_cases i <;> simp [functField, syscallWord]
@[simp] theorem codeField_syscallWord : codeField (syscallWord code) = code := by
  apply BitVec.eq_of_getLsbD_eq; intro i hi; interval_cases i <;> simp [codeField, syscallWord]

/-- The bits SYSCALL's row fixes hold its function code. -/
theorem syscallWord_and_rowMask : syscallWord code &&& 0xFC00003F#32 = 0x0C#32 := by
  apply BitVec.eq_of_getLsbD_eq; intro i hi; interval_cases i <;> simp [syscallWord]

end SyscallWord

section Reassembly
variable (w : Word)

theorem registerWord_of_fields (h : opField w = 0#6) :
    registerWord (rsField w) (rtField w) (rdField w) (saField w) (functField w) = w := by
  have hop : ∀ k, k < 6 → w.getLsbD (26 + k) = false := fun k hk => by
    simpa [opField, hk] using congrArg (fun v => v.getLsbD k) h
  have h0 := hop 0; have h1 := hop 1; have h2 := hop 2; have h3 := hop 3; have h4 := hop 4; have h5 := hop 5
  apply BitVec.eq_of_getLsbD_eq; intro i hi
  interval_cases i <;> simp_all [registerWord, rsField, rtField, rdField, saField, functField]

theorem syscallWord_of_fields (h : opField w = 0#6) (hf : functField w = 0x0C#6) : syscallWord (codeField w) = w := by
  have hop : ∀ k, k < 6 → w.getLsbD (26 + k) = false := fun k hk => by
    simpa [opField, hk] using congrArg (fun v => v.getLsbD k) h
  have hfu : ∀ k, k < 6 → w.getLsbD k = (0x0C#6).getLsbD k := fun k hk => by
    simpa [functField, hk] using congrArg (fun v => v.getLsbD k) hf
  have h0 := hop 0; have h1 := hop 1; have h2 := hop 2; have h3 := hop 3; have h4 := hop 4; have h5 := hop 5
  have f0 := hfu 0; have f1 := hfu 1; have f2 := hfu 2; have f3 := hfu 3; have f4 := hfu 4; have f5 := hfu 5
  apply BitVec.eq_of_getLsbD_eq; intro i hi
  interval_cases i <;> simp_all [syscallWord, codeField]

theorem immediateWord_of_fields : immediateWord (opField w) (rsField w) (rtField w) (immField w) = w := by
  apply BitVec.eq_of_getLsbD_eq; intro i hi
  interval_cases i <;> simp [immediateWord, opField, rsField, rtField, immField]

theorem jumpWord_of_fields : jumpWord (opField w) (targetField w) = w := by
  apply BitVec.eq_of_getLsbD_eq; intro i hi
  interval_cases i <;> simp [jumpWord, opField, targetField]

/-- The four bytes of a word are the word again. -/
@[simp] theorem wordOfBytes_byteOfWord :
    wordOfBytes (byteOfWord w 0) (byteOfWord w 1) (byteOfWord w 2) (byteOfWord w 3) = w := by
  apply BitVec.eq_of_getLsbD_eq; intro i hi; interval_cases i <;> simp [wordOfBytes, byteOfWord]

theorem byteOfWord_wordOfBytes (b0 b1 b2 b3 : Byte) :
    byteOfWord (wordOfBytes b0 b1 b2 b3) 0 = b0 ∧ byteOfWord (wordOfBytes b0 b1 b2 b3) 1 = b1 ∧
      byteOfWord (wordOfBytes b0 b1 b2 b3) 2 = b2 ∧ byteOfWord (wordOfBytes b0 b1 b2 b3) 3 = b3 := by
  refine ⟨?_, ?_, ?_, ?_⟩ <;>
    (apply BitVec.eq_of_getLsbD_eq; intro i hi; interval_cases i <;> simp [wordOfBytes, byteOfWord])

/-- Decoding a word's bytes is decoding the word. -/
theorem decode_bytesOfWord (rest : List Byte) :
    decode (bytesOfWord w ++ rest) = (decodeWord w).map (fun i => (i, rest)) := by
  simp [decode, bytesOfWord]

/-- What the host's question comes to for a whole word. -/
theorem decodeTableWord_toNat : decodeTableWord 32 w.toNat = (decodeWord w).toOption := by
  have h : tableWord 32 w.toNat = w := by
    simp [tableWord, Nat.mod_eq_of_lt w.isLt]
  have hb := decode_bytesOfWord w []
  rw [List.append_nil] at hb
  rw [decodeTableWord, h, hb]
  cases decodeWord w <;> rfl

end Reassembly

end Sys2Proof
end

