-- ==== Sys2Proof/Laws/Memory.lean ====
section
/-! SUPPORT. Memory: a read after a write, what a write leaves alone, and that every memory operation keeps the canonical form and stays
inside the regions. -/

namespace Sys2Proof.Machine

namespace Memory

/-- Below the first listed address nothing is listed. -/
theorem readByte_eq_zero_of_lt {m : Memory} {a : Nat} (h : ∀ c ∈ m, a < c.1) : m.readByte a = 0 := by
  induction m with
  | nil => rfl
  | cons c rest ih =>
    obtain ⟨k, v⟩ := c
    have hk : a < k := h (k, v) (by simp)
    have : k ≠ a := by omega
    simp only [readByte, this, if_false]
    exact ih fun c hc => h c (List.mem_cons_of_mem _ hc)

/-- A listed byte reads as it is listed. -/
theorem readByte_of_mem {m : Memory} (h : m.wf) {c : Host.Cell} (hc : c ∈ m) : m.readByte c.1 = c.2 := by
  have hp := h.1
  clear h
  induction m with
  | nil => cases hc
  | cons d rest ih =>
    obtain ⟨hk, hr⟩ := List.pairwise_cons.mp hp
    rcases List.mem_cons.mp hc with rfl | hc
    · simp [readByte]
    · have : d.1 ≠ c.1 := (hk c hc).ne
      simp only [readByte, this, if_false]
      exact ih hc hr

theorem mem_writeByte {m : Memory} {a : Nat} {v : Byte} {c : Host.Cell} (h : c ∈ m.writeByte a v) :
    c ∈ m ∨ (c = (a, v) ∧ v ≠ 0) := by
  induction m with
  | nil =>
    simp only [writeByte] at h
    split at h <;> simp_all
  | cons d rest ih =>
    obtain ⟨k, w⟩ := d
    simp only [writeByte] at h
    split at h
    · split at h <;> simp_all
      tauto
    · split at h
      · split at h <;> simp_all
        tauto
      · rcases List.mem_cons.mp h with h | h
        · exact .inl (h ▸ List.mem_cons_self ..)
        · exact (ih h).imp (List.mem_cons_of_mem _) id

/-- A write keeps the canonical form. -/
theorem wf_writeByte {m : Memory} (h : m.wf) (a : Nat) (v : Byte) : (m.writeByte a v).wf := by
  refine ⟨?_, fun c hc => ?_⟩
  · have hp := h.1
    clear h
    induction m with
    | nil => simp only [writeByte]; split <;> simp
    | cons d rest ih =>
      obtain ⟨k, w⟩ := d
      obtain ⟨hk, hr⟩ := List.pairwise_cons.mp hp
      simp only [writeByte]
      split
      · next hak =>
        split
        · exact hp
        · refine List.pairwise_cons.mpr ⟨fun c hc => ?_, hp⟩
          rcases List.mem_cons.mp hc with rfl | hc
          · exact hak
          · exact lt_trans hak (hk c hc)
      · split
        · next hka =>
          subst hka
          split
          · exact hr
          · exact List.pairwise_cons.mpr ⟨hk, hr⟩
        · next h1 h2 =>
          refine List.pairwise_cons.mpr ⟨fun c hc => ?_, ih hr⟩
          rcases mem_writeByte hc with hc | ⟨rfl, -⟩
          · exact hk c hc
          · show k < a
            omega
  · rcases mem_writeByte hc with hc | ⟨rfl, hv⟩
    · exact h.2 c hc
    · exact hv

/-- A write to one address leaves every other alone. -/
theorem readByte_writeByte_other (m : Memory) {a b : Nat} (v : Byte) (h : b ≠ a) :
    (m.writeByte a v).readByte b = m.readByte b := by
  induction m with
  | nil =>
    have h' : ¬ a = b := fun e => h e.symm
    simp only [writeByte]
    split <;> simp [readByte, h']
  | cons d rest ih =>
    obtain ⟨k, w⟩ := d
    have h' : ¬ a = b := fun e => h e.symm
    simp only [writeByte]
    split
    · split <;> simp [readByte, h']
    · split
      · next hka =>
        have : ¬ k = b := hka ▸ h'
        split <;> simp [readByte, h', this]
      · simp only [readByte, ih]

/-- A byte reads back as it was written. -/
theorem readByte_writeByte_same {m : Memory} (hm : m.wf) (a : Nat) (v : Byte) : (m.writeByte a v).readByte a = v := by
  have hp := hm.1
  clear hm
  induction m with
  | nil =>
    simp only [writeByte]
    split
    · next h => simp [readByte, h]
    · simp [readByte]
  | cons d rest ih =>
    obtain ⟨k, w⟩ := d
    obtain ⟨hk, hr⟩ := List.pairwise_cons.mp hp
    simp only [writeByte]
    split
    · next hak =>
      split
      · next hv =>
        rw [hv]
        refine readByte_eq_zero_of_lt fun c hc => ?_
        rcases List.mem_cons.mp hc with rfl | hc
        · exact hak
        · exact lt_trans hak (hk c hc)
      · simp [readByte]
    · split
      · next hka =>
        subst hka
        split
        · next hv =>
          rw [hv]
          exact readByte_eq_zero_of_lt hk
        · simp [readByte]
      · next h1 h2 =>
        have : ¬ k = a := fun e => h2 e.symm
        simp only [readByte, this, if_false]
        exact ih hr

theorem wf_writeWord {m : Memory} (h : m.wf) (a : Nat) (v : Word) : (m.writeWord a v).wf :=
  wf_writeByte (wf_writeByte (wf_writeByte (wf_writeByte h _ _) _ _) _ _) _ _

/-- A word write changes no byte outside its four. -/
theorem readByte_writeWord_other (m : Memory) {a b : Nat} (v : Word) (h : b < a ∨ a + 3 < b) :
    (m.writeWord a v).readByte b = m.readByte b := by
  rw [writeWord, readByte_writeByte_other _ _ (by omega), readByte_writeByte_other _ _ (by omega),
    readByte_writeByte_other _ _ (by omega), readByte_writeByte_other _ _ (by omega)]

/-- Where each byte of a written word lands (R42). -/
theorem readByte_writeWord {m : Memory} (hm : m.wf) (a : Nat) (v : Word) :
    (m.writeWord a v).readByte a = byteOfWord v 0 ∧ (m.writeWord a v).readByte (a + 1) = byteOfWord v 1 ∧
      (m.writeWord a v).readByte (a + 2) = byteOfWord v 2 ∧ (m.writeWord a v).readByte (a + 3) = byteOfWord v 3 := by
  have h0 := wf_writeByte hm a (byteOfWord v 0)
  have h1 := wf_writeByte h0 (a + 1) (byteOfWord v 1)
  have h2 := wf_writeByte h1 (a + 2) (byteOfWord v 2)
  refine ⟨?_, ?_, ?_, ?_⟩
  · rw [writeWord, readByte_writeByte_other _ _ (by omega), readByte_writeByte_other _ _ (by omega),
      readByte_writeByte_other _ _ (by omega), readByte_writeByte_same hm]
  · rw [writeWord, readByte_writeByte_other _ _ (by omega), readByte_writeByte_other _ _ (by omega),
      readByte_writeByte_same h0]
  · rw [writeWord, readByte_writeByte_other _ _ (by omega), readByte_writeByte_same h1]
  · rw [writeWord, readByte_writeByte_same h2]

/-- A word reads back as it was written. -/
theorem readWord_writeWord {m : Memory} (hm : m.wf) (a : Nat) (v : Word) : (m.writeWord a v).readWord a = v := by
  obtain ⟨h0, h1, h2, h3⟩ := readByte_writeWord hm a v
  rw [readWord, h0, h1, h2, h3, wordOfBytes_byteOfWord]

/-- A word whose four bytes are apart from a written word's reads as before. -/
theorem readWord_writeWord_other (m : Memory) {a b : Nat} (v : Word) (h : b + 3 < a ∨ a + 3 < b) :
    (m.writeWord a v).readWord b = m.readWord b := by
  rw [readWord, readByte_writeWord_other _ _ (by omega), readByte_writeWord_other _ _ (by omega),
    readByte_writeWord_other _ _ (by omega), readByte_writeWord_other _ _ (by omega), ← readWord]

theorem mem_writeWord {m : Memory} {a : Nat} {v : Word} {c : Host.Cell} (h : c ∈ m.writeWord a v) :
    c ∈ m ∨ (a ≤ c.1 ∧ c.1 ≤ a + 3) := by
  rcases mem_writeByte h with h | ⟨rfl, -⟩
  · rcases mem_writeByte h with h | ⟨rfl, -⟩
    · rcases mem_writeByte h with h | ⟨rfl, -⟩
      · rcases mem_writeByte h with h | ⟨rfl, -⟩
        · exact .inl h
        · right; simp
      · right; simp
    · right; simp
  · right; simp

end Memory

/-! ## Accesses -/

/-- Everything a read can answer: 0 outside every region, the four bytes inside one, or the straddle. -/
theorem memRead_cases (regions : List Region) (m : Memory) (addr : Word) :
    (owningRegion regions addr = none ∧ memRead regions m addr = .ok 0) ∨
      ∃ r, owningRegion regions addr = some r ∧
        ((addr.toNat + 3 ≤ r.last.toNat ∧ memRead regions m addr = .ok (m.readWord addr.toNat)) ∨
          (r.last.toNat < addr.toNat + 3 ∧ memRead regions m addr = .error (.regionStraddle addr))) := by
  rw [memRead]
  cases h : owningRegion regions addr with
  | none => exact .inl ⟨rfl, rfl⟩
  | some r =>
    refine .inr ⟨r, rfl, ?_⟩
    by_cases hl : r.last.toNat < addr.toNat + 3
    · exact .inr ⟨hl, by simp [hl]⟩
    · exact .inl ⟨by omega, by simp [hl]⟩

/-- Everything a write can answer: dropped outside every region, the four bytes inside one, or the straddle. -/
theorem memWrite_cases (regions : List Region) (m : Memory) (addr v : Word) :
    (owningRegion regions addr = none ∧ memWrite regions m addr v = .ok m) ∨
      ∃ r, owningRegion regions addr = some r ∧
        ((addr.toNat + 3 ≤ r.last.toNat ∧ memWrite regions m addr v = .ok (m.writeWord addr.toNat v)) ∨
          (r.last.toNat < addr.toNat + 3 ∧ memWrite regions m addr v = .error (.regionStraddle addr))) := by
  rw [memWrite]
  cases h : owningRegion regions addr with
  | none => exact .inl ⟨rfl, rfl⟩
  | some r =>
    refine .inr ⟨r, rfl, ?_⟩
    by_cases hl : r.last.toNat < addr.toNat + 3
    · exact .inr ⟨hl, by simp [hl]⟩
    · exact .inl ⟨by omega, by simp [hl]⟩

/-- The owning region of an address holds it. -/
theorem owningRegion_spec {regions : List Region} {addr : Word} {r : Region} (h : owningRegion regions addr = some r) :
    r ∈ regions ∧ r.first.toNat ≤ addr.toNat ∧ addr.toNat ≤ r.last.toNat := by
  have h1 := List.find?_some h
  simp only [regionOwns, Bool.and_eq_true, decide_eq_true_eq] at h1
  exact ⟨List.mem_of_find?_eq_some h, h1⟩

/-- Whether a read straddles does not depend on memory's contents, and a write straddles where a read does. -/
theorem memWrite_error_iff_memRead_error {regions : List Region} {m m' : Memory} {addr v : Word} {f : Fault} :
    memWrite regions m addr v = .error f ↔ memRead regions m' addr = .error f := by
  rw [memWrite, memRead]
  cases owningRegion regions addr with
  | none => simp
  | some r => by_cases h : r.last.toNat < addr.toNat + 3 <;> simp [h]

/-- A read straddles exactly where its region ends before its fourth byte (R44). -/
theorem memRead_error_iff {regions : List Region} {m : Memory} {addr : Word} {f : Fault} :
    memRead regions m addr = .error f ↔
      f = .regionStraddle addr ∧ ∃ r, owningRegion regions addr = some r ∧ r.last.toNat < addr.toNat + 3 := by
  rcases memRead_cases regions m addr with ⟨h, e⟩ | ⟨r, h, ⟨hl, e⟩ | ⟨hl, e⟩⟩
  · simp [h, e]
  · simp only [h, e, reduceCtorEq, Option.some.injEq, false_iff, not_and, not_exists]
    rintro - _ rfl
    omega
  · simp only [h, e, Except.error.injEq, Option.some.injEq, exists_eq_left', hl, and_true]
    exact eq_comm

/-- The only fault of a read names its address. -/
theorem memRead_error {regions : List Region} {m : Memory} {addr : Word} {f : Fault}
    (h : memRead regions m addr = .error f) : f = .regionStraddle addr := by
  rcases memRead_cases regions m addr with ⟨-, e⟩ | ⟨r, -, ⟨-, e⟩ | ⟨-, e⟩⟩ <;> simp_all

/-- The only fault of a write names its address. -/
theorem memWrite_error {regions : List Region} {m : Memory} {addr v : Word} {f : Fault}
    (h : memWrite regions m addr v = .error f) : f = .regionStraddle addr :=
  memRead_error (m := m) (memWrite_error_iff_memRead_error.mp h)

/-- A write keeps the canonical form. -/
theorem memWrite_wf {regions : List Region} {m m' : Memory} {addr v : Word} (hm : m.wf)
    (h : memWrite regions m addr v = .ok m') : m'.wf := by
  rcases memWrite_cases regions m addr v with ⟨-, e⟩ | ⟨r, -, ⟨-, e⟩ | ⟨-, e⟩⟩ <;> rw [e] at h
  · exact (Except.ok.inj h) ▸ hm
  · exact (Except.ok.inj h) ▸ Memory.wf_writeWord hm _ _
  · cases h

/-- A write stays inside the regions. -/
theorem memWrite_inRegions {regions : List Region} {m m' : Memory} {addr v : Word} (hm : m.InRegions regions)
    (h : memWrite regions m addr v = .ok m') : m'.InRegions regions := by
  rcases memWrite_cases regions m addr v with ⟨-, e⟩ | ⟨r, hr, ⟨hl, e⟩ | ⟨-, e⟩⟩ <;> rw [e] at h
  · exact (Except.ok.inj h) ▸ hm
  · obtain rfl := Except.ok.inj h
    intro c hc
    rcases Memory.mem_writeWord hc with hc | ⟨h1, h2⟩
    · exact hm c hc
    · obtain ⟨hmem, hf, -⟩ := owningRegion_spec hr
      refine List.any_eq_true.mpr ⟨r, hmem, ?_⟩
      simp only [regionOwns, Bool.and_eq_true, decide_eq_true_eq]
      omega
  · cases h

/-- A write leaves every byte outside its four alone. -/
theorem memWrite_other {regions : List Region} {m m' : Memory} {addr v : Word} {b : Nat}
    (h : memWrite regions m addr v = .ok m') (hb : b < addr.toNat ∨ addr.toNat + 3 < b) :
    m'.readByte b = m.readByte b := by
  rcases memWrite_cases regions m addr v with ⟨-, e⟩ | ⟨r, -, ⟨-, e⟩ | ⟨-, e⟩⟩ <;> rw [e] at h
  · exact (Except.ok.inj h) ▸ rfl
  · exact (Except.ok.inj h) ▸ Memory.readByte_writeWord_other m v hb
  · cases h

/-- Reading back what was written inside a region (R42). -/
theorem memRead_memWrite {regions : List Region} {m m' : Memory} {addr v : Word} (hm : m.wf)
    (hr : (owningRegion regions addr).isSome) (h : memWrite regions m addr v = .ok m') :
    memRead regions m' addr = .ok v := by
  rcases memWrite_cases regions m addr v with ⟨e, -⟩ | ⟨r, e, ⟨hl, e'⟩ | ⟨-, e'⟩⟩
  · simp [e] at hr
  · rw [e'] at h
    obtain rfl := Except.ok.inj h
    have : ¬ r.last.toNat < addr.toNat + 3 := by omega
    simp [memRead, e, this, Memory.readWord_writeWord hm]
  · rw [e'] at h; cases h

/-! ## Regions and the image -/

/-- In a table whose regions share no byte, the region that holds an address owns it. -/
theorem owningRegion_of_disjoint {regions : List Region} (hd : regionsPairwiseDisjoint regions = true) {r : Region}
    (hr : r ∈ regions) {addr : Word} (h1 : r.first.toNat ≤ addr.toNat) (h2 : addr.toNat ≤ r.last.toNat) :
    owningRegion regions addr = some r := by
  induction regions with
  | nil => cases hr
  | cons q rest ih =>
    simp only [regionsPairwiseDisjoint, Bool.and_eq_true, List.all_eq_true, regionsDisjoint, Bool.or_eq_true,
      decide_eq_true_eq] at hd
    rw [owningRegion, List.find?_cons]
    rcases List.mem_cons.mp hr with rfl | hr'
    · simp [regionOwns, h1, h2]
    · have := hd.1 r hr'
      have hq : regionOwns q addr.toNat = false := by
        simp [regionOwns]
        omega
      rw [hq]
      exact ih hd.2 hr'

/-- Loading an image keeps memory canonical and inside the regions. -/
theorem loadWords_keeps (regions : List Region) (words : List Word) (m : Memory) (addr : Word) :
    (m.wf → (loadWords regions m addr words).wf) ∧
      (m.InRegions regions → (loadWords regions m addr words).InRegions regions) := by
  induction words generalizing m addr with
  | nil => exact ⟨id, id⟩
  | cons w rest ih =>
    simp only [loadWords]
    split
    · next m' e =>
      exact ⟨fun h => (ih m' _).1 (memWrite_wf h e), fun h => (ih m' _).2 (memWrite_inRegions h e)⟩
    · exact ih m _

end Sys2Proof.Machine
end

