-- ==== Sys2Proof/Laws/State.lean ====
section
/-! SUPPORT. The small lemmas of the state's named updates: one per field per update, so that no proof unfolds a record update. -/

namespace Sys2Proof.Machine

namespace State

section writeNxtReg
variable (s : State) (r : RegNum) (v : Word)
@[simp] theorem writeNxtReg_cfg : (s.writeNxtReg r v).cfg = s.cfg := rfl
@[simp] theorem writeNxtReg_cur : (s.writeNxtReg r v).cur = s.cur := rfl
@[simp] theorem writeNxtReg_nxt : (s.writeNxtReg r v).nxt = s.nxt.write r v := rfl
@[simp] theorem writeNxtReg_ifid : (s.writeNxtReg r v).ifid = s.ifid := rfl
@[simp] theorem writeNxtReg_idex : (s.writeNxtReg r v).idex = s.idex := rfl
@[simp] theorem writeNxtReg_exmem : (s.writeNxtReg r v).exmem = s.exmem := rfl
@[simp] theorem writeNxtReg_memwb : (s.writeNxtReg r v).memwb = s.memwb := rfl
@[simp] theorem writeNxtReg_mem : (s.writeNxtReg r v).mem = s.mem := rfl
@[simp] theorem writeNxtReg_cycles : (s.writeNxtReg r v).cycles = s.cycles := rfl
@[simp] theorem writeNxtReg_retired : (s.writeNxtReg r v).retired = s.retired := rfl
@[simp] theorem writeNxtReg_running : (s.writeNxtReg r v).running = s.running := rfl
@[simp] theorem writeNxtReg_diag : (s.writeNxtReg r v).diag = s.diag := rfl
@[simp] theorem writeNxtReg_faulted : (s.writeNxtReg r v).faulted = s.faulted := rfl
@[simp] theorem writeNxtReg_stage : (s.writeNxtReg r v).stage = s.stage := rfl
end writeNxtReg

section writeNxtHi
variable (s : State) (v : Word)
@[simp] theorem writeNxtHi_cfg : (s.writeNxtHi v).cfg = s.cfg := rfl
@[simp] theorem writeNxtHi_cur : (s.writeNxtHi v).cur = s.cur := rfl
@[simp] theorem writeNxtHi_nxt : (s.writeNxtHi v).nxt = { s.nxt with hi := v } := rfl
@[simp] theorem writeNxtHi_ifid : (s.writeNxtHi v).ifid = s.ifid := rfl
@[simp] theorem writeNxtHi_idex : (s.writeNxtHi v).idex = s.idex := rfl
@[simp] theorem writeNxtHi_exmem : (s.writeNxtHi v).exmem = s.exmem := rfl
@[simp] theorem writeNxtHi_memwb : (s.writeNxtHi v).memwb = s.memwb := rfl
@[simp] theorem writeNxtHi_mem : (s.writeNxtHi v).mem = s.mem := rfl
@[simp] theorem writeNxtHi_cycles : (s.writeNxtHi v).cycles = s.cycles := rfl
@[simp] theorem writeNxtHi_retired : (s.writeNxtHi v).retired = s.retired := rfl
@[simp] theorem writeNxtHi_running : (s.writeNxtHi v).running = s.running := rfl
@[simp] theorem writeNxtHi_diag : (s.writeNxtHi v).diag = s.diag := rfl
@[simp] theorem writeNxtHi_faulted : (s.writeNxtHi v).faulted = s.faulted := rfl
@[simp] theorem writeNxtHi_stage : (s.writeNxtHi v).stage = s.stage := rfl
end writeNxtHi

section writeNxtLo
variable (s : State) (v : Word)
@[simp] theorem writeNxtLo_cfg : (s.writeNxtLo v).cfg = s.cfg := rfl
@[simp] theorem writeNxtLo_cur : (s.writeNxtLo v).cur = s.cur := rfl
@[simp] theorem writeNxtLo_nxt : (s.writeNxtLo v).nxt = { s.nxt with lo := v } := rfl
@[simp] theorem writeNxtLo_ifid : (s.writeNxtLo v).ifid = s.ifid := rfl
@[simp] theorem writeNxtLo_idex : (s.writeNxtLo v).idex = s.idex := rfl
@[simp] theorem writeNxtLo_exmem : (s.writeNxtLo v).exmem = s.exmem := rfl
@[simp] theorem writeNxtLo_memwb : (s.writeNxtLo v).memwb = s.memwb := rfl
@[simp] theorem writeNxtLo_mem : (s.writeNxtLo v).mem = s.mem := rfl
@[simp] theorem writeNxtLo_cycles : (s.writeNxtLo v).cycles = s.cycles := rfl
@[simp] theorem writeNxtLo_retired : (s.writeNxtLo v).retired = s.retired := rfl
@[simp] theorem writeNxtLo_running : (s.writeNxtLo v).running = s.running := rfl
@[simp] theorem writeNxtLo_diag : (s.writeNxtLo v).diag = s.diag := rfl
@[simp] theorem writeNxtLo_faulted : (s.writeNxtLo v).faulted = s.faulted := rfl
@[simp] theorem writeNxtLo_stage : (s.writeNxtLo v).stage = s.stage := rfl
end writeNxtLo

section writeNxtPc
variable (s : State) (v : Word)
@[simp] theorem writeNxtPc_cfg : (s.writeNxtPc v).cfg = s.cfg := rfl
@[simp] theorem writeNxtPc_cur : (s.writeNxtPc v).cur = s.cur := rfl
@[simp] theorem writeNxtPc_nxt : (s.writeNxtPc v).nxt = { s.nxt with pc := v } := rfl
@[simp] theorem writeNxtPc_ifid : (s.writeNxtPc v).ifid = s.ifid := rfl
@[simp] theorem writeNxtPc_idex : (s.writeNxtPc v).idex = s.idex := rfl
@[simp] theorem writeNxtPc_exmem : (s.writeNxtPc v).exmem = s.exmem := rfl
@[simp] theorem writeNxtPc_memwb : (s.writeNxtPc v).memwb = s.memwb := rfl
@[simp] theorem writeNxtPc_mem : (s.writeNxtPc v).mem = s.mem := rfl
@[simp] theorem writeNxtPc_cycles : (s.writeNxtPc v).cycles = s.cycles := rfl
@[simp] theorem writeNxtPc_retired : (s.writeNxtPc v).retired = s.retired := rfl
@[simp] theorem writeNxtPc_running : (s.writeNxtPc v).running = s.running := rfl
@[simp] theorem writeNxtPc_diag : (s.writeNxtPc v).diag = s.diag := rfl
@[simp] theorem writeNxtPc_faulted : (s.writeNxtPc v).faulted = s.faulted := rfl
@[simp] theorem writeNxtPc_stage : (s.writeNxtPc v).stage = s.stage := rfl
end writeNxtPc

section setIfid
variable (s : State) (l : Latch)
@[simp] theorem setIfid_cfg : (s.setIfid l).cfg = s.cfg := rfl
@[simp] theorem setIfid_cur : (s.setIfid l).cur = s.cur := rfl
@[simp] theorem setIfid_nxt : (s.setIfid l).nxt = s.nxt := rfl
@[simp] theorem setIfid_ifid : (s.setIfid l).ifid = l := rfl
@[simp] theorem setIfid_idex : (s.setIfid l).idex = s.idex := rfl
@[simp] theorem setIfid_exmem : (s.setIfid l).exmem = s.exmem := rfl
@[simp] theorem setIfid_memwb : (s.setIfid l).memwb = s.memwb := rfl
@[simp] theorem setIfid_mem : (s.setIfid l).mem = s.mem := rfl
@[simp] theorem setIfid_cycles : (s.setIfid l).cycles = s.cycles := rfl
@[simp] theorem setIfid_retired : (s.setIfid l).retired = s.retired := rfl
@[simp] theorem setIfid_running : (s.setIfid l).running = s.running := rfl
@[simp] theorem setIfid_diag : (s.setIfid l).diag = s.diag := rfl
@[simp] theorem setIfid_faulted : (s.setIfid l).faulted = s.faulted := rfl
@[simp] theorem setIfid_stage : (s.setIfid l).stage = s.stage := rfl
end setIfid

section setIdex
variable (s : State) (l : Latch)
@[simp] theorem setIdex_cfg : (s.setIdex l).cfg = s.cfg := rfl
@[simp] theorem setIdex_cur : (s.setIdex l).cur = s.cur := rfl
@[simp] theorem setIdex_nxt : (s.setIdex l).nxt = s.nxt := rfl
@[simp] theorem setIdex_ifid : (s.setIdex l).ifid = s.ifid := rfl
@[simp] theorem setIdex_idex : (s.setIdex l).idex = l := rfl
@[simp] theorem setIdex_exmem : (s.setIdex l).exmem = s.exmem := rfl
@[simp] theorem setIdex_memwb : (s.setIdex l).memwb = s.memwb := rfl
@[simp] theorem setIdex_mem : (s.setIdex l).mem = s.mem := rfl
@[simp] theorem setIdex_cycles : (s.setIdex l).cycles = s.cycles := rfl
@[simp] theorem setIdex_retired : (s.setIdex l).retired = s.retired := rfl
@[simp] theorem setIdex_running : (s.setIdex l).running = s.running := rfl
@[simp] theorem setIdex_diag : (s.setIdex l).diag = s.diag := rfl
@[simp] theorem setIdex_faulted : (s.setIdex l).faulted = s.faulted := rfl
@[simp] theorem setIdex_stage : (s.setIdex l).stage = s.stage := rfl
end setIdex

section setExmem
variable (s : State) (l : Latch)
@[simp] theorem setExmem_cfg : (s.setExmem l).cfg = s.cfg := rfl
@[simp] theorem setExmem_cur : (s.setExmem l).cur = s.cur := rfl
@[simp] theorem setExmem_nxt : (s.setExmem l).nxt = s.nxt := rfl
@[simp] theorem setExmem_ifid : (s.setExmem l).ifid = s.ifid := rfl
@[simp] theorem setExmem_idex : (s.setExmem l).idex = s.idex := rfl
@[simp] theorem setExmem_exmem : (s.setExmem l).exmem = l := rfl
@[simp] theorem setExmem_memwb : (s.setExmem l).memwb = s.memwb := rfl
@[simp] theorem setExmem_mem : (s.setExmem l).mem = s.mem := rfl
@[simp] theorem setExmem_cycles : (s.setExmem l).cycles = s.cycles := rfl
@[simp] theorem setExmem_retired : (s.setExmem l).retired = s.retired := rfl
@[simp] theorem setExmem_running : (s.setExmem l).running = s.running := rfl
@[simp] theorem setExmem_diag : (s.setExmem l).diag = s.diag := rfl
@[simp] theorem setExmem_faulted : (s.setExmem l).faulted = s.faulted := rfl
@[simp] theorem setExmem_stage : (s.setExmem l).stage = s.stage := rfl
end setExmem

section setMemwb
variable (s : State) (l : Latch)
@[simp] theorem setMemwb_cfg : (s.setMemwb l).cfg = s.cfg := rfl
@[simp] theorem setMemwb_cur : (s.setMemwb l).cur = s.cur := rfl
@[simp] theorem setMemwb_nxt : (s.setMemwb l).nxt = s.nxt := rfl
@[simp] theorem setMemwb_ifid : (s.setMemwb l).ifid = s.ifid := rfl
@[simp] theorem setMemwb_idex : (s.setMemwb l).idex = s.idex := rfl
@[simp] theorem setMemwb_exmem : (s.setMemwb l).exmem = s.exmem := rfl
@[simp] theorem setMemwb_memwb : (s.setMemwb l).memwb = l := rfl
@[simp] theorem setMemwb_mem : (s.setMemwb l).mem = s.mem := rfl
@[simp] theorem setMemwb_cycles : (s.setMemwb l).cycles = s.cycles := rfl
@[simp] theorem setMemwb_retired : (s.setMemwb l).retired = s.retired := rfl
@[simp] theorem setMemwb_running : (s.setMemwb l).running = s.running := rfl
@[simp] theorem setMemwb_diag : (s.setMemwb l).diag = s.diag := rfl
@[simp] theorem setMemwb_faulted : (s.setMemwb l).faulted = s.faulted := rfl
@[simp] theorem setMemwb_stage : (s.setMemwb l).stage = s.stage := rfl
end setMemwb

section setMem
variable (s : State) (m : Memory)
@[simp] theorem setMem_cfg : (s.setMem m).cfg = s.cfg := rfl
@[simp] theorem setMem_cur : (s.setMem m).cur = s.cur := rfl
@[simp] theorem setMem_nxt : (s.setMem m).nxt = s.nxt := rfl
@[simp] theorem setMem_ifid : (s.setMem m).ifid = s.ifid := rfl
@[simp] theorem setMem_idex : (s.setMem m).idex = s.idex := rfl
@[simp] theorem setMem_exmem : (s.setMem m).exmem = s.exmem := rfl
@[simp] theorem setMem_memwb : (s.setMem m).memwb = s.memwb := rfl
@[simp] theorem setMem_mem : (s.setMem m).mem = m := rfl
@[simp] theorem setMem_cycles : (s.setMem m).cycles = s.cycles := rfl
@[simp] theorem setMem_retired : (s.setMem m).retired = s.retired := rfl
@[simp] theorem setMem_running : (s.setMem m).running = s.running := rfl
@[simp] theorem setMem_diag : (s.setMem m).diag = s.diag := rfl
@[simp] theorem setMem_faulted : (s.setMem m).faulted = s.faulted := rfl
@[simp] theorem setMem_stage : (s.setMem m).stage = s.stage := rfl
end setMem

section retire
variable (s : State)
@[simp] theorem retire_cfg : s.retire.cfg = s.cfg := rfl
@[simp] theorem retire_cur : s.retire.cur = s.cur := rfl
@[simp] theorem retire_nxt : s.retire.nxt = s.nxt := rfl
@[simp] theorem retire_ifid : s.retire.ifid = s.ifid := rfl
@[simp] theorem retire_idex : s.retire.idex = s.idex := rfl
@[simp] theorem retire_exmem : s.retire.exmem = s.exmem := rfl
@[simp] theorem retire_memwb : s.retire.memwb = s.memwb := rfl
@[simp] theorem retire_mem : s.retire.mem = s.mem := rfl
@[simp] theorem retire_cycles : s.retire.cycles = s.cycles := rfl
@[simp] theorem retire_retired : s.retire.retired = s.retired + 1 := rfl
@[simp] theorem retire_running : s.retire.running = s.running := rfl
@[simp] theorem retire_diag : s.retire.diag = s.diag := rfl
@[simp] theorem retire_faulted : s.retire.faulted = s.faulted := rfl
@[simp] theorem retire_stage : s.retire.stage = s.stage := rfl
end retire

section atStage
variable (s : State) (st : Stage)
@[simp] theorem atStage_cfg : (s.atStage st).cfg = s.cfg := rfl
@[simp] theorem atStage_cur : (s.atStage st).cur = s.cur := rfl
@[simp] theorem atStage_nxt : (s.atStage st).nxt = s.nxt := rfl
@[simp] theorem atStage_ifid : (s.atStage st).ifid = s.ifid := rfl
@[simp] theorem atStage_idex : (s.atStage st).idex = s.idex := rfl
@[simp] theorem atStage_exmem : (s.atStage st).exmem = s.exmem := rfl
@[simp] theorem atStage_memwb : (s.atStage st).memwb = s.memwb := rfl
@[simp] theorem atStage_mem : (s.atStage st).mem = s.mem := rfl
@[simp] theorem atStage_cycles : (s.atStage st).cycles = s.cycles := rfl
@[simp] theorem atStage_retired : (s.atStage st).retired = s.retired := rfl
@[simp] theorem atStage_running : (s.atStage st).running = s.running := rfl
@[simp] theorem atStage_diag : (s.atStage st).diag = s.diag := rfl
@[simp] theorem atStage_faulted : (s.atStage st).faulted = s.faulted := rfl
@[simp] theorem atStage_stage : (s.atStage st).stage = st := (rfl)
end atStage

section raiseDiag
variable (s : State) (k : DiagKind)
@[simp] theorem raiseDiag_cfg : (s.raiseDiag k).cfg = s.cfg := rfl
@[simp] theorem raiseDiag_cur : (s.raiseDiag k).cur = s.cur := rfl
@[simp] theorem raiseDiag_nxt : (s.raiseDiag k).nxt = s.nxt := rfl
@[simp] theorem raiseDiag_ifid : (s.raiseDiag k).ifid = s.ifid := rfl
@[simp] theorem raiseDiag_idex : (s.raiseDiag k).idex = s.idex := rfl
@[simp] theorem raiseDiag_exmem : (s.raiseDiag k).exmem = s.exmem := rfl
@[simp] theorem raiseDiag_memwb : (s.raiseDiag k).memwb = s.memwb := rfl
@[simp] theorem raiseDiag_mem : (s.raiseDiag k).mem = s.mem := rfl
@[simp] theorem raiseDiag_cycles : (s.raiseDiag k).cycles = s.cycles := rfl
@[simp] theorem raiseDiag_retired : (s.raiseDiag k).retired = s.retired := rfl
@[simp] theorem raiseDiag_running : (s.raiseDiag k).running = s.running := rfl
@[simp] theorem raiseDiag_diag : (s.raiseDiag k).diag = s.diag ++ [⟨s.cycles, k, s.idex.ir⟩] := rfl
@[simp] theorem raiseDiag_faulted : (s.raiseDiag k).faulted = s.faulted := rfl
@[simp] theorem raiseDiag_stage : (s.raiseDiag k).stage = s.stage := rfl
end raiseDiag

section markFaulted
variable (s : State) (f : Fault)
@[simp] theorem markFaulted_cfg : (s.markFaulted f).cfg = s.cfg := rfl
@[simp] theorem markFaulted_cur : (s.markFaulted f).cur = s.cur := rfl
@[simp] theorem markFaulted_nxt : (s.markFaulted f).nxt = s.nxt := rfl
@[simp] theorem markFaulted_ifid : (s.markFaulted f).ifid = s.ifid := rfl
@[simp] theorem markFaulted_idex : (s.markFaulted f).idex = s.idex := rfl
@[simp] theorem markFaulted_exmem : (s.markFaulted f).exmem = s.exmem := rfl
@[simp] theorem markFaulted_memwb : (s.markFaulted f).memwb = s.memwb := rfl
@[simp] theorem markFaulted_mem : (s.markFaulted f).mem = s.mem := rfl
@[simp] theorem markFaulted_cycles : (s.markFaulted f).cycles = s.cycles := rfl
@[simp] theorem markFaulted_retired : (s.markFaulted f).retired = s.retired := rfl
@[simp] theorem markFaulted_running : (s.markFaulted f).running = s.running := rfl
@[simp] theorem markFaulted_diag : (s.markFaulted f).diag = s.diag := rfl
@[simp] theorem markFaulted_faulted : (s.markFaulted f).faulted = some f := rfl
@[simp] theorem markFaulted_stage : (s.markFaulted f).stage = s.stage := rfl
end markFaulted

section commit
variable (s : State)
@[simp] theorem commit_cfg : s.commit.cfg = s.cfg := rfl
@[simp] theorem commit_cur : s.commit.cur = s.nxt := rfl
@[simp] theorem commit_nxt : s.commit.nxt = s.nxt := rfl
@[simp] theorem commit_ifid : s.commit.ifid = s.ifid := rfl
@[simp] theorem commit_idex : s.commit.idex = s.idex := rfl
@[simp] theorem commit_exmem : s.commit.exmem = s.exmem := rfl
@[simp] theorem commit_memwb : s.commit.memwb = s.memwb := rfl
@[simp] theorem commit_mem : s.commit.mem = s.mem := rfl
@[simp] theorem commit_cycles : s.commit.cycles = s.cycles + 1 := rfl
@[simp] theorem commit_retired : s.commit.retired = s.retired := rfl
@[simp] theorem commit_running : s.commit.running = s.running := rfl
@[simp] theorem commit_diag : s.commit.diag = s.diag := rfl
@[simp] theorem commit_faulted : s.commit.faulted = s.faulted := rfl
@[simp] theorem commit_stage : s.commit.stage = s.stage := rfl
end commit

section writebackTo
variable (s : State) (d : RegNum) (v : Word)
@[simp] theorem writebackTo_cfg : (s.writebackTo d v).cfg = s.cfg := rfl
@[simp] theorem writebackTo_cur : (s.writebackTo d v).cur = s.cur := rfl
@[simp] theorem writebackTo_nxt : (s.writebackTo d v).nxt = s.nxt.write d v := rfl
@[simp] theorem writebackTo_ifid : (s.writebackTo d v).ifid = s.ifid := rfl
@[simp] theorem writebackTo_idex : (s.writebackTo d v).idex = s.idex := rfl
@[simp] theorem writebackTo_exmem : (s.writebackTo d v).exmem = s.exmem := rfl
@[simp] theorem writebackTo_memwb : (s.writebackTo d v).memwb = s.memwb := rfl
@[simp] theorem writebackTo_mem : (s.writebackTo d v).mem = s.mem := rfl
@[simp] theorem writebackTo_cycles : (s.writebackTo d v).cycles = s.cycles := rfl
@[simp] theorem writebackTo_retired : (s.writebackTo d v).retired = s.retired + 1 := rfl
@[simp] theorem writebackTo_running : (s.writebackTo d v).running = s.running := rfl
@[simp] theorem writebackTo_diag : (s.writebackTo d v).diag = s.diag := rfl
@[simp] theorem writebackTo_faulted : (s.writebackTo d v).faulted = s.faulted := rfl
@[simp] theorem writebackTo_stage : (s.writebackTo d v).stage = s.stage := rfl
end writebackTo

section executeResult
variable (s : State) (v : Word)
@[simp] theorem executeResult_cfg : (s.executeResult v).cfg = s.cfg := rfl
@[simp] theorem executeResult_cur : (s.executeResult v).cur = s.cur := rfl
@[simp] theorem executeResult_nxt : (s.executeResult v).nxt = s.nxt := rfl
@[simp] theorem executeResult_ifid : (s.executeResult v).ifid = s.ifid := rfl
@[simp] theorem executeResult_idex : (s.executeResult v).idex = s.idex := rfl
@[simp] theorem executeResult_exmem : (s.executeResult v).exmem = { s.idex with aluOutput := v, lmd := 0 } := rfl
@[simp] theorem executeResult_memwb : (s.executeResult v).memwb = s.memwb := rfl
@[simp] theorem executeResult_mem : (s.executeResult v).mem = s.mem := rfl
@[simp] theorem executeResult_cycles : (s.executeResult v).cycles = s.cycles := rfl
@[simp] theorem executeResult_retired : (s.executeResult v).retired = s.retired := rfl
@[simp] theorem executeResult_running : (s.executeResult v).running = s.running := rfl
@[simp] theorem executeResult_diag : (s.executeResult v).diag = s.diag := rfl
@[simp] theorem executeResult_faulted : (s.executeResult v).faulted = s.faulted := rfl
@[simp] theorem executeResult_stage : (s.executeResult v).stage = s.stage := rfl
end executeResult

section memoryPass
variable (s : State)
@[simp] theorem memoryPass_cfg : (s.memoryPass).cfg = s.cfg := rfl
@[simp] theorem memoryPass_cur : (s.memoryPass).cur = s.cur := rfl
@[simp] theorem memoryPass_nxt : (s.memoryPass).nxt = s.nxt := rfl
@[simp] theorem memoryPass_ifid : (s.memoryPass).ifid = s.ifid := rfl
@[simp] theorem memoryPass_idex : (s.memoryPass).idex = s.idex := rfl
@[simp] theorem memoryPass_exmem : (s.memoryPass).exmem = s.exmem := rfl
@[simp] theorem memoryPass_memwb : (s.memoryPass).memwb = { s.exmem with lmd := 0 } := rfl
@[simp] theorem memoryPass_mem : (s.memoryPass).mem = s.mem := rfl
@[simp] theorem memoryPass_cycles : (s.memoryPass).cycles = s.cycles := rfl
@[simp] theorem memoryPass_retired : (s.memoryPass).retired = s.retired := rfl
@[simp] theorem memoryPass_running : (s.memoryPass).running = s.running := rfl
@[simp] theorem memoryPass_diag : (s.memoryPass).diag = s.diag := rfl
@[simp] theorem memoryPass_faulted : (s.memoryPass).faulted = s.faulted := rfl
@[simp] theorem memoryPass_stage : (s.memoryPass).stage = s.stage := rfl
end memoryPass

@[simp] theorem executeNothing_eq (s : State) : s.executeNothing = s.executeResult 0 := rfl
@[simp] theorem writebackNothing_eq (s : State) : s.writebackNothing = s := rfl

section hostSetReg
variable (s : State) (r : RegNum) (v : Word)
@[simp] theorem hostSetReg_cfg : (s.hostSetReg r v).cfg = s.cfg := rfl
@[simp] theorem hostSetReg_cur : (s.hostSetReg r v).cur = s.cur.write r v := rfl
@[simp] theorem hostSetReg_nxt : (s.hostSetReg r v).nxt = s.nxt.write r v := rfl
@[simp] theorem hostSetReg_ifid : (s.hostSetReg r v).ifid = s.ifid := rfl
@[simp] theorem hostSetReg_idex : (s.hostSetReg r v).idex = s.idex := rfl
@[simp] theorem hostSetReg_exmem : (s.hostSetReg r v).exmem = s.exmem := rfl
@[simp] theorem hostSetReg_memwb : (s.hostSetReg r v).memwb = s.memwb := rfl
@[simp] theorem hostSetReg_mem : (s.hostSetReg r v).mem = s.mem := rfl
@[simp] theorem hostSetReg_cycles : (s.hostSetReg r v).cycles = s.cycles := rfl
@[simp] theorem hostSetReg_retired : (s.hostSetReg r v).retired = s.retired := rfl
@[simp] theorem hostSetReg_running : (s.hostSetReg r v).running = s.running := rfl
@[simp] theorem hostSetReg_diag : (s.hostSetReg r v).diag = s.diag := rfl
@[simp] theorem hostSetReg_faulted : (s.hostSetReg r v).faulted = s.faulted := rfl
@[simp] theorem hostSetReg_stage : (s.hostSetReg r v).stage = s.stage := rfl
end hostSetReg

section hostSetHi
variable (s : State) (v : Word)
@[simp] theorem hostSetHi_cfg : (s.hostSetHi v).cfg = s.cfg := rfl
@[simp] theorem hostSetHi_cur : (s.hostSetHi v).cur = { s.cur with hi := v } := rfl
@[simp] theorem hostSetHi_nxt : (s.hostSetHi v).nxt = { s.nxt with hi := v } := rfl
@[simp] theorem hostSetHi_ifid : (s.hostSetHi v).ifid = s.ifid := rfl
@[simp] theorem hostSetHi_idex : (s.hostSetHi v).idex = s.idex := rfl
@[simp] theorem hostSetHi_exmem : (s.hostSetHi v).exmem = s.exmem := rfl
@[simp] theorem hostSetHi_memwb : (s.hostSetHi v).memwb = s.memwb := rfl
@[simp] theorem hostSetHi_mem : (s.hostSetHi v).mem = s.mem := rfl
@[simp] theorem hostSetHi_cycles : (s.hostSetHi v).cycles = s.cycles := rfl
@[simp] theorem hostSetHi_retired : (s.hostSetHi v).retired = s.retired := rfl
@[simp] theorem hostSetHi_running : (s.hostSetHi v).running = s.running := rfl
@[simp] theorem hostSetHi_diag : (s.hostSetHi v).diag = s.diag := rfl
@[simp] theorem hostSetHi_faulted : (s.hostSetHi v).faulted = s.faulted := rfl
@[simp] theorem hostSetHi_stage : (s.hostSetHi v).stage = s.stage := rfl
end hostSetHi

section hostSetLo
variable (s : State) (v : Word)
@[simp] theorem hostSetLo_cfg : (s.hostSetLo v).cfg = s.cfg := rfl
@[simp] theorem hostSetLo_cur : (s.hostSetLo v).cur = { s.cur with lo := v } := rfl
@[simp] theorem hostSetLo_nxt : (s.hostSetLo v).nxt = { s.nxt with lo := v } := rfl
@[simp] theorem hostSetLo_ifid : (s.hostSetLo v).ifid = s.ifid := rfl
@[simp] theorem hostSetLo_idex : (s.hostSetLo v).idex = s.idex := rfl
@[simp] theorem hostSetLo_exmem : (s.hostSetLo v).exmem = s.exmem := rfl
@[simp] theorem hostSetLo_memwb : (s.hostSetLo v).memwb = s.memwb := rfl
@[simp] theorem hostSetLo_mem : (s.hostSetLo v).mem = s.mem := rfl
@[simp] theorem hostSetLo_cycles : (s.hostSetLo v).cycles = s.cycles := rfl
@[simp] theorem hostSetLo_retired : (s.hostSetLo v).retired = s.retired := rfl
@[simp] theorem hostSetLo_running : (s.hostSetLo v).running = s.running := rfl
@[simp] theorem hostSetLo_diag : (s.hostSetLo v).diag = s.diag := rfl
@[simp] theorem hostSetLo_faulted : (s.hostSetLo v).faulted = s.faulted := rfl
@[simp] theorem hostSetLo_stage : (s.hostSetLo v).stage = s.stage := rfl
end hostSetLo

section hostSetRunning
variable (s : State) (v : Bool)
@[simp] theorem hostSetRunning_cfg : (s.hostSetRunning v).cfg = s.cfg := rfl
@[simp] theorem hostSetRunning_cur : (s.hostSetRunning v).cur = s.cur := rfl
@[simp] theorem hostSetRunning_nxt : (s.hostSetRunning v).nxt = s.nxt := rfl
@[simp] theorem hostSetRunning_ifid : (s.hostSetRunning v).ifid = s.ifid := rfl
@[simp] theorem hostSetRunning_idex : (s.hostSetRunning v).idex = s.idex := rfl
@[simp] theorem hostSetRunning_exmem : (s.hostSetRunning v).exmem = s.exmem := rfl
@[simp] theorem hostSetRunning_memwb : (s.hostSetRunning v).memwb = s.memwb := rfl
@[simp] theorem hostSetRunning_mem : (s.hostSetRunning v).mem = s.mem := rfl
@[simp] theorem hostSetRunning_cycles : (s.hostSetRunning v).cycles = s.cycles := rfl
@[simp] theorem hostSetRunning_retired : (s.hostSetRunning v).retired = s.retired := rfl
@[simp] theorem hostSetRunning_running : (s.hostSetRunning v).running = v := rfl
@[simp] theorem hostSetRunning_diag : (s.hostSetRunning v).diag = s.diag := rfl
@[simp] theorem hostSetRunning_faulted : (s.hostSetRunning v).faulted = s.faulted := rfl
@[simp] theorem hostSetRunning_stage : (s.hostSetRunning v).stage = s.stage := rfl
end hostSetRunning

end State

end Sys2Proof.Machine
end

