-- ==== Sys2Proof/Laws/Registers.lean ====
section
/-! SUPPORT. The general registers: a read after a write, and what a write leaves alone. -/

namespace Sys2Proof.Machine

@[simp] theorem Arch.write_pc (m : Arch) (r : RegNum) (v : Word) : (m.write r v).pc = m.pc := rfl
@[simp] theorem Arch.write_hi (m : Arch) (r : RegNum) (v : Word) : (m.write r v).hi = m.hi := rfl
@[simp] theorem Arch.write_lo (m : Arch) (r : RegNum) (v : Word) : (m.write r v).lo = m.lo := rfl

@[simp] theorem Arch.read_with_pc (m : Arch) (r : RegNum) (v : Word) : Arch.read { m with pc := v } r = m.read r := rfl
@[simp] theorem Arch.read_with_hi (m : Arch) (r : RegNum) (v : Word) : Arch.read { m with hi := v } r = m.read r := rfl
@[simp] theorem Arch.read_with_lo (m : Arch) (r : RegNum) (v : Word) : Arch.read { m with lo := v } r = m.read r := rfl

@[simp] theorem Arch.read_write_same (m : Arch) (r : RegNum) (v : Word) : (m.write r v).read r = v := by
  simp [Arch.read, Arch.write]

@[simp] theorem Arch.read_atReset (c : Config) (r : RegNum) : (Arch.atReset c).read r = 0 := by
  simp [Arch.atReset, Arch.read]

theorem Arch.read_write_other (m : Arch) {r q : RegNum} (v : Word) (h : q ≠ r) : (m.write r v).read q = m.read q := by
  have : r.toNat ≠ q.toNat := fun e => h (BitVec.eq_of_toNat_eq e.symm)
  simp [Arch.read, Arch.write, this]

theorem Arch.read_write (m : Arch) (r q : RegNum) (v : Word) :
    (m.write r v).read q = if q = r then v else m.read q := by
  split
  · next h => subst h; exact m.read_write_same q v
  · next h => exact m.read_write_other v h

/-- Two instances with the same registers, pc, HI and LO are the same. -/
theorem Arch.ext_read {m n : Arch} (hx : ∀ r, m.read r = n.read r) (hpc : m.pc = n.pc) (hhi : m.hi = n.hi) (hlo : m.lo = n.lo) :
    m = n := by
  have hxs : m.x = n.x := by
    apply Vector.ext
    intro i hi
    have h := hx (BitVec.ofNat 5 i)
    have e : (BitVec.ofNat 5 i).toNat = i := by simp; omega
    simpa [Arch.read, e] using h
  cases m; cases n; simp_all

end Sys2Proof.Machine
end

