-- ==== Sys2Proof/Laws/Stages.lean ====
section
/-! SUPPORT. Everything a word's share of a stage can do, said once: for the shapes of Ops.lean, for every instruction, and for every
word, recognized or not. -/

namespace Sys2Proof.Machine

/-- A side effect of Execute: only HI, LO and the diagnostic log. -/
def HiLoEffect (e : State → State) : Prop :=
  ∀ s, ∃ hi lo d, e s = { s with nxt := { s.nxt with hi := hi, lo := lo }, diag := s.diag ++ d } ∧
    (d = [] ∨ ∃ k, d = [⟨s.cycles, k, s.idex.ir⟩])

/-- What Execute can do: EX/MEM is reassigned, HI, LO and the log may be written, and nothing else changes. -/
def ExecuteDoes (s t : State) : Prop :=
  ∃ v hi lo d,
    t = { s with
      exmem := { s.idex with aluOutput := v, lmd := 0 }
      nxt := { s.nxt with hi := hi, lo := lo }
      diag := s.diag ++ d } ∧
    (d = [] ∨ ∃ k, d = [⟨s.cycles, k, s.idex.ir⟩])

/-- What MemoryAccess can do: MEM/WB is reassigned, and at most one access is made at `EXMEM.aluOutput`. -/
def MemoryDoes (s t : State) : Prop :=
  t = s.memoryPass ∨
  (∃ w mask, memRead s.cfg.regions s.mem s.exmem.aluOutput = .ok w ∧ t = s.setMemwb { s.exmem with lmd := w &&& mask }) ∨
  (∃ m, memWrite s.cfg.regions s.mem s.exmem.aluOutput s.exmem.b = .ok m ∧ t = s.memoryPass.setMem m) ∨
  (∃ f, memRead s.cfg.regions s.mem s.exmem.aluOutput = .error f ∧ t = s.memoryPass.markFaulted f)

/-- What Writeback can do: at most one register of `nxt` is written, and the retired counter may rise by one. -/
def WritebackDoes (s t : State) : Prop := t = s ∨ t = s.retire ∨ ∃ d v, t = s.writebackTo d v

/-- The three stages of a word's work. -/
structure WordWork (f : State → Result) : Prop where
  execute      : ∀ s, s.stage = .execute → ∃ t, f s = .next t ∧ ExecuteDoes s t
  memoryAccess : ∀ s, s.stage = .memoryAccess → ∃ t, f s = .next t ∧ MemoryDoes s t
  writeback    : ∀ s, s.stage = .writeback → ∃ t, f s = .next t ∧ WritebackDoes s t

/-! ## The running stage selects the share -/

section StageWork
variable {ex mem wb : State → State} {s : State}

@[simp] theorem stageWork_execute (h : s.stage = .execute) : stageWork ex mem wb s = .next (ex s) := by simp [stageWork, h]
@[simp] theorem stageWork_memoryAccess (h : s.stage = .memoryAccess) : stageWork ex mem wb s = .next (mem s) := by simp [stageWork, h]
@[simp] theorem stageWork_writeback (h : s.stage = .writeback) : stageWork ex mem wb s = .next (wb s) := by simp [stageWork, h]

end StageWork

/-! ## The four shapes, stage by stage -/

section Shapes
variable {d : RegNum} {mask : Word} {f : State → Word} {e : State → State} {s : State}

@[simp] theorem resultTo_execute (h : s.stage = .execute) : resultTo d f s = .next (s.executeResult (f s)) := stageWork_execute h
@[simp] theorem resultTo_memoryAccess (h : s.stage = .memoryAccess) : resultTo d f s = .next s.memoryPass :=
  stageWork_memoryAccess h
@[simp] theorem resultTo_writeback (h : s.stage = .writeback) : resultTo d f s = .next (s.writebackTo d s.memwb.aluOutput) :=
  stageWork_writeback h

@[simp] theorem effectOnly_execute (h : s.stage = .execute) : effectOnly d e s = .next (e s).executeNothing := stageWork_execute h
@[simp] theorem effectOnly_memoryAccess (h : s.stage = .memoryAccess) : effectOnly d e s = .next s.memoryPass :=
  stageWork_memoryAccess h
@[simp] theorem effectOnly_writeback (h : s.stage = .writeback) : effectOnly d e s = .next (s.writebackNoDest d) :=
  stageWork_writeback h

@[simp] theorem loadTo_execute (h : s.stage = .execute) : loadTo d mask f s = .next (s.executeResult (f s)) := stageWork_execute h
@[simp] theorem loadTo_memoryAccess (h : s.stage = .memoryAccess) : loadTo d mask f s = .next (s.memoryLoad mask) :=
  stageWork_memoryAccess h
@[simp] theorem loadTo_writeback (h : s.stage = .writeback) : loadTo d mask f s = .next (s.writebackTo d s.memwb.lmd) :=
  stageWork_writeback h

@[simp] theorem storeFrom_execute (h : s.stage = .execute) : storeFrom d f s = .next (s.executeResult (f s)) :=
  stageWork_execute h
@[simp] theorem storeFrom_memoryAccess (h : s.stage = .memoryAccess) : storeFrom d f s = .next s.memoryStore :=
  stageWork_memoryAccess h
@[simp] theorem storeFrom_writeback (h : s.stage = .writeback) : storeFrom d f s = .next (s.writebackNoDest d) :=
  stageWork_writeback h

end Shapes

/-! ## The frames -/

theorem executeResult_does (s : State) (v : Word) : ExecuteDoes s (s.executeResult v) :=
  ⟨v, s.nxt.hi, s.nxt.lo, [], by simp [State.executeResult, State.setExmem], .inl rfl⟩

theorem memoryPass_does (s : State) : MemoryDoes s s.memoryPass := .inl rfl

theorem memoryLoad_does (s : State) (mask : Word) : MemoryDoes s (s.memoryLoad mask) := by
  rw [State.memoryLoad]
  cases h : memRead s.cfg.regions s.mem s.exmem.aluOutput with
  | ok w => exact .inr (.inl ⟨w, mask, h, rfl⟩)
  | error f => exact .inr (.inr (.inr ⟨f, h, rfl⟩))

theorem memoryStore_does (s : State) : MemoryDoes s s.memoryStore := by
  rw [State.memoryStore]
  cases h : memWrite s.cfg.regions s.mem s.exmem.aluOutput s.exmem.b with
  | ok m => exact .inr (.inr (.inl ⟨m, h, rfl⟩))
  | error f => exact .inr (.inr (.inr ⟨f, memWrite_error_iff_memRead_error.mp h, rfl⟩))

theorem writebackTo_does (s : State) (d : RegNum) (v : Word) : WritebackDoes s (s.writebackTo d v) := .inr (.inr ⟨d, v, rfl⟩)

theorem writebackNoDest_skipNoDest {s : State} (h : s.cfg.wbMode = .skipNoDest) (d : RegNum) : s.writebackNoDest d = s.retire := by
  simp [State.writebackNoDest, h]

theorem writebackNoDest_literal {s : State} (h : s.cfg.wbMode = .literal) (d : RegNum) :
    s.writebackNoDest d = s.writebackTo d s.memwb.aluOutput := by simp [State.writebackNoDest, h]

theorem writebackNoDest_does (s : State) (d : RegNum) : WritebackDoes s (s.writebackNoDest d) := by
  rw [State.writebackNoDest]
  cases s.cfg.wbMode with
  | skipNoDest => exact .inr (.inl rfl)
  | literal => exact writebackTo_does s d _

/-! ## The shapes -/

theorem resultTo_work (d : RegNum) (result : State → Word) : WordWork (resultTo d result) where
  execute s h := ⟨_, stageWork_execute h, executeResult_does s _⟩
  memoryAccess s h := ⟨_, stageWork_memoryAccess h, memoryPass_does s⟩
  writeback s h := ⟨_, stageWork_writeback h, writebackTo_does s d _⟩

theorem effectOnly_work (d : RegNum) {effect : State → State} (he : HiLoEffect effect) : WordWork (effectOnly d effect) where
  execute s h := by
    obtain ⟨hi, lo, dg, e, hd⟩ := he s
    refine ⟨_, stageWork_execute h, 0, hi, lo, dg, ?_, hd⟩
    simp [e, State.executeNothing, State.executeResult, State.setExmem]
  memoryAccess s h := ⟨_, stageWork_memoryAccess h, memoryPass_does s⟩
  writeback s h := ⟨_, stageWork_writeback h, writebackNoDest_does s d⟩

theorem loadTo_work (d : RegNum) (mask : Word) (address : State → Word) : WordWork (loadTo d mask address) where
  execute s h := ⟨_, stageWork_execute h, executeResult_does s _⟩
  memoryAccess s h := ⟨_, stageWork_memoryAccess h, memoryLoad_does s mask⟩
  writeback s h := ⟨_, stageWork_writeback h, writebackTo_does s d _⟩

theorem storeFrom_work (d : RegNum) (address : State → Word) : WordWork (storeFrom d address) where
  execute s h := ⟨_, stageWork_execute h, executeResult_does s _⟩
  memoryAccess s h := ⟨_, stageWork_memoryAccess h, memoryStore_does s⟩
  writeback s h := ⟨_, stageWork_writeback h, writebackNoDest_does s d⟩

theorem execSyscall_work (code : BitVec 20) : WordWork (execSyscall code) where
  execute s h := ⟨_, stageWork_execute h, executeResult_does s _⟩
  memoryAccess s h := ⟨_, stageWork_memoryAccess h, memoryPass_does s⟩
  writeback _ h := ⟨_, stageWork_writeback h, .inl rfl⟩

/-! ## The side effects -/

theorem id_effect : HiLoEffect id := fun s => ⟨s.nxt.hi, s.nxt.lo, [], by simp, .inl rfl⟩

theorem writeNxtHi_effect (v : State → Word) : HiLoEffect fun s => s.writeNxtHi (v s) :=
  fun s => ⟨v s, s.nxt.lo, [], by simp [State.writeNxtHi], .inl rfl⟩

theorem writeNxtLo_effect (v : State → Word) : HiLoEffect fun s => s.writeNxtLo (v s) :=
  fun s => ⟨s.nxt.hi, v s, [], by simp [State.writeNxtLo], .inl rfl⟩

theorem writeProduct_effect : HiLoEffect State.writeProduct :=
  fun s => ⟨productHigh s.idex.a s.idex.b, productLow s.idex.a s.idex.b, [],
    by simp [State.writeProduct, State.writeNxtHi, State.writeNxtLo], .inl rfl⟩

theorem writeQuotient_effect (reading : State → Signedness) : HiLoEffect fun s => s.writeQuotient (reading s) := by
  intro s
  by_cases h : dividesByZero s.idex.b = true
  · exact ⟨s.nxt.hi, s.nxt.lo, [⟨s.cycles, .divideByZero, s.idex.ir⟩], by simp [State.writeQuotient, h, State.raiseDiag],
      .inr ⟨_, rfl⟩⟩
  · exact ⟨remainder (reading s) s.idex.a s.idex.b, quotient (reading s) s.idex.a s.idex.b, [],
      by simp [State.writeQuotient, h, State.writeNxtHi, State.writeNxtLo], .inl rfl⟩

/-! ## Every instruction, and every word -/

/-- Everything an instruction can do in each stage. -/
theorem exec_work (i : Instr) : WordWork (exec i) := by
  cases i with
  | sll | srl | sra | mfhi | mflo | add | addu | sub | subu | and | or | xor | nor | slt => exact resultTo_work _ _
  | addi | addiu | slti | andi | ori | xori | lui => exact resultTo_work _ _
  | lb | lh | lw => exact loadTo_work _ _ _
  | sb | sh | sw => exact storeFrom_work _ _
  | jr | jalr | bltz | bgez | regimmOther | j | jal | beq | bne | blez | bgtz => exact effectOnly_work _ id_effect
  | mthi => exact effectOnly_work _ (writeNxtHi_effect fun s => s.idex.a)
  | mtlo => exact effectOnly_work _ (writeNxtLo_effect fun s => s.idex.a)
  | mult | multu => exact effectOnly_work _ writeProduct_effect
  | div => exact effectOnly_work _ (writeQuotient_effect fun s => s.cfg.divCmp)
  | divu => exact effectOnly_work _ (writeQuotient_effect fun _ => .unsigned)
  | syscall code => exact execSyscall_work code

/-- Everything a word that is no instruction can do. -/
theorem skipWord_work (r : Reject) : WordWork (skipWord r) where
  execute s h := by
    refine ⟨_, stageWork_execute h, ?_⟩
    cases r with
    | unhandledFunction f =>
      exact ⟨0, s.nxt.hi, s.nxt.lo, [⟨s.cycles, .unhandledFunction, s.idex.ir⟩],
        by simp [State.raiseDiag, State.executeNothing, State.executeResult, State.setExmem], .inr ⟨_, rfl⟩⟩
    | unrecognizedOpcode op => exact executeResult_does s 0
    | truncated => exact executeResult_does s 0
  memoryAccess s h := ⟨_, stageWork_memoryAccess h, memoryPass_does s⟩
  writeback _ h := ⟨_, stageWork_writeback h, .inl rfl⟩

theorem runStage_ok {st : Stage} {w : Word} {i : Instr} (h : decodeWord w = .ok i) (s : State) :
    runStage st w s = exec i (s.atStage st) := by simp [runStage, h]

theorem runStage_error {st : Stage} {w : Word} {r : Reject} (h : decodeWord w = .error r) (s : State) :
    runStage st w s = skipWord r (s.atStage st) := by simp [runStage, h]

/-- Everything any word can do in Writeback. -/
theorem runStage_writeback (w : Word) (s : State) :
    ∃ t, runStage .writeback w s = .next t ∧ WritebackDoes (s.atStage .writeback) t := by
  cases h : decodeWord w with
  | ok i => rw [runStage_ok h]; exact (exec_work i).writeback _ rfl
  | error r => rw [runStage_error h]; exact (skipWord_work r).writeback _ rfl

/-- Everything any word can do in MemoryAccess. -/
theorem runStage_memoryAccess (w : Word) (s : State) :
    ∃ t, runStage .memoryAccess w s = .next t ∧ MemoryDoes (s.atStage .memoryAccess) t := by
  cases h : decodeWord w with
  | ok i => rw [runStage_ok h]; exact (exec_work i).memoryAccess _ rfl
  | error r => rw [runStage_error h]; exact (skipWord_work r).memoryAccess _ rfl

/-- Everything any word can do in Execute. -/
theorem runStage_execute (w : Word) (s : State) :
    ∃ t, runStage .execute w s = .next t ∧ ExecuteDoes (s.atStage .execute) t := by
  cases h : decodeWord w with
  | ok i => rw [runStage_ok h]; exact (exec_work i).execute _ rfl
  | error r => rw [runStage_error h]; exact (skipWord_work r).execute _ rfl

/-! ## What each stage leaves alone, field by field -/

/-- Writeback writes registers of `nxt` and the retired counter, and nothing else. -/
theorem WritebackDoes.frame {s t : State} (h : WritebackDoes s t) :
    t = { s with nxt := { s.nxt with x := t.nxt.x }, retired := t.retired } := by
  rcases h with rfl | rfl | ⟨d, v, rfl⟩ <;> rfl

/-- MemoryAccess writes MEM/WB, memory and the fault record, and nothing else. -/
theorem MemoryDoes.frame {s t : State} (h : MemoryDoes s t) :
    t = { s with memwb := { s.exmem with lmd := t.memwb.lmd }, mem := t.mem, faulted := t.faulted } := by
  rcases h with rfl | ⟨w, mask, -, rfl⟩ | ⟨m, -, rfl⟩ | ⟨f, -, rfl⟩ <;> rfl

/-- Execute writes EX/MEM, HI and LO of `nxt`, and the log, and nothing else. -/
theorem ExecuteDoes.frame {s t : State} (h : ExecuteDoes s t) :
    t = { s with
      exmem := { s.idex with aluOutput := t.exmem.aluOutput, lmd := 0 }
      nxt := { s.nxt with hi := t.nxt.hi, lo := t.nxt.lo }
      diag := t.diag } := by
  obtain ⟨v, hi, lo, d, rfl, -⟩ := h
  rfl

/-- MemoryAccess keeps memory canonical. -/
theorem MemoryDoes.wf {s t : State} (h : MemoryDoes s t) (hm : s.mem.wf) : t.mem.wf := by
  rcases h with rfl | ⟨w, mask, -, rfl⟩ | ⟨m, e, rfl⟩ | ⟨f, -, rfl⟩
  · exact hm
  · exact hm
  · exact memWrite_wf hm e
  · exact hm

/-- MemoryAccess keeps memory inside the regions. -/
theorem MemoryDoes.inRegions {s t : State} (h : MemoryDoes s t) (hm : s.mem.InRegions s.cfg.regions) :
    t.mem.InRegions s.cfg.regions := by
  rcases h with rfl | ⟨w, mask, -, rfl⟩ | ⟨m, e, rfl⟩ | ⟨f, -, rfl⟩
  · exact hm
  · exact hm
  · exact memWrite_inRegions hm e
  · exact hm

/-- MemoryAccess records no fault but a straddle at `EXMEM.aluOutput`. -/
theorem MemoryDoes.faulted {s t : State} (h : MemoryDoes s t) :
    t.faulted = s.faulted ∨
      (t.faulted = some (.regionStraddle s.exmem.aluOutput) ∧
        memRead s.cfg.regions s.mem s.exmem.aluOutput = .error (.regionStraddle s.exmem.aluOutput) ∧ t.mem = s.mem) := by
  rcases h with rfl | ⟨w, mask, -, rfl⟩ | ⟨m, e, rfl⟩ | ⟨f, e, rfl⟩
  · exact .inl rfl
  · exact .inl rfl
  · exact .inl rfl
  · obtain rfl := memRead_error e
    exact .inr ⟨rfl, e, rfl⟩

end Sys2Proof.Machine
end

