-- ==== Sys2Proof/Laws/Cycle.lean ====
section
/-! SUPPORT. Everything a step can do, said once: a step is inverted here, and no later proof unfolds `cycle`. -/

namespace Sys2Proof.Machine

/-- A cycle that completes: the states after Writeback, MemoryAccess and Execute, the word fetched, and the state it ends in. -/
structure Completes (s s1 s2 s3 : State) (w : Word) (t : State) : Prop where
  writeback    : runStage .writeback s.memwb.ir s = .next s1
  memoryAccess : runStage .memoryAccess s.exmem.ir s1 = .next s2
  execute      : runStage .execute s.idex.ir s2 = .next s3
  safe         : s2.faulted = none ∧ s3.faulted = none
  fetch        : memRead s.cfg.regions s2.mem s.cur.pc = .ok w
  result       : t = (((s3.setIdex (s.decodedLatch s.ifid.ir s.ifid.pc)).setIfid (s.fetchedLatch w)).writeNxtPc
                    (s.cur.pc + 4)).commit.atStage .writeback

/-- A cycle that MemoryAccess stops. -/
structure StopsInMemory (s s1 s2 : State) (f : Fault) (t : State) : Prop where
  writeback    : runStage .writeback s.memwb.ir s = .next s1
  memoryAccess : runStage .memoryAccess s.exmem.ir s1 = .next s2
  faulted      : s2.faulted = some f
  result       : t = s2.atStage .writeback

/-- A cycle that Fetch stops. -/
structure StopsInFetch (s s1 s2 s3 : State) (f : Fault) (t : State) : Prop where
  writeback    : runStage .writeback s.memwb.ir s = .next s1
  memoryAccess : runStage .memoryAccess s.exmem.ir s1 = .next s2
  execute      : runStage .execute s.idex.ir s2 = .next s3
  safe         : s2.faulted = none ∧ s3.faulted = none
  fetch        : memRead s.cfg.regions s2.mem s.cur.pc = .error f
  result       : t = ((s3.setIdex (s.decodedLatch s.ifid.ir s.ifid.pc)).markFaulted f).atStage .writeback

/-- A step of a state that has faulted. -/
theorem step_faulted {s : State} {f : Fault} (h : s.faulted = some f) : step s = .fault f := by
  simp [step, cycleIfEnabled, h]

/-- Everything a step of a state that has not faulted can do. -/
theorem step_cases (s : State) (hs : s.faulted = none) :
    ∃ t, step s = .next t ∧
      ((∃ s1 s2 s3 w, Completes s s1 s2 s3 w t) ∨ (∃ s1 s2 f, StopsInMemory s s1 s2 f t) ∨
        ∃ s1 s2 s3 f, StopsInFetch s s1 s2 s3 f t) := by
  obtain ⟨s1, e1, d1⟩ := runStage_writeback s.memwb.ir s
  have f1 := d1.frame
  have h1 : s1.faulted = none := by rw [f1]; exact hs
  have x1 : s1.exmem = s.exmem := by rw [f1]; rfl
  obtain ⟨s2, e2, d2⟩ := runStage_memoryAccess s.exmem.ir s1
  have f2 := d2.frame
  have x2 : s2.idex = s.idex := by rw [f2, f1]; rfl
  cases h2 : s2.faulted with
  | some f =>
    refine ⟨s2.atStage .writeback, ?_, .inr (.inl ⟨s1, s2, f, e1, e2, h2, rfl⟩)⟩
    simp only [step, cycleIfEnabled, hs, cycle, e1, andThen, h1, x1, e2, h2]
  | none =>
    obtain ⟨s3, e3, d3⟩ := runStage_execute s.idex.ir s2
    have f3 := d3.frame
    have h3 : s3.faulted = none := by rw [f3]; exact h2
    have mem3 : s3.mem = s2.mem := by rw [f3]; rfl
    have ifid3 : s3.ifid = s.ifid := by rw [f3, f2, f1]; rfl
    have cur3 : s3.cur = s.cur := by rw [f3, f2, f1]; rfl
    have cfg3 : s3.cfg = s.cfg := by rw [f3, f2, f1]; rfl
    have dec : s3.decodeStage = s3.setIdex (s.decodedLatch s.ifid.ir s.ifid.pc) := by
      simp only [State.decodeStage, State.decodedLatch, ifid3, cur3]
    cases hw : memRead s.cfg.regions s2.mem s.cur.pc with
    | error f =>
      refine ⟨_, ?_, .inr (.inr ⟨s1, s2, s3, f, e1, e2, e3, ⟨h2, h3⟩, hw, rfl⟩)⟩
      simp [step, cycleIfEnabled, hs, cycle, e1, andThen, h1, x1, e2, h2, x2, e3, h3, dec, State.fetchStage, cfg3, mem3, cur3,
        hw]
    | ok w =>
      refine ⟨_, ?_, .inl ⟨s1, s2, s3, w, e1, e2, e3, ⟨h2, h3⟩, hw, rfl⟩⟩
      simp [step, cycleIfEnabled, hs, cycle, e1, andThen, h1, x1, e2, h2, x2, e3, h3, dec, State.fetchStage, cfg3, mem3, cur3,
        hw, State.fetchedLatch]

/-- A step that answers a next state comes from a state that has not faulted. -/
theorem step_next_safe {s t : State} (h : step s = .next t) : s.faulted = none := by
  cases hs : s.faulted with
  | none => rfl
  | some f => rw [step_faulted hs] at h; cases h

/-- A step, inverted. -/
theorem step_inv {s t : State} (h : step s = .next t) :
    (∃ s1 s2 s3 w, Completes s s1 s2 s3 w t) ∨ (∃ s1 s2 f, StopsInMemory s s1 s2 f t) ∨
      ∃ s1 s2 s3 f, StopsInFetch s s1 s2 s3 f t := by
  obtain ⟨t', e, c⟩ := step_cases s (step_next_safe h)
  rw [h] at e
  cases e
  exact c

/-- A step to a state that has not faulted, inverted. -/
theorem step_inv_safe {s t : State} (h : step s = .next t) (ht : t.faulted = none) :
    ∃ s1 s2 s3 w, Completes s s1 s2 s3 w t := by
  rcases step_inv h with c | ⟨s1, s2, f, c⟩ | ⟨s1, s2, s3, f, c⟩
  · exact c
  · have := c.faulted; rw [c.result] at ht; simp_all
  · rw [c.result] at ht; simp at ht

namespace Completes
variable {s s1 s2 s3 t : State} {w : Word} (c : Completes s s1 s2 s3 w t)
include c

theorem afterWriteback : WritebackDoes (s.atStage .writeback) s1 := by
  obtain ⟨t', e, d⟩ := runStage_writeback s.memwb.ir s
  rw [c.writeback] at e; cases e; exact d

theorem afterMemory : MemoryDoes (s1.atStage .memoryAccess) s2 := by
  obtain ⟨t', e, d⟩ := runStage_memoryAccess s.exmem.ir s1
  rw [c.memoryAccess] at e; cases e; exact d

theorem afterExecute : ExecuteDoes (s2.atStage .execute) s3 := by
  obtain ⟨t', e, d⟩ := runStage_execute s.idex.ir s2
  rw [c.execute] at e; cases e; exact d

/-- A completed cycle begins in a state that has not faulted. -/
theorem safe_begin : s.faulted = none := by
  have f1 := c.afterWriteback.frame
  have h1 : s1.faulted = s.faulted := by rw [f1]; rfl
  rcases c.afterMemory.faulted with e | ⟨e, -⟩
  · rw [c.safe.1] at e
    rw [← h1]
    exact e.symm
  · rw [c.safe.1] at e; cases e

/-- The state after MemoryAccess, in terms of the state before the cycle. -/
theorem s2_frame : s2 = { s with
    nxt := { s.nxt with x := s1.nxt.x }
    retired := s1.retired
    memwb := { s.exmem with lmd := s2.memwb.lmd }
    mem := s2.mem
    stage := .memoryAccess } := by
  have f1 := c.afterWriteback.frame
  have f2 := c.afterMemory.frame
  rw [c.safe.1, ← c.safe_begin] at f2
  conv_lhs => rw [f2]
  conv_lhs => rw [f1]
  rfl

/-- The state after Execute, in terms of the state before the cycle. -/
theorem s3_frame : s3 = { s with
    nxt := ⟨s1.nxt.x, s.nxt.pc, s3.nxt.hi, s3.nxt.lo⟩
    retired := s1.retired
    exmem := { s.idex with aluOutput := s3.exmem.aluOutput, lmd := 0 }
    memwb := { s.exmem with lmd := s2.memwb.lmd }
    mem := s2.mem
    diag := s3.diag
    stage := .execute } := by
  have f3 := c.afterExecute.frame
  conv_lhs => rw [f3]
  conv_lhs => rw [c.s2_frame]
  rfl

/-- The whole of a completed cycle, in terms of the state before it. -/
theorem frame : t = { s with
    cur := ⟨s1.nxt.x, s.cur.pc + 4, s3.nxt.hi, s3.nxt.lo⟩
    nxt := ⟨s1.nxt.x, s.cur.pc + 4, s3.nxt.hi, s3.nxt.lo⟩
    ifid := { Latch.zero with ir := w, pc := s.cur.pc + 4 }
    idex := s.decodedLatch s.ifid.ir s.ifid.pc
    exmem := { s.idex with aluOutput := s3.exmem.aluOutput, lmd := 0 }
    memwb := { s.exmem with lmd := s2.memwb.lmd }
    mem := s2.mem
    cycles := s.cycles + 1
    retired := s1.retired
    diag := s3.diag
    stage := .writeback } := by
  rw [c.result, c.s3_frame]
  rfl

/-- A completed cycle ends in a state that has not faulted. -/
theorem safe_end : t.faulted = none := by
  rw [c.frame]
  exact c.safe_begin

end Completes

namespace StopsInMemory
variable {s s1 s2 t : State} {f : Fault} (c : StopsInMemory s s1 s2 f t)
include c

theorem afterWriteback : WritebackDoes (s.atStage .writeback) s1 := by
  obtain ⟨t', e, d⟩ := runStage_writeback s.memwb.ir s
  rw [c.writeback] at e; cases e; exact d

theorem afterMemory : MemoryDoes (s1.atStage .memoryAccess) s2 := by
  obtain ⟨t', e, d⟩ := runStage_memoryAccess s.exmem.ir s1
  rw [c.memoryAccess] at e; cases e; exact d

/-- The whole of a cycle that MemoryAccess stops, in terms of the state before it. -/
theorem frame (hs : s.faulted = none) :
    f = .regionStraddle s.exmem.aluOutput ∧
    memRead s.cfg.regions s.mem s.exmem.aluOutput = .error (.regionStraddle s.exmem.aluOutput) ∧
    t = { s with
      nxt := { s.nxt with x := s1.nxt.x }
      retired := s1.retired
      memwb := { s.exmem with lmd := s2.memwb.lmd }
      faulted := some f
      stage := .writeback } := by
  have d2 := c.afterMemory
  have f1 := c.afterWriteback.frame
  have h1 : s1.faulted = none := by rw [f1]; exact hs
  have hx : s1.exmem = s.exmem := by rw [f1]; rfl
  have hc : s1.cfg = s.cfg := by rw [f1]; rfl
  have hm : s1.mem = s.mem := by rw [f1]; rfl
  rcases d2.faulted with e | ⟨e, hr, em⟩
  · rw [c.faulted] at e
    simp [h1] at e
  · simp only [State.atStage_exmem, State.atStage_cfg, State.atStage_mem, hx, hc, hm] at e hr em
    rw [c.faulted] at e
    refine ⟨Option.some.inj e, hr, ?_⟩
    have f2 := d2.frame
    rw [c.faulted, em] at f2
    rw [c.result]
    conv_lhs => rw [f2]
    conv_lhs => rw [f1]
    rfl

end StopsInMemory

namespace StopsInFetch
variable {s s1 s2 s3 t : State} {f : Fault} (c : StopsInFetch s s1 s2 s3 f t)
include c

theorem afterWriteback : WritebackDoes (s.atStage .writeback) s1 := by
  obtain ⟨t', e, d⟩ := runStage_writeback s.memwb.ir s
  rw [c.writeback] at e; cases e; exact d

theorem afterMemory : MemoryDoes (s1.atStage .memoryAccess) s2 := by
  obtain ⟨t', e, d⟩ := runStage_memoryAccess s.exmem.ir s1
  rw [c.memoryAccess] at e; cases e; exact d

theorem afterExecute : ExecuteDoes (s2.atStage .execute) s3 := by
  obtain ⟨t', e, d⟩ := runStage_execute s.idex.ir s2
  rw [c.execute] at e; cases e; exact d

/-- The whole of a cycle that Fetch stops, in terms of the state before it. -/
theorem frame :
    f = .regionStraddle s.cur.pc ∧
    t = { s with
      nxt := ⟨s1.nxt.x, s.nxt.pc, s3.nxt.hi, s3.nxt.lo⟩
      idex := s.decodedLatch s.ifid.ir s.ifid.pc
      exmem := { s.idex with aluOutput := s3.exmem.aluOutput, lmd := 0 }
      memwb := { s.exmem with lmd := s2.memwb.lmd }
      mem := s2.mem
      retired := s1.retired
      diag := s3.diag
      faulted := some f
      stage := .writeback } := by
  refine ⟨memRead_error c.fetch, ?_⟩
  have f3 := c.afterExecute.frame
  have f2 := c.afterMemory.frame
  have f1 := c.afterWriteback.frame
  rw [c.result]
  conv_lhs => rw [f3]
  conv_lhs => rw [f2]
  conv_lhs => rw [f1]
  rfl

end StopsInFetch

/-! ## Runs, and the placed word -/

/-- The guard of the run loops. -/
theorem State.mayRun_iff (s : State) : s.mayRun = true ↔ s.running = true ∧ s.faulted = none := by simp [State.mayRun]

/-- A run takes its first step first. -/
theorem run_succ_next {s t : State} (h : step s = .next t) (n : Nat) :
    Host.Core.run core (n + 1) s = Host.Core.run core n t := by
  have hs : core.step s = .next t := h
  simp only [Host.Core.run, hs]

/-- Memory after a word is placed: what `MemWrite` leaves, and unchanged where it would straddle. -/
theorem placeWord_mem (s : State) (w : Word) :
    (∀ m, memWrite s.cfg.regions s.mem s.cur.pc w = .ok m → (s.placeWord w).mem = m) ∧
    ∀ f, memWrite s.cfg.regions s.mem s.cur.pc w = .error f → (s.placeWord w).mem = s.mem := by
  constructor <;> intro _ h <;> simp [State.placeWord, h]

end Sys2Proof.Machine
end

