-- ==== Sys2Proof/Laws/Operands.lean ====
section
/-! SUPPORT. The operand forms and the comparisons in plain arithmetic. -/

namespace Sys2Proof.Machine

/-! ## Immediates -/

/-- ADDI's second extension changes nothing (R125). -/
@[simp] theorem reextend_signExtend (v : Imm16) : reextend (v.signExtend 32) = v.signExtend 32 := by
  unfold reextend
  split
  · next h =>
    have h' : v[15] = true := by simpa [BitVec.getElem_signExtend] using h
    apply BitVec.eq_of_getLsbD_eq; intro i hi
    interval_cases i <;> simp [BitVec.getElem_signExtend, BitVec.msb_eq_getLsbD_last, h']
  · rfl

/-- LUI's shift leaves only the 16 bits of the field (R131). -/
@[simp] theorem upperImmediate_signExtend (v : Imm16) : upperImmediate (v.signExtend 32) = v.setWidth 32 <<< 16 := by
  apply BitVec.eq_of_getLsbD_eq; intro i hi
  interval_cases i <;> simp [upperImmediate, BitVec.getElem_signExtend]

/-! ## Masks (R133 to R135) -/

@[simp] theorem and_byteMask (w : Word) : w &&& byteMask = (w.setWidth 8).setWidth 32 := by
  apply BitVec.eq_of_getLsbD_eq; intro i hi; interval_cases i <;> simp [byteMask]
@[simp] theorem and_halfMask (w : Word) : w &&& halfMask = (w.setWidth 16).setWidth 32 := by
  apply BitVec.eq_of_getLsbD_eq; intro i hi; interval_cases i <;> simp [halfMask]
@[simp] theorem and_wordMask (w : Word) : w &&& wordMask = w := by
  apply BitVec.eq_of_getLsbD_eq; intro i hi; interval_cases i <;> simp [wordMask]

/-! ## Comparisons (R124, R127) -/

theorem boolWord_lessThan_unsigned (a b : Word) : boolWord (lessThan .unsigned a b) = if a < b then 1 else 0 := by
  simp [boolWord, lessThan, BitVec.lt_def]
theorem boolWord_lessThan_signed (a b : Word) : boolWord (lessThan .signed a b) = if a.slt b then 1 else 0 := by
  simp [boolWord, lessThan, BitVec.slt]
@[simp] theorem dividesByZero_iff (b : Word) : dividesByZero b = true ↔ b = 0 := by simp [dividesByZero]

/-! ## Products and quotients (R112 to R115) -/

theorem product64_toNat (a b : Word) : (product64 a b).toNat = a.toNat * b.toNat := by
  have h : a.toNat * b.toNat < 2 ^ 64 := lt_of_lt_of_eq (Nat.mul_lt_mul'' a.isLt b.isLt) (by norm_num)
  rw [product64, BitVec.toNat_mul, BitVec.toNat_setWidth_of_le (by decide), BitVec.toNat_setWidth_of_le (by decide), Nat.mod_eq_of_lt h]

theorem productLow_eq (a b : Word) : productLow a b = BitVec.ofNat 32 (a.toNat * b.toNat % 2 ^ 32) := by
  apply BitVec.eq_of_toNat_eq
  rw [productLow, BitVec.extractLsb'_toNat, product64_toNat]
  simp

theorem productHigh_eq (a b : Word) : productHigh a b = BitVec.ofNat 32 (a.toNat * b.toNat / 2 ^ 32) := by
  apply BitVec.eq_of_toNat_eq
  rw [productHigh, BitVec.extractLsb'_toNat, product64_toNat]
  simp [Nat.shiftRight_eq_div_pow]

theorem quotient_unsigned (a b : Word) : quotient .unsigned a b = a / b := by
  apply BitVec.eq_of_toNat_eq
  rw [quotient, BitVec.toNat_ofNat, BitVec.toNat_udiv, Nat.mod_eq_of_lt (lt_of_le_of_lt (Nat.div_le_self _ _) a.isLt)]

theorem remainder_unsigned (a b : Word) : remainder .unsigned a b = a % b := by
  apply BitVec.eq_of_toNat_eq
  rw [remainder, BitVec.toNat_ofNat, BitVec.toNat_umod, Nat.mod_eq_of_lt (lt_of_le_of_lt (Nat.mod_le _ _) a.isLt)]

theorem remainder_signed (a b : Word) : remainder .signed a b = BitVec.ofInt 32 (a.toInt.tmod b.toInt) := by
  have h := Int.tmod_add_mul_tdiv a.toInt b.toInt
  rw [mul_comm] at h
  rw [remainder]
  congr 1
  omega

/-- A divisor of 0 is reported, and HI and LO keep their values (R154). -/
theorem State.writeQuotient_zero {s : State} (h : s.idex.b = 0) (reading : Signedness) :
    s.writeQuotient reading = s.raiseDiag .divideByZero := by simp [State.writeQuotient, h]

theorem State.writeQuotient_nonzero {s : State} (h : s.idex.b ≠ 0) (reading : Signedness) :
    s.writeQuotient reading =
      (s.writeNxtLo (quotient reading s.idex.a s.idex.b)).writeNxtHi (remainder reading s.idex.a s.idex.b) := by
  rw [State.writeQuotient, if_neg (mt (dividesByZero_iff _).mp h)]

end Sys2Proof.Machine
end

