-- ==== Sys2Proof/Laws/PerInstr.lean ====
section
/-! SUPPORT. Facts said of each instruction as syntax: the word an instruction encodes to has the fixed bits of its row of
spec/opcode_table.json. -/

namespace Sys2Proof

theorem registerRow_matches (rs rt rd : RegNum) (sa : ShiftAmount) {funct : BitVec 6} {pattern : Word}
    (h : funct.setWidth 32 = pattern) : (registerRow pattern).matches (registerWord rs rt rd sa funct) = true := by
  simp [OpcodeRow.matches, registerRow, registerWord_and_rowMask, h]

theorem syscallRow_matches (code : BitVec 20) : (registerRow 0x0C#32).matches (syscallWord code) = true := by
  simp [OpcodeRow.matches, registerRow, syscallWord_and_rowMask]

theorem opcodeRow_matches (rs rt : RegNum) (imm : Imm16) {op : BitVec 6} {pattern : Word}
    (h : op.setWidth 32 <<< 26 = pattern) : (opcodeRow pattern).matches (immediateWord op rs rt imm) = true := by
  simp [OpcodeRow.matches, opcodeRow, immediateWord_and_rowMask, h]

theorem jumpRow_matches (target : BitVec 26) {op : BitVec 6} {pattern : Word}
    (h : op.setWidth 32 <<< 26 = pattern) : (opcodeRow pattern).matches (jumpWord op target) = true := by
  simp [OpcodeRow.matches, opcodeRow, jumpWord_and_rowMask, h]

theorem regimmRow_matches (rs rt : RegNum) (imm : Imm16) {op : BitVec 6} {pattern : Word}
    (h : op.setWidth 32 <<< 26 ||| rt.setWidth 32 <<< 16 = pattern) :
    (regimmRow pattern).matches (immediateWord op rs rt imm) = true := by
  simp [OpcodeRow.matches, regimmRow, immediateWord_and_regimmMask, h]

end Sys2Proof

namespace Sys2Proof.Laws.EncodesItsRow

/-- The encoded word matches the instruction's row. -/
def Statement (i : Instr) : Prop := (tableRow i).matches (encode i) = true

theorem sll (rs rt rd : RegNum) (sa : ShiftAmount) : Statement (.sll rs rt rd sa) := registerRow_matches rs rt rd sa rfl
theorem srl (rs rt rd : RegNum) (sa : ShiftAmount) : Statement (.srl rs rt rd sa) := registerRow_matches rs rt rd sa rfl
theorem sra (rs rt rd : RegNum) (sa : ShiftAmount) : Statement (.sra rs rt rd sa) := registerRow_matches rs rt rd sa rfl
theorem jr (rs rt rd : RegNum) (sa : ShiftAmount) : Statement (.jr rs rt rd sa) := registerRow_matches rs rt rd sa rfl
theorem jalr (rs rt rd : RegNum) (sa : ShiftAmount) : Statement (.jalr rs rt rd sa) := registerRow_matches rs rt rd sa rfl
theorem syscall (code : BitVec 20) : Statement (.syscall code) := syscallRow_matches code
theorem mfhi (rs rt rd : RegNum) (sa : ShiftAmount) : Statement (.mfhi rs rt rd sa) := registerRow_matches rs rt rd sa rfl
theorem mthi (rs rt rd : RegNum) (sa : ShiftAmount) : Statement (.mthi rs rt rd sa) := registerRow_matches rs rt rd sa rfl
theorem mflo (rs rt rd : RegNum) (sa : ShiftAmount) : Statement (.mflo rs rt rd sa) := registerRow_matches rs rt rd sa rfl
theorem mtlo (rs rt rd : RegNum) (sa : ShiftAmount) : Statement (.mtlo rs rt rd sa) := registerRow_matches rs rt rd sa rfl
theorem mult (rs rt rd : RegNum) (sa : ShiftAmount) : Statement (.mult rs rt rd sa) := registerRow_matches rs rt rd sa rfl
theorem multu (rs rt rd : RegNum) (sa : ShiftAmount) : Statement (.multu rs rt rd sa) := registerRow_matches rs rt rd sa rfl
theorem div (rs rt rd : RegNum) (sa : ShiftAmount) : Statement (.div rs rt rd sa) := registerRow_matches rs rt rd sa rfl
theorem divu (rs rt rd : RegNum) (sa : ShiftAmount) : Statement (.divu rs rt rd sa) := registerRow_matches rs rt rd sa rfl
theorem add (rs rt rd : RegNum) (sa : ShiftAmount) : Statement (.add rs rt rd sa) := registerRow_matches rs rt rd sa rfl
theorem addu (rs rt rd : RegNum) (sa : ShiftAmount) : Statement (.addu rs rt rd sa) := registerRow_matches rs rt rd sa rfl
theorem sub (rs rt rd : RegNum) (sa : ShiftAmount) : Statement (.sub rs rt rd sa) := registerRow_matches rs rt rd sa rfl
theorem subu (rs rt rd : RegNum) (sa : ShiftAmount) : Statement (.subu rs rt rd sa) := registerRow_matches rs rt rd sa rfl
theorem and (rs rt rd : RegNum) (sa : ShiftAmount) : Statement (.and rs rt rd sa) := registerRow_matches rs rt rd sa rfl
theorem or (rs rt rd : RegNum) (sa : ShiftAmount) : Statement (.or rs rt rd sa) := registerRow_matches rs rt rd sa rfl
theorem xor (rs rt rd : RegNum) (sa : ShiftAmount) : Statement (.xor rs rt rd sa) := registerRow_matches rs rt rd sa rfl
theorem nor (rs rt rd : RegNum) (sa : ShiftAmount) : Statement (.nor rs rt rd sa) := registerRow_matches rs rt rd sa rfl
theorem slt (rs rt rd : RegNum) (sa : ShiftAmount) : Statement (.slt rs rt rd sa) := registerRow_matches rs rt rd sa rfl
theorem bltz (rs : RegNum) (imm : Imm16) : Statement (.bltz rs imm) := regimmRow_matches rs 0#5 imm rfl
theorem bgez (rs : RegNum) (imm : Imm16) : Statement (.bgez rs imm) := regimmRow_matches rs 1#5 imm rfl
theorem regimmOther (rs rt : RegNum) (imm : Imm16) : Statement (.regimmOther rs rt imm) := opcodeRow_matches rs rt imm rfl
theorem j (target : BitVec 26) : Statement (.j target) := jumpRow_matches target rfl
theorem jal (target : BitVec 26) : Statement (.jal target) := jumpRow_matches target rfl
theorem beq (rs rt : RegNum) (imm : Imm16) : Statement (.beq rs rt imm) := opcodeRow_matches rs rt imm rfl
theorem bne (rs rt : RegNum) (imm : Imm16) : Statement (.bne rs rt imm) := opcodeRow_matches rs rt imm rfl
theorem blez (rs rt : RegNum) (imm : Imm16) : Statement (.blez rs rt imm) := opcodeRow_matches rs rt imm rfl
theorem bgtz (rs rt : RegNum) (imm : Imm16) : Statement (.bgtz rs rt imm) := opcodeRow_matches rs rt imm rfl
theorem addi (rs rt : RegNum) (imm : Imm16) : Statement (.addi rs rt imm) := opcodeRow_matches rs rt imm rfl
theorem addiu (rs rt : RegNum) (imm : Imm16) : Statement (.addiu rs rt imm) := opcodeRow_matches rs rt imm rfl
theorem slti (rs rt : RegNum) (imm : Imm16) : Statement (.slti rs rt imm) := opcodeRow_matches rs rt imm rfl
theorem andi (rs rt : RegNum) (imm : Imm16) : Statement (.andi rs rt imm) := opcodeRow_matches rs rt imm rfl
theorem ori (rs rt : RegNum) (imm : Imm16) : Statement (.ori rs rt imm) := opcodeRow_matches rs rt imm rfl
theorem xori (rs rt : RegNum) (imm : Imm16) : Statement (.xori rs rt imm) := opcodeRow_matches rs rt imm rfl
theorem lui (rs rt : RegNum) (imm : Imm16) : Statement (.lui rs rt imm) := opcodeRow_matches rs rt imm rfl
theorem lb (rs rt : RegNum) (imm : Imm16) : Statement (.lb rs rt imm) := opcodeRow_matches rs rt imm rfl
theorem lh (rs rt : RegNum) (imm : Imm16) : Statement (.lh rs rt imm) := opcodeRow_matches rs rt imm rfl
theorem lw (rs rt : RegNum) (imm : Imm16) : Statement (.lw rs rt imm) := opcodeRow_matches rs rt imm rfl
theorem sb (rs rt : RegNum) (imm : Imm16) : Statement (.sb rs rt imm) := opcodeRow_matches rs rt imm rfl
theorem sh (rs rt : RegNum) (imm : Imm16) : Statement (.sh rs rt imm) := opcodeRow_matches rs rt imm rfl
theorem sw (rs rt : RegNum) (imm : Imm16) : Statement (.sw rs rt imm) := opcodeRow_matches rs rt imm rfl

end Sys2Proof.Laws.EncodesItsRow
end

