-- ==== Sys2Proof/Tests/Slice0.lean ====
section
/-! SUPPORT. The model's own tests: checks that refuse ill-formed terms, words written out from the spec's encodings, one step of each
instruction with the values of spec/95_test_vectors.md (the vector is named beside each test), and a witness for the hypotheses of each
statement. -/

namespace Sys2Proof.Tests

open Sys2Proof.Machine Sys2Proof.Claims

/-! ## Helpers -/

/-- The default configuration with another reading of one parameter. -/
def literal : Config := { Config.default with wbMode := .literal }
/-- `SLTI_CMP = signed` and `DIV_CMP = signed`. -/
def signed : Config := { Config.default with sltiCmp := .signed, divCmp := .signed }

/-- A state after reset in which the host has set HI, LO and some registers, as the vectors of spec/95 begin. -/
def start (c : Config) (regs : List (RegNum × Word)) : State :=
  regs.foldl (fun s p => s.hostSetReg p.1 p.2) (((State.zeroed c []).hostSetHi 0x11111111#32).hostSetLo 0x22222222#32)

/-- A latch with a word, the store operand `b` and a result. -/
def latch (ir b aluOutput : Word) : Latch := { Latch.zero with ir := ir, b := b, aluOutput := aluOutput }

/-- The state a step answers; the same state where it answers none. -/
def stepped (s : State) : State :=
  match step s with
  | .next t => t
  | .fault _ => s
  | .refused _ => s

theorem step_stepped {s : State} (h : s.faulted = none) : step s = .next (stepped s) := by
  obtain ⟨t, e, -⟩ := step_cases s h
  simp [stepped, e]

/-- One step that executes the word: `aluOutput`, HI and LO after it. -/
def executes (c : Config) (regs : List (RegNum × Word)) (w : Nat) : Word × Word × Word :=
  let t := stepped ((start c regs).withFetchWord 32 w)
  (t.exmem.aluOutput, t.cur.hi, t.cur.lo)

/-- Memory of the load and store vectors: word 0x11223380 at D and 0xAABBCCDD at D+4. -/
def dataMem : Memory :=
  [(0x10010000, 0x80#8), (0x10010001, 0x33#8), (0x10010002, 0x22#8), (0x10010003, 0x11#8),
   (0x10010004, 0xDD#8), (0x10010005, 0xCC#8), (0x10010006, 0xBB#8), (0x10010007, 0xAA#8)]

/-- A state whose MemoryAccess runs the word `ir` at an address. -/
def accessing (ir b addr : Word) : State := ((start Config.default []).setMem dataMem).setExmem (latch ir b addr)

/-- One step in whose MemoryAccess the word accesses an address: what it loads. -/
def loads (ir addr : Word) : Word := (stepped (accessing ir 0 addr)).memwb.lmd

/-- One step in whose MemoryAccess the word stores `b`: the words at D and D+4 after it. -/
def stores (ir b addr : Word) : Word × Word :=
  let t := stepped (accessing ir b addr)
  (t.mem.readWord 0x10010000, t.mem.readWord 0x10010004)

/-- One step in whose Writeback the word stands with `aluOutput` 0x77: a register after it, from 0x55, and how much retired. -/
def writesBack (c : Config) (ir : Word) (r : RegNum) : Word × Nat :=
  let t := stepped ((start c [(r, 0x55)]).setMemwb (latch ir 0 0x77))
  (t.cur.read r, t.retired)

/-! ## The checks refuse ill-formed terms -/

theorem test_regimmOther_rt0_refused : (Instr.regimmOther 1 0 4).wellFormed = false := by decide
theorem test_regimmOther_rt1_refused : (Instr.regimmOther 1 1 4).wellFormed = false := by decide
theorem test_regimmOther_rt2_accepted : (Instr.regimmOther 31 2 0xFFFF).wellFormed = true := by decide
/-- A table with its bounds reversed (R39). -/
theorem test_regions_reversed : regionsWellFormed [⟨.text, 8, 4⟩] = false := by decide
/-- Two regions that share one byte. -/
theorem test_regions_overlap : regionsWellFormed [⟨.text, 0, 8⟩, ⟨.data, 8, 9⟩] = false := by decide
theorem test_regions_adjacent : regionsWellFormed [⟨.text, 0, 7⟩, ⟨.data, 8, 9⟩] = true := by decide
theorem test_regions_noText : regionsWellFormed [⟨.data, 0, 7⟩] = false := by decide
theorem test_regions_twoText : regionsWellFormed [⟨.text, 0, 7⟩, ⟨.text, 8, 9⟩] = false := by decide
/-- Two words fill an eight-byte text region, three do not fit (R169). -/
theorem test_image_fits : imageFits { Config.default with regions := [⟨.text, 4, 11⟩], image := [1, 2] } = true := by decide
theorem test_image_tooLarge : imageFits { Config.default with regions := [⟨.text, 4, 11⟩], image := [1, 2, 3] } = false := by decide

/-! ## Words written out from the spec's encodings decode to what they stand for -/

/-- V-S1. -/
theorem test_decode_sll : decodeTableWord 32 0x00021FC0 = some (.sll 0 2 3 31) := by decide
/-- V-S4. -/
theorem test_decode_srl : decodeTableWord 32 0x00021902 = some (.srl 0 2 3 4) := by decide
/-- V-S6. -/
theorem test_decode_sra : decodeTableWord 32 0x00021903 = some (.sra 0 2 3 4) := by decide
/-- V-T1. -/
theorem test_decode_jr : decodeTableWord 32 0x03E00008 = some (.jr 31 0 0 0) := by decide
/-- V-T2. -/
theorem test_decode_jalr : decodeTableWord 32 0x0080F809 = some (.jalr 4 0 31 0) := by decide
/-- V-T3. -/
theorem test_decode_syscall : decodeTableWord 32 0x0000000C = some (.syscall 0) := by decide
/-- V-H1. -/
theorem test_decode_mfhi : decodeTableWord 32 0x00001810 = some (.mfhi 0 0 3 0) := by decide
/-- V-H3. -/
theorem test_decode_mthi : decodeTableWord 32 0x00200011 = some (.mthi 1 0 0 0) := by decide
/-- V-H2. -/
theorem test_decode_mflo : decodeTableWord 32 0x00001812 = some (.mflo 0 0 3 0) := by decide
/-- V-H4. -/
theorem test_decode_mtlo : decodeTableWord 32 0x00200013 = some (.mtlo 1 0 0 0) := by decide
/-- V-H5. -/
theorem test_decode_mult : decodeTableWord 32 0x00220018 = some (.mult 1 2 0 0) := by decide
/-- V-H8. -/
theorem test_decode_multu : decodeTableWord 32 0x00220019 = some (.multu 1 2 0 0) := by decide
/-- V-H10. -/
theorem test_decode_div : decodeTableWord 32 0x0022001A = some (.div 1 2 0 0) := by decide
/-- V-H15. -/
theorem test_decode_divu : decodeTableWord 32 0x0022001B = some (.divu 1 2 0 0) := by decide
/-- V-R17. -/
theorem test_decode_add : decodeTableWord 32 0x00221960 = some (.add 1 2 3 5) := by decide
/-- V-R4. -/
theorem test_decode_addu : decodeTableWord 32 0x00221821 = some (.addu 1 2 3 0) := by decide
/-- V-R5. -/
theorem test_decode_sub : decodeTableWord 32 0x00221822 = some (.sub 1 2 3 0) := by decide
/-- V-R7. -/
theorem test_decode_subu : decodeTableWord 32 0x00221823 = some (.subu 1 2 3 0) := by decide
/-- V-R8. -/
theorem test_decode_and : decodeTableWord 32 0x00221824 = some (.and 1 2 3 0) := by decide
/-- V-R9. -/
theorem test_decode_or : decodeTableWord 32 0x00221825 = some (.or 1 2 3 0) := by decide
/-- V-R10. -/
theorem test_decode_xor : decodeTableWord 32 0x00221826 = some (.xor 1 2 3 0) := by decide
/-- V-R11. -/
theorem test_decode_nor : decodeTableWord 32 0x00221827 = some (.nor 1 2 3 0) := by decide
/-- V-R13. -/
theorem test_decode_slt : decodeTableWord 32 0x0022182A = some (.slt 1 2 3 0) := by decide
/-- V-T4. -/
theorem test_decode_bltz : decodeTableWord 32 0x0420FFFF = some (.bltz 1 0xFFFF) := by decide
/-- V-T5. -/
theorem test_decode_bgez : decodeTableWord 32 0x04010003 = some (.bgez 0 3) := by decide
/-- V-T6. -/
theorem test_decode_regimmOther : decodeTableWord 32 0x04300004 = some (.regimmOther 1 16 4) := by decide
/-- V-T7. -/
theorem test_decode_j : decodeTableWord 32 0x08100000 = some (.j 0x0100000) := by decide
/-- V-T8. -/
theorem test_decode_jal : decodeTableWord 32 0x0C100010 = some (.jal 0x0100010) := by decide
/-- V-T13. -/
theorem test_decode_beq : decodeTableWord 32 0x10250004 = some (.beq 1 5 4) := by decide
/-- V-T10. -/
theorem test_decode_bne : decodeTableWord 32 0x14220004 = some (.bne 1 2 4) := by decide
/-- V-T11. -/
theorem test_decode_blez : decodeTableWord 32 0x18000002 = some (.blez 0 0 2) := by decide
/-- V-T12. -/
theorem test_decode_bgtz : decodeTableWord 32 0x1CA00002 = some (.bgtz 5 0 2) := by decide
/-- V-I1. -/
theorem test_decode_addi : decodeTableWord 32 0x2023FFFF = some (.addi 1 3 0xFFFF) := by decide
/-- V-I4. -/
theorem test_decode_addiu : decodeTableWord 32 0x24230001 = some (.addiu 1 3 1) := by decide
/-- V-I5. -/
theorem test_decode_slti : decodeTableWord 32 0x2823FFFF = some (.slti 1 3 0xFFFF) := by decide
/-- V-I9. -/
theorem test_decode_andi : decodeTableWord 32 0x30238000 = some (.andi 1 3 0x8000) := by decide
/-- V-I12. -/
theorem test_decode_ori : decodeTableWord 32 0x34235678 = some (.ori 1 3 0x5678) := by decide
/-- V-I13. -/
theorem test_decode_xori : decodeTableWord 32 0x38238001 = some (.xori 1 3 0x8001) := by decide
/-- V-I15. -/
theorem test_decode_lui : decodeTableWord 32 0x3C038765 = some (.lui 0 3 0x8765) := by decide
/-- V-L2. -/
theorem test_decode_lb : decodeTableWord 32 0x80230003 = some (.lb 1 3 3) := by decide
/-- V-L4. -/
theorem test_decode_lh : decodeTableWord 32 0x84230001 = some (.lh 1 3 1) := by decide
/-- V-L7. -/
theorem test_decode_lw : decodeTableWord 32 0x8C23FFFC = some (.lw 1 3 0xFFFC) := by decide
/-- V-W1. -/
theorem test_decode_sb : decodeTableWord 32 0xA0220001 = some (.sb 1 2 1) := by decide
/-- V-W2. -/
theorem test_decode_sh : decodeTableWord 32 0xA4220000 = some (.sh 1 2 0) := by decide
/-- V-W4. -/
theorem test_decode_sw : decodeTableWord 32 0xAC220002 = some (.sw 1 2 2) := by decide
/-- V-U2: op 0, funct 0x2B. -/
theorem test_decode_unhandled : decodeWord 0x0022182B#32 = .error (.unhandledFunction 0x2B#6) := by decide
/-- V-U4: op 0x0B. -/
theorem test_decode_unrecognized : decodeWord 0x2C230005#32 = .error (.unrecognizedOpcode 0x0B#6) := by decide

/-! ## One step that executes the word -/

/-- V-S1. -/
theorem test_sll_31 : executes Config.default [(2, 1)] 0x00021FC0 = (0x80000000, 0x11111111, 0x22222222) := by decide
/-- V-S3. -/
theorem test_sll_16 : executes Config.default [(2, 0xFFFFFFFF)] 0x00021C00 = (0xFFFF0000, 0x11111111, 0x22222222) := by decide
/-- V-S4. -/
theorem test_srl_sign : executes Config.default [(2, 0x80000000)] 0x00021902 = (0x08000000, 0x11111111, 0x22222222) := by decide
/-- V-S5. -/
theorem test_srl_31 : executes Config.default [(2, 0xFFFFFFFF)] 0x00021FC2 = (1, 0x11111111, 0x22222222) := by decide
/-- V-S6. -/
theorem test_sra_sign : executes Config.default [(2, 0x80000000)] 0x00021903 = (0xF8000000, 0x11111111, 0x22222222) := by decide
/-- V-S7. -/
theorem test_sra_positive : executes Config.default [(2, 0x7FFFFFFF)] 0x00021FC3 = (0, 0x11111111, 0x22222222) := by decide
/-- V-R1. -/
theorem test_add_overflow : executes Config.default [(1, 0x7FFFFFFF), (2, 1)] 0x00221820 = (0x80000000, 0x11111111, 0x22222222) := by decide
/-- V-R4. -/
theorem test_addu_wraps : executes Config.default [(1, 0xFFFFFFFF), (2, 2)] 0x00221821 = (1, 0x11111111, 0x22222222) := by decide
/-- V-R5. -/
theorem test_sub_borrow : executes Config.default [(1, 0), (2, 1)] 0x00221822 = (0xFFFFFFFF, 0x11111111, 0x22222222) := by decide
/-- V-R6. -/
theorem test_sub_overflow : executes Config.default [(1, 0x80000000), (2, 1)] 0x00221822 = (0x7FFFFFFF, 0x11111111, 0x22222222) := by decide
/-- V-R7. -/
theorem test_subu : executes Config.default [(1, 3), (2, 5)] 0x00221823 = (0xFFFFFFFE, 0x11111111, 0x22222222) := by decide
/-- V-R8. -/
theorem test_and : executes Config.default [(1, 0xF0F0F0F0), (2, 0x0FF00FF0)] 0x00221824 = (0x00F000F0, 0x11111111, 0x22222222) := by decide
/-- V-R9. -/
theorem test_or : executes Config.default [(1, 0xF0F0F0F0), (2, 0x0FF00FF0)] 0x00221825 = (0xFFF0FFF0, 0x11111111, 0x22222222) := by decide
/-- V-R10. -/
theorem test_xor : executes Config.default [(1, 0xF0F0F0F0), (2, 0x0FF00FF0)] 0x00221826 = (0xFF00FF00, 0x11111111, 0x22222222) := by decide
/-- V-R11. -/
theorem test_nor : executes Config.default [(1, 0xF0F0F0F0), (2, 0x0FF00FF0)] 0x00221827 = (0x000F000F, 0x11111111, 0x22222222) := by decide
/-- V-R13. -/
theorem test_slt_unsigned : executes Config.default [(1, 0xFFFFFFFF), (2, 1)] 0x0022182A = (0, 0x11111111, 0x22222222) := by decide
/-- V-R14. -/
theorem test_slt_unsigned_under_signed : executes signed [(1, 1), (2, 0xFFFFFFFF)] 0x0022182A = (1, 0x11111111, 0x22222222) := by decide
/-- V-I1. -/
theorem test_addi_negative : executes Config.default [(1, 5)] 0x2023FFFF = (4, 0x11111111, 0x22222222) := by decide
/-- V-I2. -/
theorem test_addi_no_trap : executes Config.default [(1, 0x7FFFFFFF)] 0x20230001 = (0x80000000, 0x11111111, 0x22222222) := by decide
/-- V-I4. -/
theorem test_addiu : executes Config.default [(1, 0x7FFFFFFF)] 0x24230001 = (0x80000000, 0x11111111, 0x22222222) := by decide
/-- V-I8. -/
theorem test_slti_unsigned : executes Config.default [(1, 0xFFFFFFFF)] 0x28230001 = (0, 0x11111111, 0x22222222) := by decide
/-- V-I8. -/
theorem test_slti_signed : executes signed [(1, 0xFFFFFFFF)] 0x28230001 = (1, 0x11111111, 0x22222222) := by decide
/-- V-I9. -/
theorem test_andi_sign_extends : executes Config.default [(1, 0xFFFFFFFF)] 0x30238000 = (0xFFFF8000, 0x11111111, 0x22222222) := by decide
/-- V-I11. -/
theorem test_ori_sign_extends : executes Config.default [(1, 0)] 0x34238000 = (0xFFFF8000, 0x11111111, 0x22222222) := by decide
/-- V-I13. -/
theorem test_xori_sign_extends : executes Config.default [(1, 0x0000FFFF)] 0x38238001 = (0xFFFF7FFE, 0x11111111, 0x22222222) := by decide
/-- V-I15. -/
theorem test_lui : executes Config.default [] 0x3C038765 = (0x87650000, 0x11111111, 0x22222222) := by decide
/-- V-I16. -/
theorem test_lui_ignores_rs : executes Config.default [(1, 0xFFFFFFFF)] 0x3C230001 = (0x00010000, 0x11111111, 0x22222222) := by decide
/-- V-H1. -/
theorem test_mfhi : executes Config.default [] 0x00001810 = (0x11111111, 0x11111111, 0x22222222) := by decide
/-- V-H2. -/
theorem test_mflo : executes Config.default [] 0x00001812 = (0x22222222, 0x11111111, 0x22222222) := by decide
/-- V-H3. -/
theorem test_mthi : executes Config.default [(1, 0xDEADBEEF)] 0x00200011 = (0, 0xDEADBEEF, 0x22222222) := by decide
/-- V-H4. -/
theorem test_mtlo : executes Config.default [(1, 7)] 0x00200013 = (0, 0x11111111, 7) := by decide
/-- V-H5. -/
theorem test_mult_unsigned : executes Config.default [(1, 0xFFFFFFFF), (2, 2)] 0x00220018 = (0, 1, 0xFFFFFFFE) := by decide
/-- V-H6. -/
theorem test_mult_largest : executes Config.default [(1, 0xFFFFFFFF), (2, 0xFFFFFFFF)] 0x00220018 = (0, 0xFFFFFFFE, 1) := by decide
/-- V-H8. -/
theorem test_multu : executes Config.default [(1, 0x80000000), (2, 4)] 0x00220019 = (0, 2, 0) := by decide
/-- V-H10. -/
theorem test_div_unsigned : executes Config.default [(1, 0xFFFFFFF9), (2, 2)] 0x0022001A = (0, 1, 0x7FFFFFFC) := by decide
/-- V-H12. -/
theorem test_div_signed_smallest : executes signed [(1, 0x80000000), (2, 0xFFFFFFFF)] 0x0022001A = (0, 0, 0x80000000) := by decide
/-- V-H15. -/
theorem test_divu : executes Config.default [(1, 100), (2, 7)] 0x0022001B = (0, 2, 14) := by decide
/-- V-H16: the event names the word, and HI and LO keep their values. -/
theorem test_divu_by_zero_reported :
    let t := stepped ((start Config.default [(1, 100), (2, 0)]).withFetchWord 32 0x0022001B)
    t.diag = [⟨0, .divideByZero, 0x0022001B#32⟩] ∧ t.cur.hi = 0x11111111 ∧ t.cur.lo = 0x22222222 := by decide
/-- V-U1 and V-U3: an unhandled function code is reported, an unrecognized opcode is silent. -/
theorem test_unhandled_reported :
    (stepped (State.reset.withFetchWord 32 0x00000001)).diag = [⟨0, .unhandledFunction, 0x00000001#32⟩] ∧
    (stepped (State.reset.withFetchWord 32 0xFC000000)).diag = [] := by decide

/-! ## One step that accesses memory -/

/-- V-L1. -/
theorem test_lb_zero_extends : loads 0x80230000 0x10010000 = 0x00000080 := by decide
/-- V-L2. -/
theorem test_lb_byte3 : loads 0x80230003 0x10010003 = 0x00000011 := by decide
/-- V-L3. -/
theorem test_lh : loads 0x84230000 0x10010000 = 0x00003380 := by decide
/-- V-L4. -/
theorem test_lh_misaligned : loads 0x84230001 0x10010001 = 0x00002233 := by decide
/-- V-L6. -/
theorem test_lw_misaligned : loads 0x8C230002 0x10010002 = 0xCCDD1122 := by decide
/-- V-L8. -/
theorem test_lw_outside : loads 0x8C230000 0x20000000 = 0 := by decide
/-- V-W1. -/
theorem test_sb_stores_a_word : stores 0xA0220001 0x11223344 0x10010001 = (0x22334480, 0xAABBCC11) := by decide
/-- V-W2. -/
theorem test_sh_stores_a_word : stores 0xA4220000 0x0000BEEF 0x10010000 = (0x0000BEEF, 0xAABBCCDD) := by decide
/-- V-W4. -/
theorem test_sw_misaligned : stores 0xAC220002 0xCAFEF00D 0x10010002 = (0xF00D3380, 0xAABBCAFE) := by decide
/-- V-X1 and V-X2: the last word of a region is inside it, and two bytes further is the model fault. -/
theorem test_straddle_boundary :
    (stepped (accessing 0x8C230000 0 0x1001FFFC)).faulted = none ∧
    (stepped (accessing 0x8C230002 0 0x1001FFFE)).faulted = some (.regionStraddle 0x1001FFFE#32) := by decide
/-- V-X4: a straddling store writes nothing and stops the cycle. -/
theorem test_straddling_store :
    (stepped (accessing 0xAC220003 5 0x1001FFFF)).mem = dataMem ∧ (stepped (accessing 0xAC220003 5 0x1001FFFF)).cycles = 0 := by decide
/-- V-F3 and V-F4: the pc wraps, and a fetch that straddles is the model fault. -/
theorem test_fetch_wraps_and_straddles :
    (stepped { State.reset with cur := { State.reset.cur with pc := 0xFFFFFFFC } }).cur.pc = 0 ∧
    (stepped { State.reset with cur := { State.reset.cur with pc := 0x004FFFFE } }).faulted =
      some (.regionStraddle 0x004FFFFE#32) := by decide

/-! ## One step in whose Writeback the word stands -/

/-- V-T1. -/
theorem test_writeback_jr : writesBack Config.default 0x03E00008 0 = (0x55, 1) := by decide
/-- V-T2. -/
theorem test_writeback_jalr : writesBack Config.default 0x0080F809 31 = (0x55, 1) := by decide
/-- V-T2. -/
theorem test_writeback_jalr_literal : writesBack literal 0x0080F809 31 = (0x77, 1) := by decide
/-- V-T3. -/
theorem test_writeback_syscall : writesBack Config.default 0x0000000C 2 = (0x55, 0) := by decide
/-- V-T3. -/
theorem test_writeback_syscall_literal : writesBack literal 0x0000000C 0 = (0x55, 0) := by decide
/-- V-T4. -/
theorem test_writeback_bltz_literal : writesBack literal 0x0420FFFF 0 = (0x77, 1) := by decide
/-- V-T5. -/
theorem test_writeback_bgez_literal : writesBack literal 0x04010003 1 = (0x77, 1) := by decide
/-- V-T6. -/
theorem test_writeback_bltzal_no_link : writesBack Config.default 0x04300004 31 = (0x55, 1) := by decide
/-- V-T6. -/
theorem test_writeback_bltzal_literal : writesBack literal 0x04300004 16 = (0x77, 1) := by decide
/-- V-T7. -/
theorem test_writeback_j_literal : writesBack literal 0x08100000 16 = (0x77, 1) := by decide
/-- V-T8. -/
theorem test_writeback_jal_no_link : writesBack literal 0x0C100010 31 = (0x55, 1) := by decide
/-- V-T13. -/
theorem test_writeback_beq_literal : writesBack literal 0x10250004 5 = (0x77, 1) := by decide
/-- V-T10. -/
theorem test_writeback_bne_literal : writesBack literal 0x14220004 2 = (0x77, 1) := by decide
/-- V-T11. -/
theorem test_writeback_blez_literal : writesBack literal 0x18000002 0 = (0x77, 1) := by decide
/-- V-T12. -/
theorem test_writeback_bgtz_literal : writesBack literal 0x1CA00002 5 = (0x55, 1) := by decide
/-- S4. -/
theorem test_writeback_add_rd : writesBack Config.default 0x00221820 3 = (0x77, 1) := by decide
/-- V-W3. -/
theorem test_writeback_sw_literal : writesBack literal 0xAC220000 2 = (0x77, 1) := by decide
/-- V-U2. -/
theorem test_writeback_unhandled_does_not_retire : writesBack literal 0x0022182B 3 = (0x55, 0) := by decide
/-- V-F1: register 0 is ordinary, and a bubble writes it. -/
theorem test_bubble_writes_register0 : (stepped (start Config.default [(0, 0x99)])).cur.read 0 = 0 := by decide
/-- 10_state.md R35, 70_reset_and_hazards.md R169: reset loads the image little-endian. -/
theorem test_reset_loads_image :
    (State.afterReset { Config.default with image := [0x8C220000] } []).mem = [(0x00400002, 0x22#8), (0x00400003, 0x8C#8)] := by decide

/-! ## The hypotheses of the statements can be met

One theorem for each statement that has hypotheses, on concrete states and operands; where a statement has several clauses, each has its
own conjunct. -/

/-- A state in whose three stages a statement about one instruction may be read: ID/EX and EX/MEM hold an operand `b` and an address inside
the data region. -/
def staged (c : Config) (st : Stage) (b addr : Word) : State :=
  ((((start c []).setMem dataMem).setIdex ⟨0, 0, 5, b, 7, 0, 0⟩).setExmem (latch 0 b addr)).atStage st

/-- What the statements about one instruction assume: a state at each of the three stages, under both values of `WB_MODE`. -/
abbrev EachStage : Prop :=
  (staged Config.default .execute 3 0x10010000).stage = .execute ∧
  (staged Config.default .memoryAccess 3 0x10010000).stage = .memoryAccess ∧
  ((staged Config.default .writeback 3 0x10010000).stage = .writeback ∧
    (staged Config.default .writeback 3 0x10010000).cfg.wbMode = .skipNoDest) ∧
  ((staged literal .writeback 3 0x10010000).stage = .writeback ∧ (staged literal .writeback 3 0x10010000).cfg.wbMode = .literal)

theorem eachStage : EachStage := by decide

theorem witness_DecodeOfEncode :
    (Instr.regimmOther 31 2 0xFFFF).wellFormed = true ∧ (Instr.regimmOther 0 31 0).wellFormed = true ∧
      (Instr.sll 31 31 31 31).wellFormed = true := by decide
theorem witness_EncodeOfDecode :
    decodeWord 0xAFFFFFFF#32 = .ok (.sw 31 31 0xFFFF) ∧ decodeWord 0x07FFFFFF#32 = .ok (.regimmOther 31 31 0xFFFF) := by decide
/-- Each kind of clause: a function code, SYSCALL's, an opcode, the three kinds of rt under opcode 0x01, J, JAL, and a word outside each
map. -/
theorem witness_DecodeFollowsTheMaps :
    decodeWord 0x0022182A#32 = .ok (.slt 1 2 3 0) ∧ decodeWord 0x03FFFFCC#32 = .ok (.syscall 0xFFFFF) ∧
      decodeWord 0xAFFFFFFF#32 = .ok (.sw 31 31 0xFFFF) ∧ decodeWord 0x04200001#32 = .ok (.bltz 1 1) ∧
      decodeWord 0x04210001#32 = .ok (.bgez 1 1) ∧ decodeWord 0x043F0001#32 = .ok (.regimmOther 1 31 1) ∧
      decodeWord 0x0BFFFFFF#32 = .ok (.j 0x3FFFFFF) ∧ decodeWord 0x0C000000#32 = .ok (.jal 0) ∧
      decodeWord 0x00000001#32 = .error (.unhandledFunction 1) ∧ decodeWord 0xFFFFFFFF#32 = .error (.unrecognizedOpcode 0x3F) := by
  decide
theorem witness_DecodedWordsMatchTheirRow : decodeWord 0x07FFFFFF#32 = .ok (.regimmOther 31 31 0xFFFF) := by decide
theorem witness_BytesDecodeLittleEndian :
    ([0, 0, 0] : List Byte).length < 4 ∧ ([] : List Byte).length < 4 ∧ (Instr.regimmOther 1 2 3).wellFormed = true := by decide
theorem witness_ShiftsComputeIntoRd : EachStage := eachStage
theorem witness_RegisterAluComputesIntoRd : EachStage := eachStage
/-- The clause on an immediate that Decode sign-extended, at both ends of the field's range. -/
theorem witness_AddAddiLuiComputeSilently :
    EachStage ∧
    (let s := ((start Config.default []).setIdex { Latch.zero with imm := 0xFFFFFFFF }).atStage .execute
     s.stage = .execute ∧ s.idex.imm = (0xFFFF#16).signExtend 32) ∧
    (let s := ((start Config.default []).setIdex { Latch.zero with imm := 0x00007FFF }).atStage .execute
     s.stage = .execute ∧ s.idex.imm = (0x7FFF#16).signExtend 32) := by decide
theorem witness_SltiUnderBothReadings :
    EachStage ∧
    ((staged Config.default .execute 3 0).stage = .execute ∧ (staged Config.default .execute 3 0).cfg.sltiCmp = .unsigned) ∧
    ((staged signed .execute 3 0).stage = .execute ∧ (staged signed .execute 3 0).cfg.sltiCmp = .signed) := by decide
theorem witness_MoveFromHiLoComputesIntoRd : EachStage := eachStage
theorem witness_MoveToHiLoWritesHiLo : EachStage := eachStage
theorem witness_MultiplyIsUnsigned : EachStage := eachStage
theorem witness_DivideUnsigned :
    EachStage ∧ (staged Config.default .execute 0 0).idex.b = 0 ∧ (staged Config.default .execute 1 0).idex.b ≠ 0 := by decide
theorem witness_DivideUnderBothReadings :
    EachStage ∧
    (let s := staged signed .execute 0 0; s.stage = .execute ∧ s.idex.b = 0) ∧
    (let s := staged Config.default .execute 1 0; s.stage = .execute ∧ s.idex.b ≠ 0 ∧ s.cfg.divCmp = .unsigned) ∧
    (let s := staged signed .execute 1 0; s.stage = .execute ∧ s.idex.b ≠ 0 ∧ s.cfg.divCmp = .signed) ∧
    (let s := (staged signed .execute 0 0).setIdex ⟨0, 0, 0x80000000, 0xFFFFFFFF, 0, 0, 0⟩
     s.stage = .execute ∧ s.idex.a = 0x80000000#32 ∧ s.idex.b = 0xFFFFFFFF#32 ∧ s.cfg.divCmp = .signed) := by decide
/-- The last word of the data region, and the first address past it at which a word straddles. -/
theorem witness_LoadsKeepLowBits :
    EachStage ∧
    (let s := staged Config.default .memoryAccess 3 0x1001FFFC
     s.stage = .memoryAccess ∧ memRead s.cfg.regions s.mem s.exmem.aluOutput = .ok 0) ∧
    (let s := staged Config.default .memoryAccess 3 0x1001FFFD
     s.stage = .memoryAccess ∧ memRead s.cfg.regions s.mem s.exmem.aluOutput = .error (.regionStraddle 0x1001FFFD)) := by decide
theorem witness_StoresWriteTheWholeWord :
    EachStage ∧
    (let s := staged Config.default .memoryAccess 3 0x1001FFFC
     s.stage = .memoryAccess ∧ memWrite s.cfg.regions s.mem s.exmem.aluOutput s.exmem.b = .ok (dataMem ++ [(0x1001FFFC, 3)])) ∧
    (let s := staged Config.default .memoryAccess 3 0x1001FFFD
     s.stage = .memoryAccess ∧
        memWrite s.cfg.regions s.mem s.exmem.aluOutput s.exmem.b = .error (.regionStraddle 0x1001FFFD)) := by decide
theorem witness_ControlWordsOnlyRetire : EachStage := eachStage
/-- BLTZ, BGEZ and two other words of opcode 0x01, and a state for each clause about the stages. -/
theorem witness_RegimmIgnoresRt :
    ((0x04000000#32).extractLsb' 26 6 = 0x01 ∧ (0x04010000#32).extractLsb' 26 6 = 0x01 ∧ (0x04100000#32).extractLsb' 26 6 = 0x01 ∧
      (0x07FFFFFF#32).extractLsb' 26 6 = 0x01) ∧ EachStage := by decide
theorem witness_SyscallUpdatesNothing : EachStage := eachStage

/-- The premises of the frame clauses: an instruction that writes neither HI nor LO, and a divide with a divisor that is not 0. -/
theorem witness_ExecuteFrame :
    (∃ t, (staged Config.default .execute 3 0).stage = .execute ∧ writesHiLo (.lw 1 2 0) = false ∧
      exec (.lw 1 2 0) (staged Config.default .execute 3 0) = .next t) ∧
    (∃ t, (staged Config.default .execute 3 0).idex.b ≠ 0 ∧ exec (.div 1 2 0 0) (staged Config.default .execute 3 0) = .next t) :=
  ⟨⟨_, rfl, rfl, rfl⟩, ⟨_, by decide, rfl⟩⟩
/-- A store and the byte just past its word, a load, and an instruction that is neither. -/
theorem witness_MemoryAccessFrame :
    (staged Config.default .memoryAccess 3 0x10010000).stage = .memoryAccess ∧
    (∃ t, exec (.sw 1 2 0) (staged Config.default .memoryAccess 3 0x10010000) = .next t ∧ isStore (.sw 1 2 0) = true ∧
      (staged Config.default .memoryAccess 3 0x10010000).exmem.aluOutput = 0x10010000#32 ∧
      (0x10010000#32).toNat + 3 < 0x10010004 ∧ 0x1000FFFF < (0x10010000#32).toNat) ∧
    (∃ t, exec (.lw 1 2 0) (staged Config.default .memoryAccess 3 0x10010000) = .next t ∧ isStore (.lw 1 2 0) = false) ∧
    (∃ t, exec (.add 1 2 3 0) (staged Config.default .memoryAccess 3 0x10010000) = .next t ∧
      isLoad (.add 1 2 3 0) = false ∧ isStore (.add 1 2 3 0) = false) :=
  ⟨rfl, ⟨_, rfl, rfl, rfl, by decide, by decide⟩, ⟨_, rfl, rfl⟩, ⟨_, rfl, rfl, rfl⟩⟩
/-- An instruction with a destination register, and one without. -/
theorem witness_WritebackFrame :
    (staged Config.default .writeback 3 0).stage = .writeback ∧
    (∃ t, exec (.lw 1 31 0) (staged Config.default .writeback 3 0) = .next t ∧ destination .skipNoDest (.lw 1 31 0) = some 31) ∧
    (∃ t, exec (.beq 1 2 0) (staged Config.default .writeback 3 0) = .next t ∧ destination .skipNoDest (.beq 1 2 0) ≠ some 2) ∧
    destination .literal (.beq 1 2 0) = some 2 :=
  ⟨rfl, ⟨_, rfl, rfl⟩, ⟨_, rfl, by decide⟩, rfl⟩

/-- Outside every region, the last word inside one, and the first that straddles. -/
theorem witness_AccessesAreLittleEndian :
    Memory.wf dataMem ∧ owningRegion exampleRegions 0x20000000 = none ∧
    (owningRegion exampleRegions 0x1001FFFC = some ⟨.data, 0x10010000, 0x1001FFFF⟩ ∧
      (0x1001FFFC#32).toNat + 3 ≤ (0x1001FFFF#32).toNat) ∧
    (owningRegion exampleRegions 0x1001FFFD = some ⟨.data, 0x10010000, 0x1001FFFF⟩ ∧
      (0x1001FFFF#32).toNat < (0x1001FFFD#32).toNat + 3) := by decide
theorem witness_WrittenWordReadsBack :
    Memory.wf dataMem ∧ memWrite exampleRegions dataMem 0x10010004 0 = .ok (dataMem.take 4) ∧
    (owningRegion exampleRegions 0x10010004).isSome = true ∧
    ((0x10010000#32).toNat + 3 < (0x10010004#32).toNat) ∧ ((0x10010004#32).toNat + 3 < (0x10010008#32).toNat) := by decide
theorem witness_MemoryFormIsCanonical :
    memWrite exampleRegions dataMem 0x10010004 0 = .ok (dataMem.take 4) ∧ Memory.wf dataMem ∧
      Memory.InRegions exampleRegions dataMem := by decide

/-! ### Statements about steps -/

/-- A cycle with a word of each kind in flight: ADD in Writeback, the word `ir` at `addr` in MemoryAccess, MULT in Execute, MFHI in Decode,
and a fetch at `pc`. -/
def inFlight (ir addr pc : Word) : State :=
  let s := (((start Config.default []).setMem dataMem).setMemwb (latch 0x00221820 0 9)).setExmem (latch ir 0x11223344 addr)
  let s := (s.setIdex { Latch.zero with ir := 0x00220018, a := 0xFFFFFFFF, b := 2 }).setIfid (latch 0x00001810 0 0)
  { s with
    cur := { s.cur with pc := pc }
    nxt := { s.nxt with pc := pc } }

/-- SW in MemoryAccess, and the fetch of the word it stores. -/
def busy : State := inFlight 0xAC220000 0x00400000 0x00400000

/-- A cycle that completes, one that MemoryAccess stops, and one that Fetch stops. -/
theorem threeSteps :
    (step busy = .next (stepped busy) ∧ (stepped busy).faulted = none) ∧
    (step (inFlight 0xAC220000 0x1001FFFD 0) = .next (stepped (inFlight 0xAC220000 0x1001FFFD 0)) ∧
      (stepped (inFlight 0xAC220000 0x1001FFFD 0)).faulted = some (.regionStraddle 0x1001FFFD)) ∧
    (step (inFlight 0xAC220000 0x10010000 0x004FFFFD) = .next (stepped (inFlight 0xAC220000 0x10010000 0x004FFFFD)) ∧
      (stepped (inFlight 0xAC220000 0x10010000 0x004FFFFD)).faulted = some (.regionStraddle 0x004FFFFD)) :=
  ⟨⟨step_stepped (by decide), by decide⟩, ⟨step_stepped (by decide), by decide⟩, ⟨step_stepped (by decide), by decide⟩⟩

/-- The state MemoryAccess leaves in `witness_StepRunsTheDecodedInstructions`. -/
def afterMemory (s : State) : State := (((s.atStage .writeback).writebackTo 3 9).atStage .memoryAccess).memoryStore

/-- With no fault and a fetch that reads; with a fetch that straddles; with a fault in MemoryAccess. -/
theorem witness_StepRunsTheDecodedInstructions :
    (let s := busy
     s.faulted = none ∧ decodeWord s.memwb.ir = .ok (.add 1 2 3 0) ∧ decodeWord s.exmem.ir = .ok (.sw 1 2 0) ∧
        (afterMemory s).faulted = none ∧ decodeWord s.idex.ir = .ok (.mult 1 2 0 0) ∧
        memRead s.cfg.regions (afterMemory s).mem s.cur.pc = .ok 0x11223344) ∧
    (let s := inFlight 0xAC220000 0x10010000 0x004FFFFD
     (afterMemory s).faulted = none ∧
        memRead s.cfg.regions (afterMemory s).mem s.cur.pc = .error (.regionStraddle 0x004FFFFD)) ∧
    (afterMemory (inFlight 0xAC220000 0x1001FFFD 0)).faulted = some (.regionStraddle 0x1001FFFD) ∧
    (∀ s : State, s.memwb.aluOutput = 9 →
      exec (.add 1 2 3 0) { s with stage := .writeback } = .next ((s.atStage .writeback).writebackTo 3 9)) ∧
    (∀ s : State, s.memwb.aluOutput = 9 →
      exec (.sw 1 2 0) { (s.atStage .writeback).writebackTo 3 9 with stage := .memoryAccess } = .next (afterMemory s)) ∧
    (∃ s3, exec (.mult 1 2 0 0) { afterMemory busy with stage := .execute } = .next s3) :=
  ⟨by decide, by decide, by decide,
    fun s h => by
      show Host.Outcome.next ((s.atStage .writeback).writebackTo 3 s.memwb.aluOutput) = _
      rw [h],
    fun _ _ => rfl, ⟨_, rfl⟩⟩
/-- Inside a region, outside every region, and at the first address of a region at which a word straddles; the bytes beside the word. -/
theorem witness_PlacedWordIsNext :
    State.reset.mem.wf ∧ owningRegion State.reset.cfg.regions State.reset.cur.pc = some ⟨.text, 0x00400000, 0x004FFFFF⟩ ∧
      State.reset.cur.pc.toNat + 3 ≤ (0x004FFFFF#32).toNat ∧
      (∃ m, memWrite State.reset.cfg.regions State.reset.mem State.reset.cur.pc 1 = .ok m) ∧
      0x003FFFFF < State.reset.cur.pc.toNat ∧ State.reset.cur.pc.toNat + 3 < 0x00400004 ∧
      owningRegion (inFlight 0 0 0x20000000).cfg.regions (inFlight 0 0 0x20000000).cur.pc = none ∧
      owningRegion (inFlight 0 0 0x004FFFFD).cfg.regions (inFlight 0 0 0x004FFFFD).cur.pc = some ⟨.text, 0x00400000, 0x004FFFFF⟩ ∧
      (0x004FFFFF#32).toNat < (inFlight 0 0 0x004FFFFD).cur.pc.toNat + 3 :=
  ⟨by decide, by decide, by decide, ⟨_, rfl⟩, by decide, by decide, by decide, by decide, by decide⟩
theorem witness_NothingStopsButAFault : State.reset.faulted = none ∧ busy.faulted = none := by decide
theorem witness_FaultedStateIsFinal :
    (State.reset.markFaulted (.regionStraddle 3)).faulted = some (.regionStraddle 3) := by decide
theorem witness_OnlyStraddlesFault :
    (∃ s t, step s = .next t ∧ t.faulted = some (.regionStraddle s.exmem.aluOutput)) ∧
    (∃ s t, step s = .next t ∧ t.faulted = some (.regionStraddle s.cur.pc)) ∧ (∃ s t, step s = .next t ∧ t.faulted = none) :=
  ⟨⟨_, _, threeSteps.2.1⟩, ⟨_, _, threeSteps.2.2⟩, ⟨_, _, threeSteps.1⟩⟩
theorem witness_ImmediateAluComputesIntoRt : EachStage ∧ ∃ s t, step s = .next t ∧ t.faulted = none :=
  ⟨eachStage, _, _, threeSteps.1⟩
theorem witness_CompletedCycleMovesThePipeline : ∃ s t, step s = .next t ∧ t.faulted = none := ⟨_, _, threeSteps.1⟩
theorem witness_StepKeepsConfigAndRunFlag : ∃ s t, step s = .next t := ⟨_, _, threeSteps.2.2.1⟩
/-- A word with a destination register in Writeback, one without, and one that is no instruction. -/
theorem witness_OneRegisterWrittenAndSeenNextCycle :
    (step busy = .next (stepped busy) ∧ step (stepped busy) = .next (stepped (stepped busy)) ∧
      (stepped (stepped busy)).faulted = none ∧ decodeWord busy.memwb.ir = .ok (.add 1 2 3 0) ∧ destination busy.cfg.wbMode (.add 1 2 3 0) = some 3) ∧
    (let s := busy.setMemwb (latch 0x0022182B 0 9)
     step s = .next (stepped s) ∧ step (stepped s) = .next (stepped (stepped s)) ∧ (stepped (stepped s)).faulted = none ∧
        decodeWord s.memwb.ir = .error (.unhandledFunction 0x2B)) :=
  ⟨⟨step_stepped (by decide), step_stepped (by decide), by decide, by decide, by decide⟩,
    ⟨step_stepped (by decide), step_stepped (by decide), by decide, by decide⟩⟩
/-- The empty word, an SLL with rd 0, in Writeback. -/
theorem witness_WritebackWritesAtMostOneRegister :
    (let s := busy.setMemwb (latch 0 0 9)
     step s = .next (stepped s) ∧ step (stepped s) = .next (stepped (stepped s)) ∧ (stepped (stepped s)).faulted = none ∧
       decodeWord s.memwb.ir = .ok (.sll 0 0 0 0)) ∧
    (∃ s1, exec (.add 1 2 3 0) { busy with stage := .writeback } = .next s1) :=
  ⟨⟨step_stepped (by decide), step_stepped (by decide), by decide, by decide⟩, ⟨_, rfl⟩⟩
/-- The eight instructions in Execute with a divisor that is not 0; an instruction that does not read HI and LO, one that does not write
them, and the moves of the host. -/
theorem witness_HiLoReachedByEightInstructionsAndHost :
    ((staged Config.default .execute 1 0).stage = .execute ∧ (staged Config.default .execute 1 0).idex.b ≠ 0) ∧
    (∃ t, exec (.mult 1 2 0 0) busy = .next t) ∧
    (∀ rs rt rd sa, Instr.mult 1 2 0 0 ≠ .mfhi rs rt rd sa ∧ Instr.mult 1 2 0 0 ≠ .mflo rs rt rd sa) ∧
    busy.stage ≠ .execute ∧ writesHiLo (.lw 1 2 0) = false ∧
    (let s := busy.setIdex (latch 0x8C220000 0 0)
     step s = .next (stepped s) ∧ (stepped s).faulted = none ∧ decodeWord s.idex.ir = .ok (.lw 1 2 0)) ∧
    (∃ t, hostMove (.setReg 0 1) busy = .next t) ∧ (∃ t, hostMove (.setRunning false) busy = .next t) :=
  ⟨by decide, ⟨_, rfl⟩, fun _ _ _ _ => ⟨Instr.noConfusion, Instr.noConfusion⟩, by decide, rfl,
    ⟨step_stepped (by decide), by decide, by decide⟩, ⟨_, rfl⟩, ⟨_, rfl⟩⟩
theorem witness_FetchReadsLittleEndianWords :
    step busy = .next (stepped busy) ∧ (stepped busy).faulted = none ∧ (owningRegion busy.cfg.regions busy.cur.pc).isSome = true :=
  ⟨step_stepped (by decide), by decide, by decide⟩
theorem witness_RetiredCountsRetiringWords :
    ∃ s t, step s = .next t ∧ retires s.memwb.ir = true := ⟨_, _, threeSteps.2.1.1, by decide⟩
/-- A cycle that an access stops, and a divide by zero in one that completes. -/
theorem witness_DiagnosticsComeFromExecute :
    (∃ s t, step s = .next t ∧ accessStraddles s) ∧
    (let s := busy.setIdex (latch 0x0022001A 0 0)
     step s = .next (stepped s) ∧ (stepped s).faulted = none ∧
        diagnosticOf s.cycles s.idex = [⟨0, .divideByZero, 0x0022001A#32⟩]) :=
  ⟨⟨_, _, threeSteps.2.1.1, ⟨⟨.sw 1 2 0, by decide, by decide⟩, ⟨.data, 0x10010000, 0x1001FFFF⟩, by decide, by decide⟩⟩,
    ⟨step_stepped (by decide), by decide, by decide⟩⟩
/-- The same word that is no instruction in each of the three latches. -/
theorem witness_UnlistedWordsDoNothing :
    let s := ((busy.setIdex (latch 0xFC000000 1 2)).setExmem (latch 0xFC000000 1 2)).setMemwb (latch 0xFC000000 1 2)
    step s = .next (stepped s) ∧ (stepped s).faulted = none ∧ decodeWord s.idex.ir = .error (.unrecognizedOpcode 0x3F) ∧
      decodeWord s.exmem.ir = .error (.unrecognizedOpcode 0x3F) ∧ decodeWord s.memwb.ir = .error (.unrecognizedOpcode 0x3F) :=
  ⟨step_stepped (by decide), by decide, by decide, by decide, by decide⟩

/-! ### Invariants -/

theorem inv_busy : busy.Inv := ⟨by decide, by decide, by decide, fun _ => by decide⟩
theorem witness_StepKeepsInvariant : ∃ s t, s.Inv ∧ step s = .next t := ⟨_, _, inv_busy, threeSteps.1.1⟩
theorem latches_reset : State.reset.LatchesProduced :=
  ⟨by decide, by decide, by decide, by decide, by decide, by decide, by decide⟩
theorem witness_StepKeepsLatchesProduced : ∃ s t, s.LatchesProduced ∧ step s = .next t :=
  ⟨_, _, latches_reset, step_stepped (by decide)⟩
/-- Each move of the host, and the three invariants it keeps. -/
theorem witness_HostKeepsInvariants :
    (∃ t, hostMove .step State.reset = .next t) ∧ (∃ t, hostMove .reset State.reset = .next t) ∧
    (∃ t, hostMove (.setRunning false) State.reset = .next t) ∧ (∃ t, hostMove (.setReg 31 1) State.reset = .next t) ∧
    (∃ t, hostMove (.setHi 1) State.reset = .next t) ∧ (∃ t, hostMove (.setLo 1) State.reset = .next t) ∧
    State.reset.Inv ∧ State.reset.LatchesProduced ∧ State.reset.PcCounts :=
  ⟨⟨_, rfl⟩, ⟨_, rfl⟩, ⟨_, rfl⟩, ⟨_, rfl⟩, ⟨_, rfl⟩, ⟨_, rfl⟩, ⟨by decide, by decide, by decide, fun _ => by decide⟩, latches_reset,
    by decide⟩

/-! ### Runs -/

/-- A program of one word at the reset pc. -/
def program (w : Word) (regs : List (RegNum × Word)) : State :=
  let s := (start Config.default regs).setMem dataMem
  match memWrite s.cfg.regions s.mem s.cur.pc w with
  | .ok m => s.setMem m
  | .error _ => s

theorem fiveCycles {s : State} (h : s.faulted = none) (h1 : (stepped s).faulted = none) (h2 : (stepped (stepped s)).faulted = none)
    (h3 : (stepped (stepped (stepped s))).faulted = none) (h4 : (stepped (stepped (stepped (stepped s)))).faulted = none)
    (h5 : (stepped (stepped (stepped (stepped (stepped s))))).faulted = none) :
    FiveCycles s (stepped s) (stepped (stepped s)) (stepped (stepped (stepped s))) (stepped (stepped (stepped (stepped s))))
      (stepped (stepped (stepped (stepped (stepped s))))) :=
  ⟨step_stepped h, step_stepped h1, step_stepped h2, step_stepped h3, step_stepped h4, h5⟩

theorem safeRun_two : SafeRun 2 busy (stepped (stepped busy)) :=
  .step _ _ _ _ (step_stepped (by decide)) (by decide)
    (.step _ _ _ _ (step_stepped (by decide)) (by decide) (.done _ (by decide)))
theorem witness_PcAdvancesByFourPerCycle :
    SafeRun 2 busy (stepped (stepped busy)) ∧ SafeRun 0 busy busy ∧ State.reset.PcCounts :=
  ⟨safeRun_two, .done _ (by decide), by decide⟩
/-- S4: ADD with 5 and 7, register 31 as its destination. -/
theorem witness_ResultReachesItsRegister :
    let s := program 0x0022F820 [(1, 5), (2, 7)]
    FiveCycles s (stepped s) (stepped (stepped s)) (stepped (stepped (stepped s))) (stepped (stepped (stepped (stepped s))))
      (stepped (stepped (stepped (stepped (stepped s))))) ∧
    memRead s.cfg.regions (stepped s).mem s.cur.pc = .ok 0x0022F820 ∧ decodeWord 0x0022F820#32 = .ok (.add 1 2 31 0) ∧
    computed s.cfg (.add 1 2 31 0) ((stepped s).cur.read 1) ((stepped s).cur.read 2) (stepped (stepped s)).cur.hi
      (stepped (stepped s)).cur.lo = some (31, 12) :=
  ⟨fiveCycles (by decide) (by decide) (by decide) (by decide) (by decide) (by decide), by decide, by decide, by decide⟩
/-- V-L1: LB of the byte 0x80. -/
theorem witness_LoadReachesItsRegister :
    let s := program 0x80230000 [(1, 0x10010000)]
    FiveCycles s (stepped s) (stepped (stepped s)) (stepped (stepped (stepped s))) (stepped (stepped (stepped (stepped s))))
      (stepped (stepped (stepped (stepped (stepped s))))) ∧
    memRead s.cfg.regions (stepped s).mem s.cur.pc = .ok 0x80230000 ∧ decodeWord 0x80230000#32 = .ok (.lb 1 3 0) ∧
    memRead s.cfg.regions (stepped (stepped (stepped s))).mem
      ((stepped s).cur.read (rsField 0x80230000) + (immField 0x80230000).signExtend 32) = .ok 0x11223380 ∧
    loaded (.lb 1 3 0) 0x11223380 = some (3, 0x80) :=
  ⟨fiveCycles (by decide) (by decide) (by decide) (by decide) (by decide) (by decide), by decide, by decide, by decide, by decide⟩
/-- V-W1: SB, and the bytes on either side of its word. -/
theorem witness_StoreReachesMemory :
    let s := program 0xA0220001 [(1, 0x10010000), (2, 0x11223344)]
    FiveCycles s (stepped s) (stepped (stepped s)) (stepped (stepped (stepped s))) (stepped (stepped (stepped (stepped s))))
      (stepped (stepped (stepped (stepped (stepped s))))) ∧
    memRead s.cfg.regions (stepped s).mem s.cur.pc = .ok 0xA0220001 ∧ decodeWord 0xA0220001#32 = .ok (.sb 1 2 1) ∧
    isStore (.sb 1 2 1) = true ∧
    (stepped s).cur.read (rsField 0xA0220001) + (immField 0xA0220001).signExtend 32 = 0x10010001#32 ∧
    0x10010000 < (0x10010001#32).toNat ∧ (0x10010001#32).toNat + 3 < 0x10010005 :=
  ⟨fiveCycles (by decide) (by decide) (by decide) (by decide) (by decide) (by decide), by decide, by decide, rfl, by decide, by decide,
    by decide⟩

/-- A run, one step at a time. -/
theorem run_stepped (n : Nat) {s : State} (h : s.faulted = none) :
    Host.Core.run core (n + 1) s = Host.Core.run core n (stepped s) := run_succ_next (step_stepped h) n

/-- Two steps with the words `e` in Execute and `d` in Decode. -/
def pair (e d : Word) : State := (busy.setIdex { Latch.zero with ir := e, a := 0xFFFFFFFF, b := 2 }).setIfid (latch d 0 0)

/-- Two steps in a row, the last to a state that has not faulted. -/
abbrev TwoSteps (s : State) : Prop :=
  step s = .next (stepped s) ∧ step (stepped s) = .next (stepped (stepped s)) ∧ (stepped (stepped s)).faulted = none

theorem twoSteps {s : State} (h : s.faulted = none) (h1 : (stepped s).faulted = none) (h2 : (stepped (stepped s)).faulted = none) :
    TwoSteps s := ⟨step_stepped h, step_stepped h1, h2⟩

/-- The word `w` before MFHI, and before MFLO. -/
abbrev BothReaders (w : Word) : Prop := TwoSteps (pair w 0x00001810) ∧ TwoSteps (pair w 0x00001812)

/-- MULT, MULTU, DIV, DIVU, MTHI, MTLO and a DIV by zero, each before MFHI and before MFLO, with the HI and LO they leave. -/
theorem witness_HiLoSeenByTheNextWord :
    (BothReaders 0x00220018 ∧ BothReaders 0x00220019 ∧ BothReaders 0x0022001A ∧ BothReaders 0x0022001B ∧ BothReaders 0x00200011 ∧
      BothReaders 0x00200013) ∧
    TwoSteps ((pair 0x0022001A 0x00001810).setIdex (latch 0x0022001A 0 0)) ∧
    (decodeWord 0x00220018#32 = .ok (.mult 1 2 0 0) ∧ decodeWord 0x00220019#32 = .ok (.multu 1 2 0 0) ∧
      decodeWord 0x0022001A#32 = .ok (.div 1 2 0 0) ∧ decodeWord 0x0022001B#32 = .ok (.divu 1 2 0 0) ∧
      decodeWord 0x00200011#32 = .ok (.mthi 1 0 0 0) ∧ decodeWord 0x00200013#32 = .ok (.mtlo 1 0 0 0)) ∧
    (decodeWord 0x00001810#32 = .ok (.mfhi 0 0 3 0) ∧ decodeWord 0x00001812#32 = .ok (.mflo 0 0 3 0)) ∧
    (hiLoAfter Config.default (.mult 1 2 0 0) 0xFFFFFFFF 2 5 6 = (1, 0xFFFFFFFE) ∧
      hiLoAfter Config.default (.div 1 2 0 0) 0xFFFFFFFF 2 5 6 = (1, 0x7FFFFFFF) ∧
      hiLoAfter signed (.div 1 2 0 0) 0xFFFFFFF9 2 5 6 = (0xFFFFFFFF, 0xFFFFFFFD) ∧
      hiLoAfter Config.default (.divu 1 2 0 0) 0xFFFFFFFF 0 5 6 = (5, 6) ∧
      hiLoAfter Config.default (.mthi 1 0 0 0) 0xFFFFFFFF 2 5 6 = (0xFFFFFFFF, 6) ∧
      hiLoAfter Config.default (.mtlo 1 0 0 0) 0xFFFFFFFF 2 5 6 = (5, 0xFFFFFFFF)) := by
  refine ⟨⟨⟨?_, ?_⟩, ⟨?_, ?_⟩, ⟨?_, ?_⟩, ⟨?_, ?_⟩, ⟨?_, ?_⟩, ⟨?_, ?_⟩⟩, ?_, by decide, by decide, by decide⟩
  all_goals exact twoSteps (by decide) (by decide) (by decide)

/-- `busy` with the word `w` in IF/ID. -/
def decoding (w : Word) : State := { busy with ifid := { busy.ifid with ir := w } }
/-- Two words of ADD with different `sa`, two of BEQ with no field alike under `skipNoDest`, and two of JR with the same `rd` under
`literal`; and the four steps after which the word has left the pipeline. -/
theorem witness_UnusedFieldsChangeNothing :
    (decodeWord 0x00221820#32 = .ok (.add 1 2 3 0) ∧ (0x03FFFFE0#32).extractLsb' 26 6 = (0x00221820#32).extractLsb' 26 6 ∧
      (0x00221820#32).extractLsb' 26 6 = 0 ∧ (0x03FFFFE0#32).extractLsb' 0 6 = (0x00221820#32).extractLsb' 0 6) ∧
    (0x00221FE0#32 &&& usedBits busy.cfg.wbMode (.add 1 2 3 0) = 0x00221820#32 &&& usedBits busy.cfg.wbMode (.add 1 2 3 0)) ∧
    (decodeWord 0x10220004#32 = .ok (.beq 1 2 4) ∧
      0x13FFFFFF#32 &&& usedBits .skipNoDest (.beq 1 2 4) = 0x10220004#32 &&& usedBits .skipNoDest (.beq 1 2 4)) ∧
    (decodeWord 0x00201808#32 = .ok (.jr 1 0 3 0) ∧
      0x03FF1FC8#32 &&& usedBits .literal (.jr 1 0 3 0) = 0x00201808#32 &&& usedBits .literal (.jr 1 0 3 0)) ∧
    Host.Core.run core 4 (decoding 0x00221820) = .next (stepped (stepped (stepped (stepped (decoding 0x00221820))))) := by
  refine ⟨by decide, by decide, by decide, by decide, ?_⟩
  rw [run_stepped 3 (by decide), run_stepped 2 (by decide), run_stepped 1 (by decide), run_stepped 0 (by decide)]
  rfl
/-- A fetch of the word stored, and an LW from the address stored to. -/
theorem witness_StoreSeenByNextLoadAndFetch :
    let s := busy.setIdex { Latch.zero with ir := 0x8C230000, a := 0x00400000 }
    step s = .next (stepped s) ∧ (stepped s).faulted = none ∧ s.mem.wf ∧ decodeWord s.exmem.ir = .ok (.sw 1 2 0) ∧
    isStore (.sw 1 2 0) = true ∧ (owningRegion s.cfg.regions s.exmem.aluOutput).isSome = true ∧ s.cur.pc = s.exmem.aluOutput ∧
    step (stepped s) = .next (stepped (stepped s)) ∧ (stepped (stepped s)).faulted = none ∧
    decodeWord s.idex.ir = .ok (.lw 1 3 0) ∧ s.idex.a + s.idex.imm = s.exmem.aluOutput :=
  ⟨step_stepped (by decide), by decide, by decide, by decide, rfl, by decide, by decide, step_stepped (by decide), by decide, by decide,
    by decide⟩
/-- V-F1's start: the latches zero, register 0 holding 0x99. -/
theorem witness_BubblesAfterReset :
    let s := start Config.default [(0, 0x99)]
    s.nxt = s.cur ∧ s.ifid = Latch.zero ∧ s.idex = Latch.zero ∧ s.exmem = Latch.zero ∧ s.memwb = Latch.zero ∧
    step s = .next (stepped s) ∧ step (stepped s) = .next (stepped (stepped s)) ∧
    step (stepped (stepped s)) = .next (stepped (stepped (stepped s))) ∧
    step (stepped (stepped (stepped s))) = .next (stepped (stepped (stepped (stepped s)))) ∧
    (stepped (stepped (stepped (stepped s)))).faulted = none :=
  ⟨by decide, by decide, by decide, by decide, by decide, step_stepped (by decide), step_stepped (by decide), step_stepped (by decide),
    step_stepped (by decide), by decide⟩

/-! ### Reset and the host -/

/-- A configuration with an eight-byte text region. -/
def small (image : List Word) : Config := { Config.default with regions := [⟨.text, 4, 11⟩], image := image }
theorem witness_ResetLeavesTheStatedValues :
    State.reset.faulted = none ∧ regionsWellFormed [⟨.data, 0, 7⟩] = false ∧
    (regionsWellFormed (small [1, 2, 3]).regions = true ∧ imageFits (small [1, 2, 3]) = false) ∧
    (regionsWellFormed (small [1, 2]).regions = true ∧ imageFits (small [1, 2]) = true) := by decide
/-- The last word of an image that fills its region, and the bytes on either side of it. -/
theorem witness_ResetLoadsTheImage :
    (∃ t, resetWith (small [1, 2]) [] = .next t) ∧ 1 < (small [1, 2]).image.length ∧ 3 < (small [1, 2]).textBase.toNat ∧
      (small [1, 2]).textBase.toNat + 4 * (small [1, 2]).image.length ≤ 12 := ⟨⟨_, rfl⟩, by decide, by decide, by decide⟩
/-- A reset with an image of one word and one with an empty image, and the bytes on either side of the first. -/
theorem witness_ResetZeroFillsMemory :
    (∃ t, hostMove .reset ({ busy with cfg := small [1] }) = .next t) ∧ (∃ t, hostMove .reset busy = .next t) ∧ busy.cfg.image = [] ∧
      3 < (small [1]).textBase.toNat ∧ (small [1]).textBase.toNat + 4 * (small [1]).image.length ≤ 8 :=
  ⟨⟨_, rfl⟩, ⟨_, rfl⟩, rfl, by decide, by decide⟩
theorem witness_HostWritesBothInstances :
    State.reset.faulted = none ∧
    memRead State.reset.cfg.regions State.reset.mem 0x1001FFFD = .error (.regionStraddle 0x1001FFFD) ∧
    memRead State.reset.cfg.regions State.reset.mem 0x1001FFFC = .ok 0 := by decide
/-- A clear flag and a recorded fault; a safe run of two steps; and a run that a fault ends, to completion. -/
theorem witness_RunCyclesIsRepeatedStep :
    (busy.hostSetRunning false).running = false ∧ (State.reset.markFaulted (.regionStraddle 3)).faulted ≠ none ∧
    (busy.running = true ∧ SafeRun 2 busy (stepped (stepped busy))) ∧
    (let s := inFlight 0xAC220000 0x1001FFFD 0
     s.running = true ∧ SafeRun 0 s s ∧ step s = .next (stepped s) ∧ (stepped s).faulted ≠ none ∧ RunsToCompletion s (stepped s)) :=
  ⟨by decide, by decide, ⟨by decide, safeRun_two⟩, by decide, .done _ (by decide), threeSteps.2.1.1, by decide,
    .step _ _ _ (by decide) threeSteps.2.1.1 (.stopped _ (by decide))⟩


end Sys2Proof.Tests
end

section
/-! HI and LO: who reads them, who writes them (10_state.md R21). -/

namespace Sys2Proof.Machine

open Sys2Proof.Claims

/-! ## What Execute does, shape by shape, in the words of the claims -/

theorem executesTo_of_resultTo {i : Instr} {d : RegNum} {v : State → Word} (h : ∀ s, exec i s = resultTo d v s) :
    ExecutesTo i v := fun s hs => by rw [h, resultTo_execute hs]; rfl

theorem executesToHiLo_of_effectOnly {i : Instr} {d : RegNum} {e : State → State} {hi lo : State → Word}
    (h : ∀ s, exec i s = effectOnly d e s) (he : ∀ s, e s = { s with nxt := { s.nxt with hi := hi s, lo := lo s } }) :
    ExecutesToHiLo i hi lo := fun s hs => by rw [h, effectOnly_execute hs, he]; rfl

theorem State.writeProduct_eq (s : State) : s.writeProduct = { s with nxt := { s.nxt with
    hi := BitVec.ofNat 32 (s.idex.a.toNat * s.idex.b.toNat / 2 ^ 32)
    lo := BitVec.ofNat 32 (s.idex.a.toNat * s.idex.b.toNat % 2 ^ 32) } } := by
  rw [State.writeProduct, productHigh_eq, productLow_eq]; rfl

theorem divides_of_writeQuotient {i : Instr} {d : RegNum} {reading : State → Signedness}
    (h : ∀ s, exec i s = effectOnly d (fun s => s.writeQuotient (reading s)) s) :
    Divides i (fun s => remainder (reading s) s.idex.a s.idex.b) (fun s => quotient (reading s) s.idex.a s.idex.b) := by
  intro s hs
  constructor
  · intro hb; rw [h, effectOnly_execute hs, State.writeQuotient_zero hb]; rfl
  · intro hb; rw [h, effectOnly_execute hs, State.writeQuotient_nonzero hb]; rfl

theorem div_divides (rs rt rd : RegNum) (sa : ShiftAmount) :
    Divides (.div rs rt rd sa) (fun s => remainder s.cfg.divCmp s.idex.a s.idex.b)
      (fun s => quotient s.cfg.divCmp s.idex.a s.idex.b) :=
  divides_of_writeQuotient (exec_div rs rt rd sa)

theorem divu_divides (rs rt rd : RegNum) (sa : ShiftAmount) :
    Divides (.divu rs rt rd sa) (fun s => s.idex.a % s.idex.b) (fun s => s.idex.a / s.idex.b) := by
  simpa only [remainder_unsigned, quotient_unsigned] using
    divides_of_writeQuotient (reading := fun _ => .unsigned) (exec_divu rs rt rd sa)

/-! ## Reads: HI and LO of `cur` under another value

A stage that does not read them does the same work whatever they hold, and leaves them as it found them. -/

/-- `cur.hi` and `cur.lo` replaced. -/
def State.withCurHiLo (hi lo : Word) (s : State) : State := { s with cur := { s.cur with hi := hi, lo := lo } }

/-- A stage's work commutes with replacing HI and LO of `cur`. -/
def WorkIgnoresCurHiLo (f : State → State) : Prop := ∀ hi lo s, f (s.withCurHiLo hi lo) = (f s).withCurHiLo hi lo

/-- A value that does not depend on HI and LO of `cur`. -/
def ValueIgnoresCurHiLo (v : State → Word) : Prop := ∀ hi lo s, v (s.withCurHiLo hi lo) = v s

/-- A share that answers a next state answers it with the same replacement when HI and LO of `cur` are replaced before it. -/
def ResultIgnoresCurHiLo (f : State → Result) : Prop :=
  ∀ hi lo s t, f s = .next t → f (s.withCurHiLo hi lo) = .next (t.withCurHiLo hi lo)

theorem executeResult_ignoresCurHiLo {v : State → Word} (hv : ValueIgnoresCurHiLo v) :
    WorkIgnoresCurHiLo fun s => s.executeResult (v s) := fun hi lo s => by dsimp only; rw [hv]; rfl

theorem memoryLoad_ignoresCurHiLo (mask : Word) : WorkIgnoresCurHiLo fun s => s.memoryLoad mask := by
  intro hi lo s
  dsimp only [State.memoryLoad, State.withCurHiLo]
  cases memRead s.cfg.regions s.mem s.exmem.aluOutput <;> rfl

theorem memoryStore_ignoresCurHiLo : WorkIgnoresCurHiLo State.memoryStore := by
  intro hi lo s
  dsimp only [State.memoryStore, State.withCurHiLo]
  cases memWrite s.cfg.regions s.mem s.exmem.aluOutput s.exmem.b <;> rfl

theorem writebackNoDest_ignoresCurHiLo (d : RegNum) : WorkIgnoresCurHiLo fun s => s.writebackNoDest d := by
  intro hi lo s
  dsimp only [State.writebackNoDest, State.withCurHiLo]
  cases s.cfg.wbMode <;> rfl

theorem writeQuotient_ignoresCurHiLo {reading : State → Signedness} (hr : ∀ hi lo s, reading (s.withCurHiLo hi lo) = reading s) :
    WorkIgnoresCurHiLo fun s => s.writeQuotient (reading s) := by
  intro hi lo s
  dsimp only
  rw [hr]
  by_cases hb : s.idex.b = 0
  · rw [State.writeQuotient_zero hb, State.writeQuotient_zero (s := s.withCurHiLo hi lo) hb]; rfl
  · rw [State.writeQuotient_nonzero hb, State.writeQuotient_nonzero (s := s.withCurHiLo hi lo) hb]; rfl

theorem stageWork_ignoresCurHiLo {ex mem wb : State → State} (hex : WorkIgnoresCurHiLo ex) (hmem : WorkIgnoresCurHiLo mem)
    (hwb : WorkIgnoresCurHiLo wb) : ResultIgnoresCurHiLo (stageWork ex mem wb) := by
  intro hi lo s t h
  cases hs : s.stage with
  | writeback =>
    rw [stageWork_writeback hs] at h; cases h
    rw [stageWork_writeback (s := s.withCurHiLo hi lo) hs, hwb]
  | memoryAccess =>
    rw [stageWork_memoryAccess hs] at h; cases h
    rw [stageWork_memoryAccess (s := s.withCurHiLo hi lo) hs, hmem]
  | execute =>
    rw [stageWork_execute hs] at h; cases h
    rw [stageWork_execute (s := s.withCurHiLo hi lo) hs, hex]

theorem resultTo_ignoresCurHiLo (d : RegNum) {v : State → Word} (hv : ValueIgnoresCurHiLo v) :
    ResultIgnoresCurHiLo (resultTo d v) :=
  stageWork_ignoresCurHiLo (executeResult_ignoresCurHiLo hv) (fun _ _ _ => rfl) (fun _ _ _ => rfl)

theorem effectOnly_ignoresCurHiLo (d : RegNum) {e : State → State} (he : WorkIgnoresCurHiLo e) :
    ResultIgnoresCurHiLo (effectOnly d e) :=
  stageWork_ignoresCurHiLo (fun hi lo s => by rw [he]; rfl) (fun _ _ _ => rfl) (writebackNoDest_ignoresCurHiLo d)

theorem loadTo_ignoresCurHiLo (d : RegNum) (mask : Word) {address : State → Word} (ha : ValueIgnoresCurHiLo address) :
    ResultIgnoresCurHiLo (loadTo d mask address) :=
  stageWork_ignoresCurHiLo (executeResult_ignoresCurHiLo ha) (memoryLoad_ignoresCurHiLo mask) (fun _ _ _ => rfl)

theorem storeFrom_ignoresCurHiLo (d : RegNum) {address : State → Word} (ha : ValueIgnoresCurHiLo address) :
    ResultIgnoresCurHiLo (storeFrom d address) :=
  stageWork_ignoresCurHiLo (executeResult_ignoresCurHiLo ha) memoryStore_ignoresCurHiLo (writebackNoDest_ignoresCurHiLo d)

/-- MFHI and MFLO are the only readers of HI and LO. -/
theorem exec_ignoresCurHiLo (i : Instr) (h : ∀ rs rt rd sa, i ≠ .mfhi rs rt rd sa ∧ i ≠ .mflo rs rt rd sa) :
    ResultIgnoresCurHiLo (exec i) := by
  cases i with
  | mfhi rs rt rd sa => exact absurd rfl (h rs rt rd sa).1
  | mflo rs rt rd sa => exact absurd rfl (h rs rt rd sa).2
  | sll | srl | sra | add | addu | sub | subu | and | or | xor | nor | slt =>
    exact resultTo_ignoresCurHiLo _ fun _ _ _ => rfl
  | addi | addiu | slti | andi | ori | xori | lui => exact resultTo_ignoresCurHiLo _ fun _ _ _ => rfl
  | lb | lh | lw => exact loadTo_ignoresCurHiLo _ _ fun _ _ _ => rfl
  | sb | sh | sw => exact storeFrom_ignoresCurHiLo _ fun _ _ _ => rfl
  | jr | jalr | bltz | bgez | regimmOther | j | jal | beq | bne | blez | bgtz | mthi | mtlo | mult | multu =>
    exact effectOnly_ignoresCurHiLo _ fun _ _ _ => rfl
  | div => exact effectOnly_ignoresCurHiLo _ (writeQuotient_ignoresCurHiLo (reading := fun s => s.cfg.divCmp) fun _ _ _ => rfl)
  | divu => exact effectOnly_ignoresCurHiLo _ (writeQuotient_ignoresCurHiLo (reading := fun _ => .unsigned) fun _ _ _ => rfl)
  | syscall => exact stageWork_ignoresCurHiLo (fun _ _ _ => rfl) (fun _ _ _ => rfl) (fun _ _ _ => rfl)

/-! ## Writes: what keeps HI and LO of `nxt` -/

/-- In Execute, `nxt` stays as it is. -/
def ExecuteKeepsNxt (f : State → Result) : Prop := ∀ s t, s.stage = .execute → f s = .next t → t.nxt = s.nxt

theorem stageWork_executeKeepsNxt {ex mem wb : State → State} (h : ∀ s, (ex s).nxt = s.nxt) :
    ExecuteKeepsNxt (stageWork ex mem wb) := by
  intro s t hs ht
  rw [stageWork_execute hs] at ht; cases ht
  exact h s

/-- The six writers are the only instructions whose Execute changes `nxt`. -/
theorem exec_executeKeepsNxt {i : Instr} (hw : writesHiLo i = false) : ExecuteKeepsNxt (exec i) := by
  cases i with
  | mthi | mtlo | mult | multu | div | divu => cases hw
  | _ => exact stageWork_executeKeepsNxt fun _ => rfl

theorem skipWord_executeKeepsNxt (r : Reject) : ExecuteKeepsNxt (skipWord r) :=
  stageWork_executeKeepsNxt fun _ => by cases r <;> rfl

/-- Only Execute, and there only the six writers, change HI and LO of `nxt`. -/
theorem exec_keeps_nxt_hiLo {i : Instr} {s t : State} (h : exec i s = .next t)
    (hw : s.stage ≠ .execute ∨ writesHiLo i = false) : t.nxt.hi = s.nxt.hi ∧ t.nxt.lo = s.nxt.lo := by
  cases hs : s.stage with
  | writeback =>
    obtain ⟨u, hu, hdoes⟩ := (exec_work i).writeback s hs
    rw [h] at hu; cases hu
    rw [hdoes.frame]; exact ⟨rfl, rfl⟩
  | memoryAccess =>
    obtain ⟨u, hu, hdoes⟩ := (exec_work i).memoryAccess s hs
    rw [h] at hu; cases hu
    rw [hdoes.frame]; exact ⟨rfl, rfl⟩
  | execute =>
    have hnxt := exec_executeKeepsNxt (hw.resolve_left (absurd hs)) s t hs h
    exact ⟨congrArg Arch.hi hnxt, congrArg Arch.lo hnxt⟩

/-- Execute of a word that is none of the six writers, recognized or not, keeps `nxt`. -/
theorem runStage_execute_keeps_nxt {w : Word} {s t : State} (hw : ∀ i, decodeWord w = .ok i → writesHiLo i = false)
    (h : runStage .execute w s = .next t) : t.nxt = s.nxt := by
  cases hd : decodeWord w with
  | ok i => rw [runStage_ok hd] at h; exact exec_executeKeepsNxt (hw i hd) (s.atStage .execute) t rfl h
  | error r => rw [runStage_error hd] at h; exact skipWord_executeKeepsNxt r (s.atStage .execute) t rfl h

/-- A completed cycle without a writer in Execute ends with HI and LO as `nxt` held them before it. -/
theorem step_keeps_hiLo {s t : State} (h : step s = .next t) (ht : t.faulted = none)
    (hw : ∀ i, decodeWord s.idex.ir = .ok i → writesHiLo i = false) : t.cur.hi = s.nxt.hi ∧ t.cur.lo = s.nxt.lo := by
  obtain ⟨s1, s2, s3, w, c⟩ := step_inv_safe h ht
  have hnxt : s3.nxt = s2.nxt := runStage_execute_keeps_nxt hw c.execute
  have hhi : s3.nxt.hi = s.nxt.hi := by rw [hnxt, c.s2_frame]
  have hlo : s3.nxt.lo = s.nxt.lo := by rw [hnxt, c.s2_frame]
  rw [c.frame]
  exact ⟨hhi, hlo⟩

/-! ## The host's moves -/

/-- A move that answers a next state comes from a state that has not faulted. -/
theorem hostMove_next_safe {op : HostOp} {s t : State} (h : hostMove op s = .next t) : s.faulted = none := by
  cases hs : s.faulted with
  | none => rfl
  | some f => simp [hostMove, hs] at h

theorem hostMove_setReg_inv {r : RegNum} {v : Word} {s t : State} (h : hostMove (.setReg r v) s = .next t) :
    t = s.hostSetReg r v := by
  simp only [hostMove, hostMove_next_safe h] at h
  cases h; rfl

theorem hostMove_setRunning_inv {b : Bool} {s t : State} (h : hostMove (.setRunning b) s = .next t) :
    t = s.hostSetRunning b := by
  simp only [hostMove, hostMove_next_safe h] at h
  cases h; rfl

/-! ## The statement -/

/-- Settles O38: the eight instructions by the shape each has; the others read neither, because their work commutes with replacing HI and
LO of `cur`, and write neither, by what each stage leaves of `nxt`. -/
theorem hiLoReachedByEightInstructionsAndHost : Obligations.HiLoReachedByEightInstructionsAndHost := by
  refine ⟨fun rs rt rd sa => ⟨⟨?_, ?_⟩, ⟨?_, ?_⟩, ⟨?_, ?_⟩, fun s hs hb => ⟨?_, ?_⟩⟩, ?_, ?_, ?_, ?_⟩
  · exact executesTo_of_resultTo (exec_mfhi rs rt rd sa)
  · exact executesTo_of_resultTo (exec_mflo rs rt rd sa)
  · exact executesToHiLo_of_effectOnly (exec_mthi rs rt rd sa) fun _ => rfl
  · exact executesToHiLo_of_effectOnly (exec_mtlo rs rt rd sa) fun _ => rfl
  · exact executesToHiLo_of_effectOnly (exec_mult rs rt rd sa) State.writeProduct_eq
  · exact executesToHiLo_of_effectOnly (exec_multu rs rt rd sa) State.writeProduct_eq
  · exact (divu_divides rs rt rd sa s hs).2 hb
  · exact ⟨remainder s.cfg.divCmp s.idex.a s.idex.b, quotient s.cfg.divCmp s.idex.a s.idex.b, fun hi' lo' =>
      (div_divides rs rt rd sa { s with nxt := { s.nxt with hi := hi', lo := lo' } } hs).2 hb⟩
  · exact fun i s t hi lo hread h => exec_ignoresCurHiLo i hread hi lo s t h
  · exact fun i s t h hw => exec_keeps_nxt_hiLo h hw
  · exact fun s t h ht hw => step_keeps_hiLo h ht hw
  · rintro s r v b t (h | h)
    · rw [hostMove_setReg_inv h]; exact ⟨rfl, rfl, rfl, rfl⟩
    · rw [hostMove_setRunning_inv h]; exact ⟨rfl, rfl, rfl, rfl⟩

end Sys2Proof.Machine
end

section
/-! What a reset leaves in memory (20_memory.md R50; 70_reset_and_hazards.md R168, R169). -/

namespace Sys2Proof.Machine

/-- A reset that answers a next state passed both checks, and answers the state with its image loaded. -/
theorem resetWith_inv {c : Config} {d : List DiagEvent} {t : State} (h : resetWith c d = .next t) :
    regionsWellFormed c.regions = true ∧ imageFits c = true ∧ t = State.afterReset c d := by
  cases hr : regionsWellFormed c.regions with
  | false => simp [resetWith, hr] at h
  | true =>
    cases hf : imageFits c with
    | false => simp [resetWith, hr, hf] at h
    | true =>
      simp only [resetWith, hr, hf, Bool.not_true, Bool.false_eq_true, if_false, Host.Outcome.next.injEq] at h
      exact ⟨rfl, rfl, h.symm⟩

theorem hostMove_reset_inv {s t : State} (h : hostMove .reset s = .next t) : resetWith s.cfg s.diag = .next t := by
  simpa only [hostMove, hostMove_next_safe h] using h

/-- An image that fits lies in a region that begins at `TEXT_BASE`. -/
theorem imageFits_region {c : Config} (h : imageFits c = true) :
    ∃ r ∈ c.regions, c.textBase = r.first ∧ c.textBase.toNat + 4 * c.image.length ≤ r.last.toNat + 1 := by
  cases hr : c.regions.find? (fun r => r.name = .text) with
  | none => simp [imageFits, hr] at h
  | some r =>
    have hbase : c.textBase = r.first := by simp [Config.textBase, hr]
    have hlast : r.first.toNat + 4 * c.image.length ≤ r.last.toNat + 1 := by simpa [imageFits, hr] using h
    exact ⟨r, List.mem_of_find?_eq_some hr, hbase, hbase ▸ hlast⟩

/-- Loading words leaves every byte outside theirs alone, where they do not run past the end of the address space. At its very end the
next address wraps to 0, but then no word is left. -/
theorem readByte_loadWords_other (regions : List Region) (words : List Word) (m : Memory) (addr : Word) {a : Nat}
    (hend : addr.toNat + 4 * words.length ≤ 2 ^ 32) (ha : a < addr.toNat ∨ addr.toNat + 4 * words.length ≤ a) :
    (loadWords regions m addr words).readByte a = m.readByte a := by
  induction words generalizing m addr with
  | nil => rfl
  | cons w rest ih =>
    rw [List.length_cons] at hend ha
    have hnext : (addr + 4).toNat = (addr.toNat + 4) % 2 ^ 32 := BitVec.toNat_add addr 4
    have hrest (m' : Memory) : (loadWords regions m' (addr + 4) rest).readByte a = m'.readByte a :=
      ih m' (addr + 4) (by omega) (by omega)
    simp only [loadWords, hrest]
    split
    · next m' e => exact memWrite_other e (by omega)
    · rfl

/-- After a reset every byte outside the image is 0. -/
theorem readByte_afterReset_other {c : Config} (d : List DiagEvent) (h : imageFits c = true) {a : Nat}
    (ha : a < c.textBase.toNat ∨ c.textBase.toNat + 4 * c.image.length ≤ a) :
    (State.afterReset c d).mem.readByte a = 0 := by
  obtain ⟨r, -, -, hlast⟩ := imageFits_region h
  have hend : c.textBase.toNat + 4 * c.image.length ≤ 2 ^ 32 := hlast.trans r.last.isLt
  exact readByte_loadWords_other c.regions c.image [] c.textBase hend ha

/-- With no image a reset leaves memory empty. -/
theorem afterReset_mem_of_no_image {c : Config} (d : List DiagEvent) (h : c.image = []) :
    (State.afterReset c d).mem = [] := by
  rw [State.afterReset, State.setMem_mem, h, loadWords]

/-- Settles O56: memory starts empty, and loading an image that fits writes no byte outside it. -/
theorem resetZeroFillsMemory : Obligations.ResetZeroFillsMemory := by
  intro s t h
  obtain ⟨-, hfits, rfl⟩ := resetWith_inv (hostMove_reset_inv h)
  exact ⟨fun _ ha => readByte_afterReset_other s.diag hfits ha, afterReset_mem_of_no_image s.diag⟩

end Sys2Proof.Machine
end

section
/-! The fetched word (30_encoding.md R57). -/

namespace Sys2Proof.Machine

/-- Each byte of a word in memory, the first the least significant. -/
theorem Memory.byteOfWord_readWord (m : Memory) (a : Nat) {k : Nat} (hk : k < 4) :
    byteOfWord (m.readWord a) k = m.readByte (a + k) := by
  obtain ⟨h0, h1, h2, h3⟩ :=
    byteOfWord_wordOfBytes (m.readByte a) (m.readByte (a + 1)) (m.readByte (a + 2)) (m.readByte (a + 3))
  rw [Memory.readWord]
  interval_cases k
  exacts [h0, h1, h2, h3]

/-- A read that answers inside a region answers the four bytes there. -/
theorem memRead_ok_inside {regions : List Region} {m : Memory} {addr w : Word}
    (hr : (owningRegion regions addr).isSome = true) (h : memRead regions m addr = .ok w) : w = m.readWord addr.toNat := by
  rcases memRead_cases regions m addr with ⟨hnone, -⟩ | ⟨r, -, ⟨-, e⟩ | ⟨-, e⟩⟩
  · rw [hnone] at hr; cases hr
  · rw [e] at h; exact (Except.ok.inj h).symm
  · rw [e] at h; cases h

/-- A completed cycle ends with the word in IF/ID that memory, as the cycle leaves it, gives at the pc. -/
theorem Completes.fetched {s s1 s2 s3 t : State} {w : Word} (c : Completes s s1 s2 s3 w t) :
    memRead s.cfg.regions t.mem s.cur.pc = .ok t.ifid.ir := by
  rw [c.frame]; exact c.fetch

/-- Settles O39: the fetch of a completed cycle, and the bytes of the word it reads. -/
theorem fetchReadsLittleEndianWords : Obligations.FetchReadsLittleEndianWords := by
  intro s t h ht
  obtain ⟨_, _, _, _, c⟩ := step_inv_safe h ht
  refine ⟨c.fetched, fun hr k hk => ?_⟩
  rw [memRead_ok_inside hr c.fetched]
  exact Memory.byteOfWord_readWord t.mem s.cur.pc.toNat hk

end Sys2Proof.Machine
end

section
/-! The decoder's two maps, and the words outside them (30_encoding.md R62, R63). -/

namespace Sys2Proof

open Sys2Proof.Claims

variable {w : Word}

/-! ## The dispatch on the opcode -/

theorem decodeWord_register (h : opField w = 0x00#6) : decodeWord w = decodeRegister w := by rw [decodeWord, h]; rfl

theorem decodeWord_regimm (h : opField w = 0x01#6) : decodeWord w = .ok (decodeRegimm w) := by rw [decodeWord, h]; rfl

theorem decodeWord_j (h : opField w = 0x02#6) : decodeWord w = .ok (.j (targetField w)) := by rw [decodeWord, h]; rfl

theorem decodeWord_jal (h : opField w = 0x03#6) : decodeWord w = .ok (.jal (targetField w)) := by rw [decodeWord, h]; rfl

/-- A row of the opcode map with the fields rs, rt and imm16, from the decoder's case for its opcode. -/
theorem opIs_of_decodeWord {op : BitVec 6} {i : RegNum → RegNum → Imm16 → Instr}
    (h : ∀ w, opField w = op → decodeWord w = .ok (i (rsField w) (rtField w) (immField w))) : OpIs op i := h

theorem decodeWord_unrecognized (h : opField w ∉ [0x00#6, 0x01#6, 0x02#6, 0x03#6, 0x04#6, 0x05#6, 0x06#6, 0x07#6, 0x08#6, 0x09#6,
      0x0A#6, 0x0C#6, 0x0D#6, 0x0E#6, 0x0F#6, 0x20#6, 0x21#6, 0x23#6, 0x28#6, 0x29#6, 0x2B#6]) :
    decodeWord w = .error (.unrecognizedOpcode (opField w)) := by
  unfold decodeWord
  split
  case h_22 => rfl
  all_goals next hop => exact absurd (by rw [hop]; decide) h

/-! ## The function codes under opcode 0 -/

theorem decodeRegister_syscall (h : functField w = 0x0C#6) : decodeRegister w = .ok (.syscall (codeField w)) := by
  rw [decodeRegister, h]; rfl

theorem decodeRegister_unhandled (h : functField w ∉ [0x00#6, 0x02#6, 0x03#6, 0x08#6, 0x09#6, 0x0C#6, 0x10#6, 0x11#6, 0x12#6, 0x13#6,
      0x18#6, 0x19#6, 0x1A#6, 0x1B#6, 0x20#6, 0x21#6, 0x22#6, 0x23#6, 0x24#6, 0x25#6, 0x26#6, 0x27#6, 0x2A#6]) :
    decodeRegister w = .error (.unhandledFunction (functField w)) := by
  unfold decodeRegister
  split
  case h_24 => rfl
  all_goals next hf => exact absurd (by rw [hf]; decide) h

/-- A row of the register-format map, from the decoder's case for its function code. -/
theorem functIs_of_decodeRegister {funct : BitVec 6} {i : RegNum → RegNum → RegNum → ShiftAmount → Instr}
    (h : ∀ w, functField w = funct → decodeRegister w = .ok (i (rsField w) (rtField w) (rdField w) (saField w))) :
    FunctIs funct i := fun w hop hf => (decodeWord_register hop).trans (h w hf)

/-! ## The rt field under opcode 0x01 -/

theorem decodeRegimm_bltz (h : rtField w = 0#5) : decodeRegimm w = .bltz (rsField w) (immField w) := by rw [decodeRegimm, h]; rfl

theorem decodeRegimm_bgez (h : rtField w = 1#5) : decodeRegimm w = .bgez (rsField w) (immField w) := by rw [decodeRegimm, h]; rfl

theorem decodeRegimm_other (h0 : rtField w ≠ 0#5) (h1 : rtField w ≠ 1#5) :
    decodeRegimm w = .regimmOther (rsField w) (rtField w) (immField w) := by
  unfold decodeRegimm
  split
  · next h => exact absurd h h0
  · next h => exact absurd h h1
  · rfl

/-! ## The statement -/

/-- Settles O4: the listed codes by the decoder's case for each, the others by its last case. -/
theorem decodeFollowsTheMaps : Obligations.DecodeFollowsTheMaps := by
  refine ⟨?registerMap, ?opcodeMap, fun w hop => ?regimm, fun w => ⟨fun hop => ?j, fun hop => ?jal⟩, fun w hop hf => ?unhandled,
    fun w hop => ?unrecognized⟩
  case registerMap =>
    refine ⟨?_, ?_, ?_, ?_, ?_, ?_, ?_, ?_, ?_, ?_, ?_, ?_, ?_, ?_, ?_, ?_, ?_, ?_, ?_, ?_, ?_, ?_,
      fun w hop hf => ⟨codeField w, (decodeWord_register hop).trans (decodeRegister_syscall hf)⟩⟩
    all_goals exact functIs_of_decodeRegister fun w h => by rw [decodeRegister, h]; rfl
  case opcodeMap =>
    refine ⟨?_, ?_, ?_, ?_, ?_, ?_, ?_, ?_, ?_, ?_, ?_, ?_, ?_, ?_, ?_, ?_, ?_⟩
    all_goals exact opIs_of_decodeWord fun w h => by rw [decodeWord, h]; rfl
  case regimm =>
    rw [decodeWord_regimm hop]
    exact ⟨fun h => congrArg _ (decodeRegimm_bltz h), fun h => congrArg _ (decodeRegimm_bgez h),
      fun h0 h1 => congrArg _ (decodeRegimm_other h0 h1)⟩
  case j => exact ⟨targetField w, decodeWord_j hop⟩
  case jal => exact ⟨targetField w, decodeWord_jal hop⟩
  case unhandled => exact (decodeWord_register hop).trans (decodeRegister_unhandled hf)
  case unrecognized => exact decodeWord_unrecognized hop

end Sys2Proof
end

section
/-! Writeback and the registers that Decode reads (40_pipeline.md R91). -/

namespace Sys2Proof.Machine

/-- At most one register of `nxt` differs after Writeback. -/
theorem WritebackDoes.read_nxt_except_one {s t : State} (h : WritebackDoes s t) :
    ∃ d : RegNum, ∀ r, r ≠ d → t.nxt.read r = s.nxt.read r := by
  rcases h with rfl | rfl | ⟨d, v, rfl⟩
  · exact ⟨0, fun _ _ => rfl⟩
  · exact ⟨0, fun _ _ => rfl⟩
  · exact ⟨d, fun _ hr => s.nxt.read_write_other v hr⟩

/-- Writeback of an instruction leaves `cur` alone. -/
theorem exec_writeback_cur {i : Instr} {s t : State} (hs : s.stage = .writeback) (h : exec i s = .next t) : t.cur = s.cur := by
  obtain ⟨u, hu, hdoes⟩ := (exec_work i).writeback s hs
  rw [h] at hu; cases hu
  rw [hdoes.frame]

namespace Completes
variable {s s1 s2 s3 t : State} {w : Word} (c : Completes s s1 s2 s3 w t)
include c

/-- The registers a completed cycle ends with are those Writeback left in `nxt`. -/
theorem read_cur (r : RegNum) : t.cur.read r = s1.nxt.read r := by rw [c.frame]; rfl

/-- Decode of a completed cycle reads `cur` as it was before the cycle. -/
theorem decoded_operands :
    t.idex.a = s.cur.read (rsField s.ifid.ir) ∧ t.idex.b = s.cur.read (rtField s.ifid.ir) := by
  rw [c.frame]; exact ⟨rfl, rfl⟩

/-- A completed cycle changes at most one register. -/
theorem read_cur_except_one : ∃ d : RegNum, ∀ r, r ≠ d → t.cur.read r = s.nxt.read r := by
  obtain ⟨d, hd⟩ := c.afterWriteback.read_nxt_except_one
  exact ⟨d, fun r hr => (c.read_cur r).trans (hd r hr)⟩

/-- The word in MEM/WB that computes a result leaves it in its destination, whichever register that is. -/
theorem read_cur_of_resultTo {i : Instr} {d : RegNum} {v : State → Word} (hi : decodeWord s.memwb.ir = .ok i)
    (hexec : ∀ s, exec i s = resultTo d v s) : t.cur.read d = s.memwb.aluOutput := by
  have hwb := c.writeback
  rw [runStage_ok hi, hexec, resultTo_writeback rfl] at hwb
  cases hwb
  exact (c.read_cur d).trans (Arch.read_write_same _ d _)

end Completes

/-- Settles O37: both cycles complete, and each part is read off what Writeback and Decode of a completed cycle do. -/
theorem writebackWritesAtMostOneRegister : Obligations.WritebackWritesAtMostOneRegister := by
  intro s t u hst htu hu
  obtain ⟨_, _, _, _, first⟩ := step_inv_safe hst (step_next_safe htu)
  obtain ⟨_, _, _, _, second⟩ := step_inv_safe htu hu
  exact ⟨first.read_cur_except_one, fun _ _ h => exec_writeback_cur (s := s.atStage .writeback) rfl h, first.decoded_operands,
    second.decoded_operands, fun rs rt sa hw => first.read_cur_of_resultTo hw (exec_sll rs rt 0 sa)⟩

end Sys2Proof.Machine
end

section
/-! The shifts (41_shift.md R105 to R107). -/

namespace Sys2Proof.Machine

open Sys2Proof.Claims

/-! ## An instruction that computes a result, in the words of the claims -/

section ResultTo
variable {i : Instr} {d : RegNum} {v : State → Word} (h : ∀ s, exec i s = resultTo d v s)
include h

theorem passesMemory_of_resultTo : PassesMemory i := fun s hs => by rw [h, resultTo_memoryAccess hs]; rfl

theorem writesBack_of_resultTo : WritesBack i d fun s => s.memwb.aluOutput :=
  fun s hs => by rw [h, resultTo_writeback hs]; rfl

/-- Every stage of an instruction of the shape `resultTo`. -/
theorem computesInto_of_resultTo : ComputesInto i d v :=
  ⟨executesTo_of_resultTo h, passesMemory_of_resultTo h, writesBack_of_resultTo h⟩

end ResultTo

/-! ## The statement -/

/-- Settles O8: the encodings are rows of the register-format map; each shift has the shape `resultTo`, with the value that `shiftLeft`,
`shiftRightLogical` or `shiftRightArithmetic` is defined to be. -/
theorem shiftsComputeIntoRd : Obligations.ShiftsComputeIntoRd := by
  obtain ⟨⟨hsll, hsrl, hsra, -⟩, -⟩ := decodeFollowsTheMaps
  exact ⟨⟨hsll, hsrl, hsra⟩, fun rs rt rd sa => ⟨computesInto_of_resultTo (exec_sll rs rt rd sa),
    computesInto_of_resultTo (exec_srl rs rt rd sa), computesInto_of_resultTo (exec_sra rs rt rd sa)⟩⟩

end Sys2Proof.Machine
end

section
/-! The register-register instructions (43_alu_reg.md R117 to R124). -/

namespace Sys2Proof.Machine

open Sys2Proof.Claims

/-- SLTU's function code is no row of the register-format map (R124). -/
theorem decodeRegister_sltu {w : Word} (h : functField w = 0x2B#6) : decodeRegister w = .error (.unhandledFunction 0x2B#6) := by
  rw [decodeRegister_unhandled (by rw [h]; decide), h]

/-- SLT's result in the order on words themselves. -/
theorem exec_slt_word_order (rs rt rd : RegNum) (sa : ShiftAmount) (s : State) :
    exec (.slt rs rt rd sa) s = resultTo rd (fun s => if s.idex.a < s.idex.b then 1 else 0) s := by
  simp only [exec_slt, boolWord_lessThan_unsigned]

/-- Settles O9: the encodings are rows of the register-format map, and SLTU's function code is outside it; each instruction has the shape
`resultTo` with the value it is defined by, which for SLT is an unsigned comparison. -/
theorem registerAluComputesIntoRd : Obligations.RegisterAluComputesIntoRd := by
  obtain ⟨⟨-, -, -, -, -, -, -, -, -, -, -, -, -, -, haddu, hsub, hsubu, hand, hor, hxor, hnor, hslt, -⟩, -⟩ := decodeFollowsTheMaps
  refine ⟨⟨haddu, hsub, hsubu, hand, hor, hxor, hnor, hslt, fun w hop hf => ?sltu⟩, fun rs rt rd sa => ?results⟩
  case sltu => exact (decodeWord_register hop).trans (decodeRegister_sltu hf)
  case results =>
    exact ⟨computesInto_of_resultTo (exec_addu rs rt rd sa), computesInto_of_resultTo (exec_sub rs rt rd sa),
      computesInto_of_resultTo (exec_subu rs rt rd sa), computesInto_of_resultTo (exec_and rs rt rd sa),
      computesInto_of_resultTo (exec_or rs rt rd sa), computesInto_of_resultTo (exec_xor rs rt rd sa),
      computesInto_of_resultTo (exec_nor rs rt rd sa), computesInto_of_resultTo (exec_slt_word_order rs rt rd sa)⟩

end Sys2Proof.Machine
end

section
/-! ADDIU and the logical immediates (44_alu_imm.md R126, R128 to R130). -/

namespace Sys2Proof.Machine

open Sys2Proof.Claims

/-- A completed cycle leaves in ID/EX the sign-extended immediate of the word that was in IF/ID, whatever that word is (R58). -/
theorem Completes.decoded_immediate {s s1 s2 s3 t : State} {w : Word} (c : Completes s s1 s2 s3 w t) :
    t.idex.imm = sext32 (immField s.ifid.ir) := by rw [c.frame]; rfl

/-- Settles O10: the encodings are rows of the opcode map; a step to a state that has not faulted is a completed cycle, whose Decode
sign-extends; each instruction has the shape `resultTo` with destination rt and the value it is defined by. -/
theorem immediateAluComputesIntoRt : Obligations.ImmediateAluComputesIntoRt := by
  obtain ⟨-, ⟨-, -, -, -, -, haddiu, -, handi, hori, hxori, -⟩, -⟩ := decodeFollowsTheMaps
  refine ⟨⟨haddiu, handi, hori, hxori⟩, fun s t hst ht => ?immediate, fun rs rt imm => ?results⟩
  case immediate =>
    obtain ⟨_, _, _, _, c⟩ := step_inv_safe hst ht
    exact c.decoded_immediate
  case results =>
    exact ⟨computesInto_of_resultTo (exec_addiu rs rt imm), computesInto_of_resultTo (exec_andi rs rt imm),
      computesInto_of_resultTo (exec_ori rs rt imm), computesInto_of_resultTo (exec_xori rs rt imm)⟩

end Sys2Proof.Machine
end

section
/-! The two directions between instructions and words (30_encoding.md R56, R70), and the rows of the opcode table. -/

namespace Sys2Proof

open Sys2Proof.Claims

/-! ## An assembled word decodes to the instruction of its format -/

theorem decodeWord_registerWord {funct : BitVec 6} {i : RegNum → RegNum → RegNum → ShiftAmount → Instr}
    (h : ∀ w, functField w = funct → decodeRegister w = .ok (i (rsField w) (rtField w) (rdField w) (saField w)))
    (rs rt rd : RegNum) (sa : ShiftAmount) : decodeWord (registerWord rs rt rd sa funct) = .ok (i rs rt rd sa) := by
  rw [decodeWord_register (opField_registerWord rs rt rd sa funct), h _ (functField_registerWord rs rt rd sa funct)]
  simp

theorem decodeWord_immediateWord {op : BitVec 6} {i : RegNum → RegNum → Imm16 → Instr}
    (h : ∀ w, opField w = op → decodeWord w = .ok (i (rsField w) (rtField w) (immField w))) (rs rt : RegNum) (imm : Imm16) :
    decodeWord (immediateWord op rs rt imm) = .ok (i rs rt imm) := by
  rw [h _ (opField_immediateWord op rs rt imm)]
  simp

/-- Under opcode 0x01 an assembled word is decoded by its rt field. -/
theorem decodeWord_regimmWord (rs rt : RegNum) (imm : Imm16) :
    decodeWord (immediateWord 0x01#6 rs rt imm) = .ok (decodeRegimm (immediateWord 0x01#6 rs rt imm)) :=
  decodeWord_regimm (opField_immediateWord _ rs rt imm)

/-- Settles O2: each format's assembled word has the fields it is assembled from, and its opcode and function code select the
instruction. -/
theorem decodeOfEncode : Obligations.DecodeOfEncode := by
  intro i hwf
  cases i with
  | syscall code =>
    simp [encode, decodeWord_register, decodeRegister_syscall]
  | sll | srl | sra | jr | jalr | mfhi | mthi | mflo | mtlo | mult | multu | div | divu | add | addu | sub | subu | and | or | xor
  | nor | slt => exact decodeWord_registerWord (fun w h => by rw [decodeRegister, h]; rfl) _ _ _ _
  | bltz rs imm => simp [encode, decodeWord_regimmWord, decodeRegimm_bltz]
  | bgez rs imm => simp [encode, decodeWord_regimmWord, decodeRegimm_bgez]
  | regimmOther rs rt imm =>
    obtain ⟨h0, h1⟩ : rt ≠ 0#5 ∧ rt ≠ 1#5 := by simpa [Instr.wellFormed] using hwf
    simp [encode, decodeWord_regimmWord, decodeRegimm_other, h0, h1]
  | j target => simp [encode, decodeWord_j]
  | jal target => simp [encode, decodeWord_jal]
  | beq | bne | blez | bgtz | addi | addiu | slti | andi | ori | xori | lui | lb | lh | lw | sb | sh | sw =>
    exact decodeWord_immediateWord (fun w h => by rw [decodeWord, h]; rfl) _ _ _

/-! ## A decoded word is assembled again from its fields -/

variable {w : Word} {i : Instr}

theorem encode_of_decodeRegister (hop : opField w = 0x00#6) (h : decodeRegister w = .ok i) :
    encode i = w ∧ i.wellFormed = true := by
  unfold decodeRegister at h
  split at h
  case h_6 hf => cases h; exact ⟨syscallWord_of_fields w hop hf, rfl⟩
  case h_24 => cases h
  all_goals
    next hf =>
    cases h
    exact ⟨(hf ▸ registerWord_of_fields w hop :), rfl⟩

theorem encode_decodeRegimm (hop : opField w = 0x01#6) : encode (decodeRegimm w) = w ∧ (decodeRegimm w).wellFormed = true := by
  have hw := immediateWord_of_fields w
  rw [hop] at hw
  by_cases h0 : rtField w = 0#5
  · rw [h0] at hw; rw [decodeRegimm_bltz h0]; exact ⟨hw, rfl⟩
  · by_cases h1 : rtField w = 1#5
    · rw [h1] at hw; rw [decodeRegimm_bgez h1]; exact ⟨hw, rfl⟩
    · rw [decodeRegimm_other h0 h1]
      exact ⟨hw, by simp [Instr.wellFormed, h0, h1]⟩

/-- Settles O3: the opcode, and under opcode 0 the function code, fix the row, whose format reassembles the word from its fields. -/
theorem encodeOfDecode : Obligations.EncodeOfDecode := by
  intro w i h
  unfold decodeWord at h
  split at h
  case h_1 hop => exact encode_of_decodeRegister hop h
  case h_2 hop => cases h; exact encode_decodeRegimm hop
  case h_3 hop | h_4 hop => cases h; exact ⟨(hop ▸ jumpWord_of_fields w :), rfl⟩
  case h_22 => cases h
  all_goals
    next hop =>
    cases h
    exact ⟨(hop ▸ immediateWord_of_fields w :), rfl⟩

open Laws in
/-- An encoded instruction has the fixed bits of its row. -/
theorem tableRow_matches_encode : ∀ i : Instr, (tableRow i).matches (encode i) = true
  | .sll .. => EncodesItsRow.sll .. | .srl .. => EncodesItsRow.srl .. | .sra .. => EncodesItsRow.sra ..
  | .jr .. => EncodesItsRow.jr .. | .jalr .. => EncodesItsRow.jalr .. | .syscall .. => EncodesItsRow.syscall ..
  | .mfhi .. => EncodesItsRow.mfhi .. | .mthi .. => EncodesItsRow.mthi .. | .mflo .. => EncodesItsRow.mflo ..
  | .mtlo .. => EncodesItsRow.mtlo .. | .mult .. => EncodesItsRow.mult .. | .multu .. => EncodesItsRow.multu ..
  | .div .. => EncodesItsRow.div .. | .divu .. => EncodesItsRow.divu .. | .add .. => EncodesItsRow.add ..
  | .addu .. => EncodesItsRow.addu .. | .sub .. => EncodesItsRow.sub .. | .subu .. => EncodesItsRow.subu ..
  | .and .. => EncodesItsRow.and .. | .or .. => EncodesItsRow.or .. | .xor .. => EncodesItsRow.xor ..
  | .nor .. => EncodesItsRow.nor .. | .slt .. => EncodesItsRow.slt .. | .bltz .. => EncodesItsRow.bltz ..
  | .bgez .. => EncodesItsRow.bgez .. | .regimmOther .. => EncodesItsRow.regimmOther .. | .j .. => EncodesItsRow.j ..
  | .jal .. => EncodesItsRow.jal .. | .beq .. => EncodesItsRow.beq .. | .bne .. => EncodesItsRow.bne ..
  | .blez .. => EncodesItsRow.blez .. | .bgtz .. => EncodesItsRow.bgtz .. | .addi .. => EncodesItsRow.addi ..
  | .addiu .. => EncodesItsRow.addiu .. | .slti .. => EncodesItsRow.slti .. | .andi .. => EncodesItsRow.andi ..
  | .ori .. => EncodesItsRow.ori .. | .xori .. => EncodesItsRow.xori .. | .lui .. => EncodesItsRow.lui ..
  | .lb .. => EncodesItsRow.lb .. | .lh .. => EncodesItsRow.lh .. | .lw .. => EncodesItsRow.lw .. | .sb .. => EncodesItsRow.sb ..
  | .sh .. => EncodesItsRow.sh .. | .sw .. => EncodesItsRow.sw ..

/-- Settles O5: a decoded word is the encoding of its instruction, which matches the instruction's row. -/
theorem decodedWordsMatchTheirRow : Obligations.DecodedWordsMatchTheirRow := by
  intro w i h
  rw [← (encodeOfDecode w i h).1]
  exact tableRow_matches_encode i

/-! ## Bytes -/

/-- Settles O6: the four bytes make the word that `decode` reads, and an encoded instruction is the four bytes of its word. -/
theorem bytesDecodeLittleEndian : Obligations.BytesDecodeLittleEndian := by
  refine ⟨fun b0 b1 b2 b3 rest => ⟨wordOfBytes b0 b1 b2 b3, byteOfWord_wordOfBytes b0 b1 b2 b3, rfl⟩, fun bytes h => ?_,
    fun i rest hwf => ?_⟩
  · match bytes, h with
    | [], _ | [_], _ | [_, _], _ | [_, _, _], _ => rfl
    | _ :: _ :: _ :: _ :: _, h => simp at h; omega
  · rw [encodeBytes, decode_bytesOfWord, decodeOfEncode i hwf]
    rfl

/-- Settles O1: each word is closed, and the decoder computes its instruction. -/
theorem specWordsDecode : Obligations.SpecWordsDecode := by
  refine ⟨?_, ?_, ?_, ?_, ?_, ?_, ?_, ?_, ?_, ?_, ?_, ?_⟩ <;> decide

end Sys2Proof
end

section
/-! What every step keeps: the invariants, the configuration and the run flag; and the sequence of fetched addresses (10_state.md,
70_reset_and_hazards.md section 4). -/

namespace Sys2Proof.Machine

/-! ## Memory's form -/

/-- Writeback and MemoryAccess keep memory canonical and inside the regions. -/
theorem memory_kept {s s1 s2 : State} (d1 : WritebackDoes (s.atStage .writeback) s1)
    (d2 : MemoryDoes (s1.atStage .memoryAccess) s2) :
    (s.mem.wf → s2.mem.wf) ∧ (s.mem.InRegions s.cfg.regions → s2.mem.InRegions s.cfg.regions) := by
  have hmem : s1.mem = s.mem := by rw [d1.frame]; rfl
  have hcfg : s1.cfg = s.cfg := by rw [d1.frame]; rfl
  rw [← hmem, ← hcfg]
  exact ⟨d2.wf, d2.inRegions⟩

/-- Every step keeps memory canonical and inside the regions of the configuration. -/
theorem step_keeps_memory {s t : State} (h : step s = .next t) :
    (s.mem.wf → t.mem.wf) ∧ (s.mem.InRegions s.cfg.regions → t.mem.InRegions s.cfg.regions) := by
  rcases step_inv h with ⟨s1, s2, s3, w, c⟩ | ⟨s1, s2, f, c⟩ | ⟨s1, s2, s3, f, c⟩
  · have hmem : t.mem = s2.mem := by rw [c.frame]
    rw [hmem]; exact memory_kept c.afterWriteback c.afterMemory
  · have hmem : t.mem = s2.mem := by rw [c.result]; rfl
    rw [hmem]; exact memory_kept c.afterWriteback c.afterMemory
  · have hmem : t.mem = s2.mem := by rw [c.frame.2]
    rw [hmem]; exact memory_kept c.afterWriteback c.afterMemory

/-! ## Fields that no step writes, and the end of a step -/

/-- Settles O35: each of the three ways a step can go leaves both fields as they were. -/
theorem stepKeepsConfigAndRunFlag : Obligations.StepKeepsConfigAndRunFlag := by
  intro s t h
  rcases step_inv h with ⟨s1, s2, s3, w, c⟩ | ⟨s1, s2, f, c⟩ | ⟨s1, s2, s3, f, c⟩
  · rw [c.frame]; exact ⟨rfl, rfl⟩
  · rw [(c.frame (step_next_safe h)).2.2]; exact ⟨rfl, rfl⟩
  · rw [c.frame.2]; exact ⟨rfl, rfl⟩

/-- Every step ends between cycles: at the first stage, and with the instances equal unless it recorded a fault. -/
theorem step_betweenCycles {s t : State} (h : step s = .next t) : t.BetweenCycles := by
  rcases step_inv h with ⟨s1, s2, s3, w, c⟩ | ⟨s1, s2, f, c⟩ | ⟨s1, s2, s3, f, c⟩
  · rw [c.frame]; exact ⟨rfl, fun _ => rfl⟩
  · rw [(c.frame (step_next_safe h)).2.2]; exact ⟨rfl, nofun⟩
  · rw [c.frame.2]; exact ⟨rfl, nofun⟩

/-- Settles O44: memory by what MemoryAccess keeps, the rest by how a step ends. -/
theorem stepKeepsInvariant : Obligations.StepKeepsInvariant := by
  intro s t hs h
  refine ⟨(step_keeps_memory h).1 hs.memoryCanonical, ?_, step_betweenCycles h⟩
  rw [(stepKeepsConfigAndRunFlag s t h).1]
  exact (step_keeps_memory h).2 hs.memoryInRegions

/-- Settles O45: a completed cycle reassigns all four latches; one that MemoryAccess stops reassigns MEM/WB, and one that Fetch stops
all but IF/ID. -/
theorem stepKeepsLatchesProduced : Obligations.StepKeepsLatchesProduced := by
  intro s t hs h
  obtain ⟨hifid, hidexImm, hidexAlu, hidexLmd, hexmemImm, hexmemLmd, -⟩ := hs
  rcases step_inv h with ⟨s1, s2, s3, w, c⟩ | ⟨s1, s2, f, c⟩ | ⟨s1, s2, s3, f, c⟩
  · rw [c.frame]; exact ⟨rfl, rfl, rfl, rfl, hidexImm, rfl, hexmemImm⟩
  · rw [(c.frame (step_next_safe h)).2.2]; exact ⟨hifid, hidexImm, hidexAlu, hidexLmd, hexmemImm, hexmemLmd, hexmemImm⟩
  · rw [c.frame.2]; exact ⟨hifid, rfl, rfl, rfl, hidexImm, rfl, hexmemImm⟩

/-! ## A completed cycle -/

/-- Settles O34: the parts of a completed cycle's frame, and the fetch from memory as MemoryAccess leaves it. -/
theorem completedCycleMovesThePipeline : Obligations.CompletedCycleMovesThePipeline := by
  intro s t h ht
  obtain ⟨s1, s2, s3, w, c⟩ := step_inv_safe h ht
  have hfetch := c.fetch
  rw [c.frame]
  exact ⟨rfl, rfl, rfl, ⟨w, hfetch, rfl⟩, rfl, rfl, rfl⟩

/-- The pc counts the cycles across a completed one (R180). -/
theorem step_pcCounts {s t : State} (h : step s = .next t) (hs : s.PcCounts) : t.PcCounts := by
  rcases step_inv h with ⟨s1, s2, s3, w, c⟩ | ⟨s1, s2, f, c⟩ | ⟨s1, s2, s3, f, c⟩
  · rw [c.frame]
    show s.cur.pc + 4 = s.cfg.textBase + BitVec.ofNat 32 (4 * (s.cycles + 1))
    rw [hs, Nat.mul_succ, BitVec.ofNat_add, BitVec.add_assoc]
    rfl
  · rw [(c.frame (step_next_safe h)).2.2]; exact hs
  · rw [c.frame.2]; exact hs

/-- Settles O47: induction on the run, each cycle of which adds 4 to the pc and 1 to `cycles`. -/
theorem pcAdvancesByFourPerCycle : Obligations.PcAdvancesByFourPerCycle := by
  intro n s t h
  induction h with
  | done s _ => exact ⟨by simp, rfl, rfl, id⟩
  | step n s t u hst ht _ ih =>
    obtain ⟨hpc, hcycles, hcfg, hcounts⟩ := ih
    obtain ⟨hpc1, hcycles1, -⟩ := completedCycleMovesThePipeline s t hst ht
    refine ⟨?_, by omega, hcfg.trans (stepKeepsConfigAndRunFlag s t hst).1, fun hs => hcounts (step_pcCounts hst hs)⟩
    rw [hpc, hpc1, Nat.mul_succ, Nat.add_comm, BitVec.ofNat_add, BitVec.add_assoc]
    rfl

end Sys2Proof.Machine
end

section
/-! The share of each stage as a function of the state: of an instruction, then of any word, then of the word in the stage's latch. Every
later proof about a step reads what the step does off these (40_pipeline.md sections 4 to 6). -/

namespace Sys2Proof.Machine

open Sys2Proof.Claims

/-! ## Writeback (R89, R90, R92) -/

/-- The instructions that retire (R92). -/
def retiresInstr : Instr → Bool
  | .syscall _ => false
  | _ => true

/-- Writeback that writes `v` to the register `d`, if there is one, and retires if `r`. -/
def State.writebackAs (s : State) (d : Option RegNum) (v : Word) (r : Bool) : State :=
  { s with nxt := d.elim s.nxt (s.nxt.write · v), retired := s.retired + r.toNat }

/-- The destination register of a word; a word that is no instruction has none. -/
def wordDestination (mode : WbMode) (w : Word) : Option RegNum :=
  match decodeWord w with
  | .ok i => destination mode i
  | .error _ => none

/-- The value that the word in a latch writes. -/
def wordWritten (l : Latch) : Word :=
  match decodeWord l.ir with
  | .ok i => writtenValue i l
  | .error _ => 0

theorem writebackNoDest_eq (s : State) (d : RegNum) :
    s.writebackNoDest d = s.writebackAs (if s.cfg.wbMode = .literal then some d else none) s.memwb.aluOutput true := by
  cases h : s.cfg.wbMode with
  | skipNoDest => rw [writebackNoDest_skipNoDest h]; rfl
  | literal => rw [writebackNoDest_literal h]; rfl

/-- The whole of an instruction's Writeback. -/
theorem exec_writeback (i : Instr) {s : State} (hs : s.stage = .writeback) :
    exec i s = .next (s.writebackAs (destination s.cfg.wbMode i) (writtenValue i s.memwb) (retiresInstr i)) := by
  cases i with
  | sll | srl | sra | mfhi | mflo | add | addu | sub | subu | and | or | xor | nor | slt => simp [hs]; rfl
  | addi | addiu | slti | andi | ori | xori | lui => simp [hs]; rfl
  | lb | lh | lw => simp [hs]; rfl
  | syscall => simp [hs]; rfl
  | jr | jalr | bltz | bgez | regimmOther | j | jal | beq | bne | blez | bgtz | mthi | mtlo | mult | multu | div | divu | sb | sh
  | sw => simp [hs, writebackNoDest_eq]; rfl

/-! ## MemoryAccess (R85, R86) -/

/-- The access a word makes in MemoryAccess. -/
inductive Access where
  | none
  | load (mask : Word)
  | store

/-- The access of an instruction. -/
def accessOf : Instr → Access
  | .lb .. => .load byteMask
  | .lh .. => .load halfMask
  | .lw .. => .load wordMask
  | .sb .. | .sh .. | .sw .. => .store
  | _ => .none

/-- The access of a word; a word that is no instruction makes none. -/
def wordAccess (w : Word) : Access :=
  match decodeWord w with
  | .ok i => accessOf i
  | .error _ => .none

/-- MemoryAccess that makes the access `a`. -/
def State.accessAs (s : State) : Access → State
  | .none => s.memoryPass
  | .load mask => s.memoryLoad mask
  | .store => s.memoryStore

/-- The whole of an instruction's MemoryAccess. -/
theorem exec_memoryAccess (i : Instr) {s : State} (hs : s.stage = .memoryAccess) :
    exec i s = .next (s.accessAs (accessOf i)) := by
  cases i <;> simp [hs] <;> rfl

theorem accessOf_none_iff (i : Instr) : accessOf i = .none ↔ isLoad i = false ∧ isStore i = false := by
  cases i <;> simp [accessOf, isLoad, isStore]

theorem accessOf_store_iff (i : Instr) : accessOf i = .store ↔ isStore i = true := by
  cases i <;> simp [accessOf, isStore]

/-! ## Execute (R81, R84) -/

/-- The result Execute of an instruction leaves in `aluOutput`, given the configuration, ID/EX and `cur`: read off one run. -/
def aluOf (c : Config) (i : Instr) (l : Latch) (m : Arch) : Word :=
  match exec i { State.zeroed c [] with idex := l, cur := m, stage := .execute } with
  | .next t => t.exmem.aluOutput
  | .fault _ | .refused _ => 0

/-- The event an instruction raises in Execute, if any. -/
def divideEvent (i : Instr) (cycles : Nat) (l : Latch) : List DiagEvent :=
  if isDivide i = true ∧ l.b = 0 then [⟨cycles, .divideByZero, l.ir⟩] else []

/-- Execute that leaves the result `v`, the values `hl` of HI and LO, and the events `d`. -/
def State.executeAs (s : State) (v : Word) (hl : Word × Word) (d : List DiagEvent) : State :=
  { s with
    exmem := { s.idex with aluOutput := v, lmd := 0 }
    nxt := { s.nxt with hi := hl.1, lo := hl.2 }
    diag := s.diag ++ d }

theorem executeResult_eq (s : State) (v : Word) : s.executeResult v = s.executeAs v (s.nxt.hi, s.nxt.lo) [] := by
  simp [State.executeResult, State.setExmem, State.executeAs]

theorem hiLoAfter_div (c : Config) (rs rt rd : RegNum) (sa : ShiftAmount) (a b hi lo : Word) :
    hiLoAfter c (.div rs rt rd sa) a b hi lo =
      if b = 0 then (hi, lo) else (remainder c.divCmp a b, quotient c.divCmp a b) := by
  cases h : c.divCmp with
  | unsigned => simp only [hiLoAfter, h, remainder_unsigned, quotient_unsigned]
  | signed => simp only [hiLoAfter, h, remainder_signed, quotient]

theorem hiLoAfter_divu (c : Config) (rs rt rd : RegNum) (sa : ShiftAmount) (a b hi lo : Word) :
    hiLoAfter c (.divu rs rt rd sa) a b hi lo =
      if b = 0 then (hi, lo) else (remainder .unsigned a b, quotient .unsigned a b) := by
  simp only [hiLoAfter, remainder_unsigned, quotient_unsigned]

/-- Execute of a divide: the report of a zero divisor, or the quotient and the remainder. -/
theorem writeQuotient_executed (s : State) (r : Signedness) :
    (s.writeQuotient r).executeNothing =
      s.executeAs 0
        (if s.idex.b = 0 then (s.nxt.hi, s.nxt.lo) else (remainder r s.idex.a s.idex.b, quotient r s.idex.a s.idex.b))
        (if s.idex.b = 0 then [⟨s.cycles, .divideByZero, s.idex.ir⟩] else []) := by
  by_cases hb : s.idex.b = 0
  · simp only [State.writeQuotient_zero hb, hb, if_true]; rfl
  · simp only [State.writeQuotient_nonzero hb, hb, if_false, State.executeAs, List.append_nil]; rfl

/-- Execute of a multiply. -/
theorem writeProduct_executed (s : State) :
    s.writeProduct.executeNothing =
      s.executeAs 0 (BitVec.ofNat 32 (s.idex.a.toNat * s.idex.b.toNat / 2 ^ 32),
        BitVec.ofNat 32 (s.idex.a.toNat * s.idex.b.toNat % 2 ^ 32)) [] := by
  simp only [State.writeProduct_eq, State.executeAs, List.append_nil]; rfl

/-- The whole of an instruction's Execute. -/
theorem exec_execute (i : Instr) {s : State} (hs : s.stage = .execute) :
    exec i s = .next (s.executeAs (aluOf s.cfg i s.idex s.cur) (hiLoAfter s.cfg i s.idex.a s.idex.b s.nxt.hi s.nxt.lo)
      (divideEvent i s.cycles s.idex)) := by
  cases i with
  | div rs rt rd sa =>
    rw [exec_div, effectOnly_execute hs, writeQuotient_executed, hiLoAfter_div]
    simp [divideEvent, isDivide, aluOf]
  | divu rs rt rd sa =>
    rw [exec_divu, effectOnly_execute hs, writeQuotient_executed, hiLoAfter_divu]
    simp [divideEvent, isDivide, aluOf]
  | mult rs rt rd sa => rw [exec_mult, effectOnly_execute hs, writeProduct_executed]; rfl
  | multu rs rt rd sa => rw [exec_multu, effectOnly_execute hs, writeProduct_executed]; rfl
  | _ => simp [hs, executeResult_eq]; rfl

/-! ## A word that is no instruction (R65, R66, R89) -/

theorem skipWord_writeback (r : Reject) {s : State} (hs : s.stage = .writeback) : skipWord r s = .next s :=
  stageWork_writeback hs

theorem skipWord_memoryAccess (r : Reject) {s : State} (hs : s.stage = .memoryAccess) : skipWord r s = .next s.memoryPass :=
  stageWork_memoryAccess hs

theorem skipWord_execute {r : Reject} {s : State} (hs : s.stage = .execute) (hr : decodeWord s.idex.ir = .error r) :
    skipWord r s = .next (s.executeAs 0 (s.nxt.hi, s.nxt.lo) (diagnosticOf s.cycles s.idex)) := by
  rw [skipWord, stageWork_execute hs, diagnosticOf, hr]
  cases r with
  | unhandledFunction => rfl
  | unrecognizedOpcode | truncated => exact congrArg _ (executeResult_eq s 0)

/-! ## Any word -/

/-- The result the word in a latch leaves in `aluOutput`; a word that is no instruction leaves 0. -/
def wordAlu (c : Config) (l : Latch) (m : Arch) : Word :=
  match decodeWord l.ir with
  | .ok i => aluOf c i l m
  | .error _ => 0

/-- HI and LO after the Execute of the word in a latch; a word that is no instruction leaves them. -/
def wordHiLo (c : Config) (l : Latch) (hi lo : Word) : Word × Word :=
  match decodeWord l.ir with
  | .ok i => hiLoAfter c i l.a l.b hi lo
  | .error _ => (hi, lo)

theorem writtenValue_of_not_load {i : Instr} (h : isLoad i = false) (l : Latch) : writtenValue i l = l.aluOutput := by
  simp [writtenValue, h]

section OfDecode
variable {w : Word} {i : Instr} {e : Reject} {l : Latch}

theorem wordDestination_ok (h : decodeWord w = .ok i) (mode : WbMode) : wordDestination mode w = destination mode i := by
  simp [wordDestination, h]
theorem wordDestination_error (h : decodeWord w = .error e) (mode : WbMode) : wordDestination mode w = none := by
  simp [wordDestination, h]
theorem wordWritten_ok (h : decodeWord l.ir = .ok i) : wordWritten l = writtenValue i l := by simp [wordWritten, h]
theorem wordAccess_ok (h : decodeWord w = .ok i) : wordAccess w = accessOf i := by simp [wordAccess, h]
theorem wordAccess_error (h : decodeWord w = .error e) : wordAccess w = .none := by simp [wordAccess, h]
theorem retires_ok (h : decodeWord w = .ok i) : retires w = retiresInstr i := by cases i <;> simp [retires, h, retiresInstr]
theorem retires_error (h : decodeWord w = .error e) : retires w = false := by simp [retires, h]
theorem wordAlu_ok (h : decodeWord l.ir = .ok i) (c : Config) (m : Arch) : wordAlu c l m = aluOf c i l m := by simp [wordAlu, h]
theorem wordAlu_error (h : decodeWord l.ir = .error e) (c : Config) (m : Arch) : wordAlu c l m = 0 := by simp [wordAlu, h]
theorem wordHiLo_ok (h : decodeWord l.ir = .ok i) (c : Config) (hi lo : Word) :
    wordHiLo c l hi lo = hiLoAfter c i l.a l.b hi lo := by simp [wordHiLo, h]
theorem wordHiLo_error (h : decodeWord l.ir = .error e) (c : Config) (hi lo : Word) : wordHiLo c l hi lo = (hi, lo) := by
  simp [wordHiLo, h]
theorem diagnosticOf_ok (h : decodeWord l.ir = .ok i) (n : Nat) : diagnosticOf n l = divideEvent i n l := by
  simp [diagnosticOf, h, divideEvent]

end OfDecode

theorem runStage_writeback_eq (s : State) :
    runStage .writeback s.memwb.ir s = .next ((s.atStage .writeback).writebackAs
      (wordDestination s.cfg.wbMode s.memwb.ir) (wordWritten s.memwb) (retires s.memwb.ir)) := by
  cases h : decodeWord s.memwb.ir with
  | ok i =>
    rw [runStage_ok h, wordDestination_ok h, wordWritten_ok h, retires_ok h]
    exact exec_writeback i rfl
  | error r =>
    rw [runStage_error h, wordDestination_error h, retires_error h]
    exact skipWord_writeback r rfl

theorem runStage_memoryAccess_eq (w : Word) (s : State) :
    runStage .memoryAccess w s = .next ((s.atStage .memoryAccess).accessAs (wordAccess w)) := by
  cases h : decodeWord w with
  | ok i => rw [runStage_ok h, wordAccess_ok h]; exact exec_memoryAccess i rfl
  | error r => rw [runStage_error h, wordAccess_error h]; exact skipWord_memoryAccess r rfl

theorem runStage_execute_eq (s : State) :
    runStage .execute s.idex.ir s = .next ((s.atStage .execute).executeAs (wordAlu s.cfg s.idex s.cur)
      (wordHiLo s.cfg s.idex s.nxt.hi s.nxt.lo) (diagnosticOf s.cycles s.idex)) := by
  cases h : decodeWord s.idex.ir with
  | ok i =>
    rw [runStage_ok h, wordAlu_ok h, wordHiLo_ok h, diagnosticOf_ok h]
    exact exec_execute i rfl
  | error r =>
    rw [runStage_error h, wordAlu_error h, wordHiLo_error h]
    exact skipWord_execute rfl h

/-! ## The answers of an access -/

section AccessAs
variable {s : State} {mask x : Word} {m : Memory} {f : Fault}

theorem accessAs_load_ok (h : memRead s.cfg.regions s.mem s.exmem.aluOutput = .ok x) :
    s.accessAs (.load mask) = s.setMemwb { s.exmem with lmd := x &&& mask } := by simp [State.accessAs, State.memoryLoad, h]
theorem accessAs_load_error (h : memRead s.cfg.regions s.mem s.exmem.aluOutput = .error f) :
    s.accessAs (.load mask) = s.memoryPass.markFaulted f := by simp [State.accessAs, State.memoryLoad, h]
theorem accessAs_store_ok (h : memWrite s.cfg.regions s.mem s.exmem.aluOutput s.exmem.b = .ok m) :
    s.accessAs .store = s.memoryPass.setMem m := by simp [State.accessAs, State.memoryStore, h]
theorem accessAs_store_error (h : memWrite s.cfg.regions s.mem s.exmem.aluOutput s.exmem.b = .error f) :
    s.accessAs .store = s.memoryPass.markFaulted f := by simp [State.accessAs, State.memoryStore, h]

end AccessAs

/-- The word in EX/MEM straddles where it makes an access and a read at its address would straddle. -/
theorem accessStraddles_iff (s : State) :
    accessStraddles s ↔ wordAccess s.exmem.ir ≠ .none ∧
      memRead s.cfg.regions s.mem s.exmem.aluOutput = .error (.regionStraddle s.exmem.aluOutput) := by
  rw [memRead_error_iff, accessStraddles]
  refine and_congr ?_ (by simp)
  cases h : decodeWord s.exmem.ir with
  | error r => simp [wordAccess_error h]
  | ok i => simp [wordAccess_ok h, accessOf_none_iff, or_iff_not_imp_left]

/-- MemoryAccess records a fault exactly where the word's access straddles. -/
theorem accessAs_safe_iff {s : State} (hs : s.faulted = none) :
    (s.accessAs (wordAccess s.exmem.ir)).faulted = none ↔ ¬ accessStraddles s := by
  rw [accessStraddles_iff]
  cases wordAccess s.exmem.ir with
  | none => simp [State.accessAs, hs]
  | load mask =>
    cases h : memRead s.cfg.regions s.mem s.exmem.aluOutput with
    | ok x => simp [accessAs_load_ok h, hs]
    | error f => simp [accessAs_load_error h, memRead_error h]
  | store =>
    cases h : memWrite s.cfg.regions s.mem s.exmem.aluOutput s.exmem.b with
    | ok m => 
      have hne : memRead s.cfg.regions s.mem s.exmem.aluOutput ≠ .error (.regionStraddle s.exmem.aluOutput) := fun e => by
        rw [memWrite_error_iff_memRead_error.mpr e] at h; cases h
      simp [accessAs_store_ok h, hs, hne]
    | error f => 
      obtain rfl := memWrite_error h
      simp [accessAs_store_error h, memWrite_error_iff_memRead_error.mp h]

end Sys2Proof.Machine
end

section
/-! What an instruction leaves unchanged in each stage (40_pipeline.md sections 4 to 6), and that it always completes. -/

namespace Sys2Proof.Machine

open Sys2Proof.Claims

/-! ## Execute -/

/-- The six writers apart, HI and LO stay as they were. -/
theorem hiLoAfter_of_not_writesHiLo {i : Instr} (h : writesHiLo i = false) (c : Config) (a b hi lo : Word) :
    hiLoAfter c i a b hi lo = (hi, lo) := by
  cases i with
  | mthi | mtlo | mult | multu | div | divu => cases h
  | _ => rfl

theorem divideEvent_eq_nil {i : Instr} {l : Latch} (h : ¬ (isDivide i = true ∧ l.b = 0)) (n : Nat) : divideEvent i n l = [] :=
  if_neg h

/-- Settles O23: Execute is `executeAs`, which assigns EX/MEM, HI, LO and the log. -/
theorem executeFrame : Obligations.ExecuteFrame := by
  intro i s t hs h
  rw [exec_execute i hs] at h
  cases h
  refine ⟨fun _ => rfl, rfl, rfl, fun hw => ?hiLo, fun _ => rfl, rfl, rfl, rfl, rfl, fun hd => ?log, rfl, rfl, rfl, rfl, rfl, rfl⟩
  case hiLo =>
    rw [hiLoAfter_of_not_writesHiLo hw]; exact ⟨rfl, rfl⟩
  case log =>
    rw [divideEvent_eq_nil hd]; exact List.append_nil _

/-! ## MemoryAccess -/

/-- Only a store changes memory, and there no byte outside the four at its address. -/
theorem accessAs_readByte (s : State) {a : Access} {b : Nat}
    (h : a ≠ .store ∨ b < s.exmem.aluOutput.toNat ∨ s.exmem.aluOutput.toNat + 3 < b) :
    (s.accessAs a).mem.readByte b = s.mem.readByte b := by
  cases a with
  | none => rfl
  | load mask =>
    cases e : memRead s.cfg.regions s.mem s.exmem.aluOutput with
    | ok x => rw [accessAs_load_ok e]; rfl
    | error f => rw [accessAs_load_error e]; rfl
  | store =>
    cases e : memWrite s.cfg.regions s.mem s.exmem.aluOutput s.exmem.b with
    | ok m => rw [accessAs_store_ok e]; exact memWrite_other e (h.resolve_left (absurd rfl))
    | error f => rw [accessAs_store_error e]; rfl

/-- Only a load leaves something in `lmd`. -/
theorem accessAs_lmd (s : State) {a : Access} (h : ∀ mask, a ≠ .load mask) : (s.accessAs a).memwb.lmd = 0 := by
  cases a with
  | none => rfl
  | load mask => exact absurd rfl (h mask)
  | store =>
    cases e : memWrite s.cfg.regions s.mem s.exmem.aluOutput s.exmem.b with
    | ok m => rw [accessAs_store_ok e]; rfl
    | error f => rw [accessAs_store_error e]; rfl

theorem accessOf_ne_load {i : Instr} (h : isLoad i = false) (mask : Word) : accessOf i ≠ .load mask := by
  cases i with
  | lb | lh | lw => cases h
  | _ => exact nofun

/-- MemoryAccess of an instruction is one of the things MemoryAccess can do. -/
theorem exec_memoryAccess_does {i : Instr} {s t : State} (hs : s.stage = .memoryAccess) (h : exec i s = .next t) :
    MemoryDoes s t := by
  obtain ⟨u, hu, hdoes⟩ := (exec_work i).memoryAccess s hs
  rw [h] at hu; cases hu
  exact hdoes

/-- Settles O24: what MemoryAccess can do assigns MEM/WB, memory and the fault record; which of them, the instruction's access says. -/
theorem memoryAccessFrame : Obligations.MemoryAccessFrame := by
  intro i s t hs h
  have hframe := (exec_memoryAccess_does hs h).frame
  have ht : t = s.accessAs (accessOf i) := by
    rw [exec_memoryAccess i hs] at h; cases h; rfl
  have hbytes : ∀ addr : Word, s.exmem.aluOutput = addr →
      ∀ a : Nat, isStore i = false ∨ a < addr.toNat ∨ addr.toNat + 3 < a → t.mem.readByte a = s.mem.readByte a := by
    rintro _ rfl a ha
    rw [ht]
    exact accessAs_readByte s (ha.imp_left fun hst => by simp [accessOf_store_iff, hst])
  have hlmd : isLoad i = false → t.memwb.lmd = 0 := fun hl => by
    rw [ht]; exact accessAs_lmd s (accessOf_ne_load hl)
  have hfault : isLoad i = false ∧ isStore i = false → t.faulted = s.faulted := fun hno => by
    rw [ht, (accessOf_none_iff i).mpr hno]; rfl
  refine ⟨?_, ?_, hbytes, ?_, ?_, ?_, ?_, hlmd, hfault, ?_, ?_, ?_, ?_, ?_, ?_⟩
  all_goals rw [hframe]

/-! ## Writeback -/

section WritebackAs
variable {s : State} {d : Option RegNum} {v : Word} {r : Bool} {q : RegNum}

theorem writebackAs_read_dest (h : d = some q) : (s.writebackAs d v r).nxt.read q = v := by
  subst h; exact Arch.read_write_same _ _ _

theorem writebackAs_read_other (h : d ≠ some q) : (s.writebackAs d v r).nxt.read q = s.nxt.read q := by
  cases d with
  | none => rfl
  | some p => exact Arch.read_write_other _ _ fun e => h (congrArg some e.symm)

theorem writebackAs_frame : s.writebackAs d v r =
    { s with nxt := { s.nxt with x := (s.writebackAs d v r).nxt.x }, retired := s.retired + r.toNat } := by
  cases d <;> rfl

end WritebackAs

theorem retiresInstr_toNat (i : Instr) (n : Nat) :
    n + (retiresInstr i).toNat = if (∃ code, i = .syscall code) then n else n + 1 := by
  cases i <;> simp [retiresInstr]

/-- Settles O25: Writeback is `writebackAs` of the destination, the value and whether the instruction retires. -/
theorem writebackFrame : Obligations.WritebackFrame := by
  intro i s t hs h
  have ht : t = s.writebackAs (destination s.cfg.wbMode i) (writtenValue i s.memwb) (retiresInstr i) := by
    rw [exec_writeback i hs] at h; cases h; rfl
  have hdest : ∀ d, destination s.cfg.wbMode i = some d → t.nxt.read d = writtenValue i s.memwb := fun d hd => by
    rw [ht, writebackAs_read_dest hd]
  have hother : ∀ r, destination s.cfg.wbMode i ≠ some r → t.nxt.read r = s.nxt.read r := fun r hr => by
    rw [ht, writebackAs_read_other hr]
  rw [writebackAs_frame] at ht
  refine ⟨hdest, hother, ?_, ?_, ?_, ?_, fun a => ?_, ?_, ?_, ?_, ?_, ?retired, ?_, ?_, ?_, ?_, ?_, ?_⟩
  case retired => rw [ht, ← retiresInstr_toNat]
  all_goals rw [ht]

/-! ## Completion -/

/-- Settles O31: each stage of an instruction answers a next state, and so does every step of a state that has not faulted. -/
theorem nothingStopsButAFault : Obligations.NothingStopsButAFault := by
  refine ⟨fun i s => ?_, fun s hs => (step_cases s hs).imp fun _ h => h.1⟩
  cases hs : s.stage with
  | writeback => exact ⟨_, exec_writeback i hs⟩
  | memoryAccess => exact ⟨_, exec_memoryAccess i hs⟩
  | execute => exact ⟨_, exec_execute i hs⟩

end Sys2Proof.Machine
end

section
/-! Reads and writes of memory, byte by byte, and the uniqueness of memory's form (20_memory.md sections 1 to 4). -/

namespace Sys2Proof.Machine

/-! ## Bytes of a read and of a write -/

/-- Each byte of a written word lands at its place. -/
theorem Memory.readByte_writeWord_lt {m : Memory} (hm : m.wf) (a : Nat) (v : Word) {k : Nat} (hk : k < 4) :
    (m.writeWord a v).readByte (a + k) = byteOfWord v k := by
  obtain ⟨h0, h1, h2, h3⟩ := readByte_writeWord hm a v
  interval_cases k
  exacts [h0, h1, h2, h3]

section Accesses
variable {regions : List Region} {addr : Word} {r : Region} (hr : owningRegion regions addr = some r)
include hr

theorem memRead_inside (m : Memory) (hfit : addr.toNat + 3 ≤ r.last.toNat) :
    memRead regions m addr = .ok (m.readWord addr.toNat) := by simp [memRead, hr, Nat.not_lt.mpr hfit]
theorem memWrite_inside (m : Memory) (v : Word) (hfit : addr.toNat + 3 ≤ r.last.toNat) :
    memWrite regions m addr v = .ok (m.writeWord addr.toNat v) := by simp [memWrite, hr, Nat.not_lt.mpr hfit]
theorem memRead_straddle (m : Memory) (hpast : r.last.toNat < addr.toNat + 3) :
    memRead regions m addr = .error (.regionStraddle addr) := by simp [memRead, hr, hpast]
theorem memWrite_straddle (m : Memory) (v : Word) (hpast : r.last.toNat < addr.toNat + 3) :
    memWrite regions m addr v = .error (.regionStraddle addr) := by simp [memWrite, hr, hpast]

end Accesses

theorem memWrite_outside {regions : List Region} {addr : Word} (h : owningRegion regions addr = none) (m : Memory) (v : Word) :
    memWrite regions m addr v = .ok m := by simp [memWrite, h]

/-- Settles O26: the three answers of an access, with the four bytes of a read and of a write. -/
theorem accessesAreLittleEndian : Obligations.AccessesAreLittleEndian := by
  intro regions m addr v hm
  refine ⟨fun hnone => ⟨by simp [memRead, hnone], memWrite_outside hnone m v⟩, fun r hr hfit => ⟨?read, ?write⟩,
    fun r hr hpast => ⟨memRead_straddle hr m hpast, memWrite_straddle hr m v hpast⟩⟩
  case read => exact ⟨m.readWord addr.toNat, memRead_inside hr m hfit, fun k hk => m.byteOfWord_readWord addr.toNat hk⟩
  case write =>
    exact ⟨m.writeWord addr.toNat v, memWrite_inside hr m v hfit, fun k hk => Memory.readByte_writeWord_lt hm addr.toNat v hk,
      fun a ha => Memory.readByte_writeWord_other m v ha⟩

/-! ## A word read after a word is written -/

/-- A read depends on memory only through the word at its address. -/
theorem memRead_congr {m m' : Memory} {addr : Word} (h : m'.readWord addr.toNat = m.readWord addr.toNat)
    (regions : List Region) : memRead regions m' addr = memRead regions m addr := by
  simp only [memRead, h]

/-- Two memories with the same four bytes at an address have the same word there. -/
theorem Memory.readWord_congr {m m' : Memory} {a : Nat} (h : ∀ k < 4, m'.readByte (a + k) = m.readByte (a + k)) :
    m'.readWord a = m.readWord a := by
  have h0 := h 0 (by decide)
  rw [Nat.add_zero] at h0
  simp only [readWord, h0, h 1 (by decide), h 2 (by decide), h 3 (by decide)]

/-- A word apart from a written one reads as before. -/
theorem memWrite_readWord_other {regions : List Region} {m m' : Memory} {addr v : Word} {b : Nat}
    (h : memWrite regions m addr v = .ok m') (hb : b + 3 < addr.toNat ∨ addr.toNat + 3 < b) : m'.readWord b = m.readWord b :=
  Memory.readWord_congr fun _ _ => memWrite_other h (by omega)

/-- Settles O27: the word written by the law on reading back, a word apart from it by its four bytes. -/
theorem writtenWordReadsBack : Obligations.WrittenWordReadsBack := by
  intro regions m m' addr v hm h
  exact ⟨fun hr => memRead_memWrite hm hr h, fun b hb => memRead_congr (memWrite_readWord_other h hb) regions⟩

/-! ## Memory's form -/

/-- What a canonical memory lists is what it reads as other than 0. -/
theorem Memory.mem_iff_readByte {m : Memory} (hm : m.wf) (c : Host.Cell) : c ∈ m ↔ m.readByte c.1 = c.2 ∧ c.2 ≠ 0 := by
  refine ⟨fun hc => ⟨readByte_of_mem hm hc, hm.2 c hc⟩, ?_⟩
  rintro ⟨hread, hne⟩
  clear hm
  induction m with
  | nil => exact absurd hread.symm hne
  | cons d rest ih =>
    obtain ⟨k, v⟩ := d
    by_cases hk : k = c.1
    · have hv : v = c.2 := by simpa [readByte, hk] using hread
      subst hk hv
      exact List.mem_cons_self
    · exact List.mem_cons_of_mem _ (ih (by simpa only [readByte, hk, if_false] using hread))

/-- Two canonical memories that read alike are equal: they are strictly rising lists with the same members. -/
theorem Memory.ext_readByte {m m' : Memory} (hm : m.wf) (hm' : m'.wf) (h : ∀ a, m.readByte a = m'.readByte a) : m = m' := by
  have : Std.Irrefl fun c d : Host.Cell => c.1 < d.1 := ⟨fun c => lt_irrefl c.1⟩
  exact hm.1.eq_of_mem_iff hm'.1 fun c => by rw [mem_iff_readByte hm, mem_iff_readByte hm', h]

/-- Settles O28: the laws on `MemWrite`, and the uniqueness of the form. -/
theorem memoryFormIsCanonical : Obligations.MemoryFormIsCanonical :=
  ⟨fun _ _ _ _ _ h => ⟨fun hm => memWrite_wf hm h, fun hm => memWrite_inRegions hm h⟩,
    fun _ _ hm hm' h => Memory.ext_readByte hm hm' h⟩

end Sys2Proof.Machine
end

section
/-! What a step does, read off the words in the latches: when it faults, what retires, what is logged, which register and what memory a
completed cycle writes (40_pipeline.md sections 1 to 6, 60_exceptions.md). -/

namespace Sys2Proof.Machine

open Sys2Proof.Claims

/-! ## The three stages of a cycle, from the state before it -/

section Shares
variable {s s1 s2 s3 : State}

/-- The state after Writeback. -/
theorem writeback_share (h : runStage .writeback s.memwb.ir s = .next s1) :
    s1 = (s.atStage .writeback).writebackAs (wordDestination s.cfg.wbMode s.memwb.ir) (wordWritten s.memwb) (retires s.memwb.ir) := by
  rw [runStage_writeback_eq] at h; cases h; rfl

/-- The state after MemoryAccess. -/
theorem memory_share (h : runStage .memoryAccess s.exmem.ir s1 = .next s2) :
    s2 = (s1.atStage .memoryAccess).accessAs (wordAccess s.exmem.ir) := by
  rw [runStage_memoryAccess_eq] at h; cases h; rfl

/-- MemoryAccess of a cycle records a fault exactly where the access straddles. -/
theorem memory_safe_iff (hs : s.faulted = none) (h1 : runStage .writeback s.memwb.ir s = .next s1)
    (h2 : runStage .memoryAccess s.exmem.ir s1 = .next s2) : s2.faulted = none ↔ ¬ accessStraddles s := by
  rw [memory_share h2, writeback_share h1]
  exact accessAs_safe_iff hs

/-- What Execute finds of the state before the cycle. -/
theorem before_execute (h1 : runStage .writeback s.memwb.ir s = .next s1)
    (h2 : runStage .memoryAccess s.exmem.ir s1 = .next s2) :
    s2.cfg = s.cfg ∧ s2.cur = s.cur ∧ s2.idex = s.idex ∧ s2.nxt.hi = s.nxt.hi ∧ s2.nxt.lo = s.nxt.lo ∧ s2.cycles = s.cycles ∧
      s2.diag = s.diag := by
  obtain ⟨u1, e1, d1⟩ := runStage_writeback s.memwb.ir s
  obtain ⟨u2, e2, d2⟩ := runStage_memoryAccess s.exmem.ir s1
  rw [h1] at e1; cases e1
  rw [h2] at e2; cases e2
  rw [d2.frame, d1.frame]
  exact ⟨rfl, rfl, rfl, rfl, rfl, rfl, rfl⟩

/-- The state after Execute. -/
theorem execute_share (h1 : runStage .writeback s.memwb.ir s = .next s1) (h2 : runStage .memoryAccess s.exmem.ir s1 = .next s2)
    (h3 : runStage .execute s.idex.ir s2 = .next s3) :
    s3 = (s2.atStage .execute).executeAs (wordAlu s.cfg s.idex s.cur) (wordHiLo s.cfg s.idex s.nxt.hi s.nxt.lo)
      (diagnosticOf s.cycles s.idex) := by
  obtain ⟨hcfg, hcur, hidex, hhi, hlo, hcycles, -⟩ := before_execute h1 h2
  rw [← hidex, runStage_execute_eq, hcfg, hcur, hidex, hhi, hlo, hcycles] at h3
  cases h3; rfl

/-- The log after Execute. -/
theorem execute_diag (h1 : runStage .writeback s.memwb.ir s = .next s1) (h2 : runStage .memoryAccess s.exmem.ir s1 = .next s2)
    (h3 : runStage .execute s.idex.ir s2 = .next s3) : s3.diag = s.diag ++ diagnosticOf s.cycles s.idex := by
  obtain ⟨-, -, -, -, -, -, hdiag⟩ := before_execute h1 h2
  rw [execute_share h1 h2 h3, ← hdiag]; rfl

end Shares

/-! ## Faults -/

theorem fetchStraddles_iff (s : State) (m : Memory) :
    fetchStraddles s ↔ memRead s.cfg.regions m s.cur.pc = .error (.regionStraddle s.cur.pc) := by
  rw [memRead_error_iff, fetchStraddles]; simp

theorem Completes.not_accessStraddles {s s1 s2 s3 t : State} {w : Word} (c : Completes s s1 s2 s3 w t) :
    ¬ accessStraddles s := (memory_safe_iff c.safe_begin c.writeback c.memoryAccess).mp c.safe.1

theorem StopsInMemory.accessStraddles {s s1 s2 t : State} {f : Fault} (c : StopsInMemory s s1 s2 f t) (hs : s.faulted = none) :
    accessStraddles s := by
  by_contra hno
  have hsafe := (memory_safe_iff hs c.writeback c.memoryAccess).mpr hno
  rw [c.faulted] at hsafe; cases hsafe

theorem StopsInFetch.not_accessStraddles {s s1 s2 s3 t : State} {f : Fault} (c : StopsInFetch s s1 s2 s3 f t)
    (hs : s.faulted = none) : ¬ Claims.accessStraddles s := (memory_safe_iff hs c.writeback c.memoryAccess).mp c.safe.1

/-- Settles O33: MemoryAccess faults where its access straddles; where it does not, Fetch faults where its read straddles. -/
theorem onlyStraddlesFault : Obligations.OnlyStraddlesFault := by
  intro s t h
  have hs := step_next_safe h
  rcases step_inv h with ⟨s1, s2, s3, w, c⟩ | ⟨s1, s2, f, c⟩ | ⟨s1, s2, s3, f, c⟩
  · have hfetch : ¬ fetchStraddles s := by rw [fetchStraddles_iff s s2.mem, c.fetch]; nofun
    exact ⟨.inr (.inr ⟨c.safe_end, c.not_accessStraddles, hfetch⟩), fun hf => absurd c.safe_end hf⟩
  · have haccess := c.accessStraddles hs
    obtain ⟨rfl, -, ht⟩ := c.frame hs
    rw [ht]
    exact ⟨.inl ⟨rfl, haccess, rfl, rfl⟩, fun _ => ⟨rfl, rfl⟩⟩
  · have haccess := c.not_accessStraddles hs
    obtain ⟨rfl, ht⟩ := c.frame
    have hfetch := (fetchStraddles_iff s s2.mem).mpr c.fetch
    rw [ht]
    exact ⟨.inr (.inl ⟨rfl, haccess, hfetch⟩), fun _ => ⟨rfl, rfl⟩⟩

/-! ## The retired counter and the log -/

/-- Settles O40: Writeback comes first in the cycle, and nothing after it touches the counter. -/
theorem retiredCountsRetiringWords : Obligations.RetiredCountsRetiringWords := by
  intro s t h
  have hcount {s1 : State} (h1 : runStage .writeback s.memwb.ir s = .next s1) :
      s1.retired = s.retired + (if retires s.memwb.ir = true then 1 else 0) := by
    rw [writeback_share h1]
    cases retires s.memwb.ir <;> rfl
  rcases step_inv h with ⟨s1, s2, s3, w, c⟩ | ⟨s1, s2, f, c⟩ | ⟨s1, s2, s3, f, c⟩
  · rw [← hcount c.writeback, c.frame]
  · rw [← hcount c.writeback, (c.frame (step_next_safe h)).2.2]
  · rw [← hcount c.writeback, c.frame.2]

/-- The log after a completed cycle. -/
theorem Completes.diag_eq {s s1 s2 s3 t : State} {w : Word} (c : Completes s s1 s2 s3 w t) :
    t.diag = s.diag ++ diagnosticOf s.cycles s.idex := by
  rw [← execute_diag c.writeback c.memoryAccess c.execute, c.frame]

/-- The log after a cycle that Fetch stops. -/
theorem StopsInFetch.diag_eq {s s1 s2 s3 t : State} {f : Fault} (c : StopsInFetch s s1 s2 s3 f t) :
    t.diag = s.diag ++ diagnosticOf s.cycles s.idex := by
  rw [← execute_diag c.writeback c.memoryAccess c.execute, c.frame.2]

/-- Settles O41: a straddling access stops the cycle before Execute; any other cycle runs Execute, whose events stand. -/
theorem diagnosticsComeFromExecute : Obligations.DiagnosticsComeFromExecute := by
  intro s t h
  have hs := step_next_safe h
  rcases step_inv h with ⟨s1, s2, s3, w, c⟩ | ⟨s1, s2, f, c⟩ | ⟨s1, s2, s3, f, c⟩
  · exact ⟨fun ha => absurd ha c.not_accessStraddles, fun _ => c.diag_eq⟩
  · rw [(c.frame hs).2.2]
    exact ⟨fun _ => rfl, fun hno => absurd (c.accessStraddles hs) hno⟩
  · exact ⟨fun ha => absurd ha (c.not_accessStraddles hs), fun _ => c.diag_eq⟩

/-! ## What a completed cycle leaves -/

/-- An access depends on the regions, memory and EX/MEM alone. -/
theorem accessAs_congr {s s' : State} (a : Access) (hcfg : s'.cfg = s.cfg) (hmem : s'.mem = s.mem) (hexmem : s'.exmem = s.exmem) :
    (s'.accessAs a).mem = (s.accessAs a).mem ∧ (s'.accessAs a).memwb = (s.accessAs a).memwb := by
  cases a with
  | none => exact ⟨hmem, by simp [State.accessAs, State.memoryPass, hexmem]⟩
  | load mask =>
    simp only [State.accessAs, State.memoryLoad, hcfg, hmem, hexmem]
    cases memRead s.cfg.regions s.mem s.exmem.aluOutput with
    | ok x => exact ⟨hmem, by simp⟩
    | error f => exact ⟨hmem, by simp [State.memoryPass, hexmem]⟩
  | store =>
    simp only [State.accessAs, State.memoryStore, hcfg, hmem, hexmem]
    cases memWrite s.cfg.regions s.mem s.exmem.aluOutput s.exmem.b with
    | ok m => exact ⟨rfl, by simp [State.memoryPass, hexmem]⟩
    | error f => exact ⟨hmem, by simp [State.memoryPass, hexmem]⟩

namespace Completes
variable {s s1 s2 s3 t : State} {w : Word} (c : Completes s s1 s2 s3 w t)
include c

theorem cfg_eq : t.cfg = s.cfg := by rw [c.frame]

/-- The destination register of the word in Writeback, if it has one, gets the word's value. -/
theorem read_cur_destination {d : RegNum} (h : wordDestination s.cfg.wbMode s.memwb.ir = some d) :
    t.cur.read d = wordWritten s.memwb := by
  rw [c.read_cur, writeback_share c.writeback]
  exact writebackAs_read_dest h

/-- Every other register keeps the value it had in `nxt`. -/
theorem read_cur_other {r : RegNum} (h : wordDestination s.cfg.wbMode s.memwb.ir ≠ some r) : t.cur.read r = s.nxt.read r := by
  rw [c.read_cur, writeback_share c.writeback]
  exact writebackAs_read_other h

/-- The whole of EX/MEM. -/
theorem exmem_eq : t.exmem = { s.idex with aluOutput := wordAlu s.cfg s.idex s.cur, lmd := 0 } := by
  have h3 := execute_share c.writeback c.memoryAccess c.execute
  rw [c.frame, h3]; rfl

/-- HI and LO. -/
theorem hiLo_eq : (t.cur.hi, t.cur.lo) = wordHiLo s.cfg s.idex s.nxt.hi s.nxt.lo := by
  have h3 := execute_share c.writeback c.memoryAccess c.execute
  rw [c.frame, h3]; rfl

/-- Memory and MEM/WB are what MemoryAccess leaves, from memory and EX/MEM as they were before the cycle. -/
theorem access_eq : t.mem = (s.accessAs (wordAccess s.exmem.ir)).mem ∧ t.memwb = (s.accessAs (wordAccess s.exmem.ir)).memwb := by
  have h1 := writeback_share c.writeback
  obtain ⟨hmem, hmemwb⟩ := accessAs_congr (s := s) (s' := s1.atStage .memoryAccess) (wordAccess s.exmem.ir) (by rw [h1]; rfl)
    (by rw [h1]; rfl) (by rw [h1]; rfl)
  rw [← memory_share c.memoryAccess] at hmem hmemwb
  refine ⟨by rw [c.frame, hmem], ?_⟩
  rw [← hmemwb, c.result, execute_share c.writeback c.memoryAccess c.execute]; rfl

/-- A word that makes no access. -/
theorem access_none (h : wordAccess s.exmem.ir = .none) : t.mem = s.mem ∧ t.memwb = { s.exmem with lmd := 0 } := by
  have he := c.access_eq
  rw [h] at he
  exact he

/-- A load reads memory as it was before the cycle. -/
theorem access_load {mask : Word} (h : wordAccess s.exmem.ir = .load mask) :
    t.mem = s.mem ∧ ∃ x, memRead s.cfg.regions s.mem s.exmem.aluOutput = .ok x ∧ t.memwb = { s.exmem with lmd := x &&& mask } := by
  have he := c.access_eq
  rw [h] at he
  cases hread : memRead s.cfg.regions s.mem s.exmem.aluOutput with
  | error f =>
    obtain rfl := memRead_error hread
    exact absurd ((accessStraddles_iff s).mpr ⟨by rw [h]; nofun, hread⟩) c.not_accessStraddles
  | ok x =>
    rw [accessAs_load_ok hread] at he
    exact ⟨he.1, x, rfl, he.2⟩

/-- A store writes memory. -/
theorem access_store (h : wordAccess s.exmem.ir = .store) :
    memWrite s.cfg.regions s.mem s.exmem.aluOutput s.exmem.b = .ok t.mem := by
  have he := c.access_eq
  rw [h] at he
  cases hwrite : memWrite s.cfg.regions s.mem s.exmem.aluOutput s.exmem.b with
  | error f =>
    obtain rfl := memWrite_error hwrite
    exact absurd ((accessStraddles_iff s).mpr ⟨by rw [h]; nofun, memWrite_error_iff_memRead_error.mp hwrite⟩) c.not_accessStraddles
  | ok m =>
    rw [accessAs_store_ok hwrite] at he
    exact congrArg _ he.1.symm

end Completes

/-! ## Statements on one or two cycles -/

/-- Settles O36: the word in MEM/WB writes `nxt`, which a completed cycle ends with in `cur`; Decode reads `cur` as it was. -/
theorem oneRegisterWrittenAndSeenNextCycle : Obligations.OneRegisterWrittenAndSeenNextCycle := by
  intro s t u hst htu hu
  obtain ⟨_, _, _, _, first⟩ := step_inv_safe hst (step_next_safe htu)
  obtain ⟨_, _, _, _, second⟩ := step_inv_safe htu hu
  refine ⟨fun i hi => ⟨fun d hd => ?_, fun r hr => ?_⟩, fun e he r => ?_, first.decoded_operands.1, first.decoded_operands.2,
    second.decoded_operands⟩
  · rw [← wordWritten_ok hi]
    exact first.read_cur_destination ((wordDestination_ok hi _).trans hd)
  · exact first.read_cur_other (by rwa [wordDestination_ok hi])
  · exact first.read_cur_other (by rw [wordDestination_error he]; nofun)

/-- Settles O42: in each of the three latches such a word has no result, no access and no destination. -/
theorem unlistedWordsDoNothing : Obligations.UnlistedWordsDoNothing := by
  intro s t e hst ht
  obtain ⟨_, _, _, _, c⟩ := step_inv_safe hst ht
  refine ⟨fun h => ⟨?result, ?hiLo⟩, fun h => ?access, fun h => ⟨?retired, fun r => ?register⟩⟩
  case result => rw [c.exmem_eq, wordAlu_error h]
  case hiLo =>
    have hl := c.hiLo_eq
    rw [wordHiLo_error h] at hl
    exact Prod.mk.inj hl
  case access => exact (c.access_none (wordAccess_error h)).symm
  case retired => simpa [retires_error h] using retiredCountsRetiringWords s t hst
  case register => exact c.read_cur_other (by rw [wordDestination_error h]; nofun)

end Sys2Proof.Machine
end

section
/-! A word on its way through the pipeline, and the absence of HI/LO and memory hazards (40_pipeline.md section 7,
70_reset_and_hazards.md sections 1 and 3). -/

namespace Sys2Proof.Machine

open Sys2Proof.Claims

/-! ## The result of an instruction in terms of its operands -/

/-- The address of an access (R132). -/
theorem aluOf_of_access {i : Instr} (h : accessOf i ≠ .none) (c : Config) (l : Latch) (m : Arch) : aluOf c i l m = l.a + l.imm := by
  cases i with
  | lb | lh | lw | sb | sh | sw => rfl
  | _ => exact absurd rfl h

/-- SLTI compares with the immediate itself: sign extension keeps its value as a signed number (R127). -/
theorem lessThan_signed_signExtend (a : Word) (imm : Imm16) :
    boolWord (lessThan .signed a (imm.signExtend 32)) = if a.toInt < imm.toInt then 1 else 0 := by
  simp [boolWord, lessThan, BitVec.toInt_signExtend_of_le]

/-- The immediate of an assembled word, extended. -/
theorem imm_of_immediateWord {l : Latch} {op : BitVec 6} {rs rt : RegNum} {imm : Imm16}
    (h : l.imm = sext32 (immField (immediateWord op rs rt imm))) : l.imm = imm.signExtend 32 := by
  rwa [immField_immediateWord] at h

/-- What a computing instruction is to the three stages: it makes no access, writes its result to its destination, and retires; and the
result is that of its operands, the immediate being the extended field of its word. -/
theorem of_computed {c : Config} {i : Instr} {a b hi lo : Word} {d : RegNum} {v : Word} (h : computed c i a b hi lo = some (d, v)) :
    accessOf i = .none ∧ destination c.wbMode i = some d ∧ isLoad i = false ∧ retiresInstr i = true ∧
      ∀ (l : Latch) (m : Arch), l.a = a → l.b = b → l.imm = sext32 (immField (encode i)) → m.hi = hi → m.lo = lo →
        aluOf c i l m = v := by
  cases i with
  | sll | srl | sra | mfhi | mflo | add | addu | sub | subu | and | or | xor | nor =>
    obtain ⟨rfl, rfl⟩ := Prod.mk.inj (Option.some.inj h)
    refine ⟨rfl, rfl, rfl, rfl, ?_⟩
    rintro l m rfl rfl - rfl rfl
    rfl
  | slt =>
    obtain ⟨rfl, rfl⟩ := Prod.mk.inj (Option.some.inj h)
    refine ⟨rfl, rfl, rfl, rfl, ?_⟩
    rintro l m rfl rfl - - -
    exact boolWord_lessThan_unsigned _ _
  | addiu rs rt imm | andi rs rt imm | ori rs rt imm | xori rs rt imm =>
    obtain ⟨rfl, rfl⟩ := Prod.mk.inj (Option.some.inj h)
    refine ⟨rfl, rfl, rfl, rfl, ?_⟩
    rintro l m rfl - himm - -
    rw [← imm_of_immediateWord himm]; rfl
  | addi rs rt imm =>
    obtain ⟨rfl, rfl⟩ := Prod.mk.inj (Option.some.inj h)
    refine ⟨rfl, rfl, rfl, rfl, ?_⟩
    rintro l m rfl - himm - -
    show reextend l.imm + l.a = _
    rw [imm_of_immediateWord himm, reextend_signExtend, BitVec.add_comm]
  | lui rs rt imm =>
    obtain ⟨rfl, rfl⟩ := Prod.mk.inj (Option.some.inj h)
    refine ⟨rfl, rfl, rfl, rfl, ?_⟩
    rintro l m - - himm - -
    show upperImmediate l.imm = _
    rw [imm_of_immediateWord himm, upperImmediate_signExtend]
  | slti rs rt imm =>
    have hd : rt = d ∧ boolWord (lessThan c.sltiCmp a (imm.signExtend 32)) = v := by
      cases hs : c.sltiCmp with
      | unsigned => simpa [computed, hs, boolWord, lessThan] using h
      | signed => simpa [computed, hs, lessThan_signed_signExtend] using h
    obtain ⟨rfl, rfl⟩ := hd
    refine ⟨rfl, rfl, rfl, rfl, ?_⟩
    rintro l m rfl - himm - -
    rw [← imm_of_immediateWord himm]; rfl
  | _ => cases h

/-- What a load is to the three stages: its mask keeps the bits it is said to keep, and it writes `lmd` to its destination. -/
theorem of_loaded {i : Instr} {x : Word} {d : RegNum} {v : Word} (h : loaded i x = some (d, v)) (mode : WbMode) :
    (∃ mask, accessOf i = .load mask ∧ x &&& mask = v) ∧ destination mode i = some d ∧ isLoad i = true := by
  cases i with
  | lb | lh | lw =>
    obtain ⟨rfl, rfl⟩ := Prod.mk.inj (Option.some.inj h)
    exact ⟨⟨_, rfl, by simp⟩, rfl, rfl⟩
  | _ => cases h

/-! ## What a completed cycle passes on -/

namespace Completes
variable {s s1 s2 s3 t : State} {w : Word} (c : Completes s s1 s2 s3 w t)
include c

theorem nxt_eq : t.nxt = t.cur := by rw [c.frame]

theorem idex_eq : t.idex = s.decodedLatch s.ifid.ir s.ifid.pc := by rw [c.frame]

theorem memwb_passes : t.memwb.ir = s.exmem.ir ∧ t.memwb.aluOutput = s.exmem.aluOutput := by rw [c.frame]; exact ⟨rfl, rfl⟩

theorem exmem_passes : t.exmem.ir = s.idex.ir ∧ t.exmem.b = s.idex.b := by rw [c.frame]; exact ⟨rfl, rfl⟩

theorem aluOutput_eq : t.exmem.aluOutput = wordAlu s.cfg s.idex s.cur := by rw [c.exmem_eq]

/-- The word fetched is the one memory gives at the pc, as the cycle leaves it. -/
theorem ifid_ir {x : Word} (h : memRead s.cfg.regions t.mem s.cur.pc = .ok x) : t.ifid.ir = x := by
  have hf := c.fetched
  rw [h] at hf
  exact (Except.ok.inj hf).symm

end Completes

/-- A cycle that completes. -/
abbrev Completed (s t : State) : Prop := ∃ s1 s2 s3 w, Completes s s1 s2 s3 w t

theorem fiveCycles_completed {s s1 s2 s3 s4 s5 : State} (h : FiveCycles s s1 s2 s3 s4 s5) :
    Completed s s1 ∧ Completed s1 s2 ∧ Completed s2 s3 ∧ Completed s3 s4 ∧ Completed s4 s5 := by
  obtain ⟨h1, h2, h3, h4, h5, hsafe⟩ := h
  exact ⟨step_inv_safe h1 (step_next_safe h2), step_inv_safe h2 (step_next_safe h3), step_inv_safe h3 (step_next_safe h4),
    step_inv_safe h4 (step_next_safe h5), step_inv_safe h5 hsafe⟩

/-! ## The way of a word through five cycles -/

/-- Where the word fetched in the first of five cycles stands, and what it brings with it: its operands in ID/EX, its result in EX/MEM,
and both, but for `lmd`, in MEM/WB. -/
structure WordPath (s s1 s2 s3 s4 : State) (w : Word) (i : Instr) : Prop where
  decoded : s2.idex = s1.decodedLatch w s1.ifid.pc
  inExmem : decodeWord s3.exmem.ir = .ok i
  result  : s3.exmem.aluOutput = aluOf s.cfg i s2.idex s2.cur
  operand : s3.exmem.b = s1.cur.read (rtField w)
  inMemwb : decodeWord s4.memwb.ir = .ok i
  passed  : s4.memwb.aluOutput = s3.exmem.aluOutput
  cfg     : s3.cfg = s.cfg ∧ s4.cfg = s.cfg

theorem wordPath_of_fetched {s s1 s2 s3 s4 s5 : State} {w : Word} {i : Instr} (h : FiveCycles s s1 s2 s3 s4 s5)
    (hw : memRead s.cfg.regions s1.mem s.cur.pc = .ok w) (hi : decodeWord w = .ok i) : WordPath s s1 s2 s3 s4 w i := by
  obtain ⟨⟨_, _, _, _, c1⟩, ⟨_, _, _, _, c2⟩, ⟨_, _, _, _, c3⟩, ⟨_, _, _, _, c4⟩, -⟩ := fiveCycles_completed h
  have hdecoded : s2.idex = s1.decodedLatch w s1.ifid.pc := by rw [c2.idex_eq, c1.ifid_ir hw]
  have hidex : decodeWord s2.idex.ir = .ok i := by rw [hdecoded]; exact hi
  have hexmem : decodeWord s3.exmem.ir = .ok i := by rw [c3.exmem_passes.1]; exact hidex
  have hcfg2 : s2.cfg = s.cfg := by rw [c2.cfg_eq, c1.cfg_eq]
  have hcfg3 : s3.cfg = s.cfg := by rw [c3.cfg_eq, hcfg2]
  exact {
    decoded := hdecoded
    inExmem := hexmem
    result := by rw [c3.aluOutput_eq, wordAlu_ok hidex, hcfg2]
    operand := by rw [c3.exmem_passes.2, hdecoded]; rfl
    inMemwb := by rw [c4.memwb_passes.1]; exact hexmem
    passed := c4.memwb_passes.2
    cfg := ⟨hcfg3, by rw [c4.cfg_eq, hcfg3]⟩ }

/-- In the fifth cycle the word writes its value to its destination and leaves the other registers. -/
theorem WordPath.written {s s1 s2 s3 s4 s5 : State} {w : Word} {i : Instr} {d : RegNum} (p : WordPath s s1 s2 s3 s4 w i)
    (h : FiveCycles s s1 s2 s3 s4 s5) (hd : destination s.cfg.wbMode i = some d) :
    s5.cur.read d = writtenValue i s4.memwb ∧ ∀ r, r ≠ d → s5.cur.read r = s4.cur.read r := by
  obtain ⟨-, -, -, ⟨_, _, _, _, c4⟩, ⟨_, _, _, _, c5⟩⟩ := fiveCycles_completed h
  have hdest : wordDestination s4.cfg.wbMode s4.memwb.ir = some d := by rw [wordDestination_ok p.inMemwb, p.cfg.2, hd]
  refine ⟨by rw [c5.read_cur_destination hdest, wordWritten_ok p.inMemwb], fun r hr => ?_⟩
  rw [c5.read_cur_other (by rw [hdest]; exact fun e => hr (Option.some.inj e).symm), c4.nxt_eq]

/-- Settles O48: the operands stand in ID/EX after the second cycle, the result in EX/MEM after the third and in MEM/WB after the fourth;
the fifth writes it. -/
theorem resultReachesItsRegister : Obligations.ResultReachesItsRegister := by
  intro s s1 s2 s3 s4 s5 w i d v h hw hi hcomputed
  obtain ⟨-, hdest, hload, hret, halu⟩ := of_computed hcomputed
  have p := wordPath_of_fetched h hw hi
  obtain ⟨hd, hother⟩ := p.written h hdest
  refine ⟨?value, hother, ?retired⟩
  case value =>
    rw [hd, writtenValue_of_not_load hload, p.passed, p.result, p.decoded]
    refine halu _ _ rfl rfl ?_ rfl rfl
    rw [(encodeOfDecode w i hi).1]; rfl
  case retired =>
    rw [retiredCountsRetiringWords s4 s5 h.2.2.2.2.1, retires_ok p.inMemwb, hret]; rfl

/-- The address an access has in EX/MEM. -/
theorem WordPath.address {s s1 s2 s3 s4 : State} {w : Word} {i : Instr} (p : WordPath s s1 s2 s3 s4 w i)
    (ha : accessOf i ≠ .none) : s3.exmem.aluOutput = s1.cur.read (rsField w) + (immField w).signExtend 32 := by
  rw [p.result, aluOf_of_access ha, p.decoded]; rfl

/-- Settles O49: the address stands in EX/MEM after the third cycle, so the fourth reads memory as the third left it. -/
theorem loadReachesItsRegister : Obligations.LoadReachesItsRegister := by
  intro s s1 s2 s3 s4 s5 w v i d x h hw hi hread hloaded
  obtain ⟨⟨mask, haccess, hmask⟩, hdest, hload⟩ := of_loaded hloaded s.cfg.wbMode
  have p := wordPath_of_fetched h hw hi
  obtain ⟨hd, hother⟩ := p.written h hdest
  obtain ⟨-, -, -, ⟨_, _, _, _, c4⟩, -⟩ := fiveCycles_completed h
  obtain ⟨hmem, y, hy, hmemwb⟩ := c4.access_load ((wordAccess_ok p.inExmem).trans haccess)
  rw [p.address (by rw [haccess]; nofun), p.cfg.1, hread] at hy
  cases hy
  refine ⟨?_, hother, hmem⟩
  rw [hd, writtenValue, hload, if_pos rfl, hmemwb, hmask]

/-- Settles O50: address and operand stand in EX/MEM after the third cycle, and the fourth writes. -/
theorem storeReachesMemory : Obligations.StoreReachesMemory := by
  intro s s1 s2 s3 s4 s5 w i h hw hi hstore
  have haccess := (accessOf_store_iff i).mpr hstore
  have p := wordPath_of_fetched h hw hi
  obtain ⟨-, -, -, ⟨_, _, _, _, c4⟩, -⟩ := fiveCycles_completed h
  have hwrite := c4.access_store ((wordAccess_ok p.inExmem).trans haccess)
  rw [p.address (by rw [haccess]; nofun), p.operand, p.cfg.1] at hwrite
  refine ⟨hwrite, ?_⟩
  rintro _ rfl a ha
  exact memWrite_other hwrite ha

/-! ## No hazards -/

/-- Settles O51: a completed cycle ends with what Execute left in HI and LO, which the next cycle's MFHI and MFLO read. -/
theorem hiLoSeenByTheNextWord : Obligations.HiLoSeenByTheNextWord := by
  intro s t iE hi lo hst ht hE hafter
  obtain ⟨_, _, _, _, first⟩ := step_inv_safe hst ht
  obtain ⟨hhi, hlo⟩ : t.cur.hi = hi ∧ t.cur.lo = lo := by
    rw [← Prod.mk.injEq, first.hiLo_eq, wordHiLo_ok hE, hafter]
  refine ⟨⟨hhi, hlo⟩, fun u rs rt rd sa htu hu => ?_⟩
  obtain ⟨_, _, _, _, second⟩ := step_inv_safe htu hu
  have hir : t.idex.ir = s.ifid.ir := by rw [first.idex_eq]; rfl
  constructor
  · intro hd
    rw [second.aluOutput_eq, wordAlu_ok (hir ▸ hd), ← hhi]; rfl
  · intro hd
    rw [second.aluOutput_eq, wordAlu_ok (hir ▸ hd), ← hlo]; rfl

/-- Settles O52: a store writes memory in MemoryAccess, before its cycle's Fetch and before the next cycle's MemoryAccess. -/
theorem storeSeenByNextLoadAndFetch : Obligations.StoreSeenByNextLoadAndFetch := by
  intro s t i hst ht hwf hi hstore hregion
  obtain ⟨_, _, _, _, first⟩ := step_inv_safe hst ht
  have hwrite := first.access_store ((wordAccess_ok hi).trans ((accessOf_store_iff i).mpr hstore))
  have hread := memRead_memWrite hwf hregion hwrite
  refine ⟨fun hpc => first.ifid_ir (hpc ▸ hread), fun rs rt imm u htu hu hlw haddr => ?_⟩
  obtain ⟨_, _, _, _, second⟩ := step_inv_safe htu hu
  have hload : wordAccess t.exmem.ir = .load wordMask := by rw [first.exmem_passes.1, wordAccess_ok hlw]; rfl
  have haddress : t.exmem.aluOutput = s.exmem.aluOutput := by
    rw [first.aluOutput_eq, wordAlu_ok hlw, aluOf_of_access (by simp [accessOf]), haddr]
  obtain ⟨-, x, hx, hmemwb⟩ := second.access_load hload
  rw [first.cfg_eq, haddress, hread] at hx
  cases hx
  rw [hmemwb, and_wordMask]

/-! ## The bubbles after reset -/

/-- The word 0 is an SLL of register 0 by 0 (R68). -/
theorem decodeWord_zero : decodeWord 0 = .ok (.sll 0 0 0 0) := by decide

namespace Completes
variable {s s1 s2 s3 t : State} {w : Word} (c : Completes s s1 s2 s3 w t)
include c

/-- A bubble in Writeback writes register 0. -/
theorem bubble_written (h : s.memwb.ir = 0) :
    t.cur.read 0 = s.memwb.aluOutput ∧ (∀ r, r ≠ 0 → t.cur.read r = s.nxt.read r) := by
  have hd : decodeWord s.memwb.ir = .ok (.sll 0 0 0 0) := by rw [h]; exact decodeWord_zero
  have hdest : wordDestination s.cfg.wbMode s.memwb.ir = some 0 := wordDestination_ok hd _
  refine ⟨(c.read_cur_destination hdest).trans (wordWritten_ok hd), fun r hr => c.read_cur_other ?_⟩
  rw [hdest]
  exact fun e => hr (Option.some.inj e).symm

/-- A bubble in Execute has the value of its operand `b` as its result. -/
theorem bubble_result (h : s.idex.ir = 0) : t.exmem.aluOutput = s.idex.b := by
  have hd : decodeWord s.idex.ir = .ok (.sll 0 0 0 0) := by rw [h]; exact decodeWord_zero
  rw [c.aluOutput_eq, wordAlu_ok hd]
  exact BitVec.shiftLeft_zero _

end Completes

theorem step_bubble_retired {s t : State} (hst : step s = .next t) (h : s.memwb.ir = 0) : t.retired = s.retired + 1 := by
  rw [retiredCountsRetiringWords s t hst, h]; rfl

/-- Settles O53: the word 0 stands in MEM/WB in each of the four cycles. The results of the first three are 0; that of the fourth, which
Decode formed in the first cycle, is register 0 as it was. -/
theorem bubblesAfterReset : Obligations.BubblesAfterReset := by
  intro s s1 s2 s3 s4 hnxt hifid hidex hexmem hmemwb h1 h2 h3 h4 hsafe
  obtain ⟨_, _, _, _, c1⟩ := step_inv_safe h1 (step_next_safe h2)
  obtain ⟨_, _, _, _, c2⟩ := step_inv_safe h2 (step_next_safe h3)
  obtain ⟨_, _, _, _, c3⟩ := step_inv_safe h3 (step_next_safe h4)
  obtain ⟨_, _, _, _, c4⟩ := step_inv_safe h4 hsafe
  have hir1 : s1.memwb.ir = 0 := by rw [c1.memwb_passes.1, hexmem]; rfl
  have hir2 : s2.memwb.ir = 0 := by rw [c2.memwb_passes.1, c1.exmem_passes.1, hidex]; rfl
  have hidex1 : s1.idex.ir = 0 := by rw [c1.idex_eq, hifid]; rfl
  have hir3 : s3.memwb.ir = 0 := by rw [c3.memwb_passes.1, c2.exmem_passes.1, hidex1]
  obtain ⟨w1, o1⟩ := c1.bubble_written (by rw [hmemwb]; rfl)
  obtain ⟨w2, o2⟩ := c2.bubble_written hir1
  obtain ⟨w3, o3⟩ := c3.bubble_written hir2
  obtain ⟨w4, o4⟩ := c4.bubble_written hir3
  rw [hmemwb] at w1
  rw [c1.memwb_passes.2, hexmem] at w2
  rw [c2.memwb_passes.2, c1.bubble_result (by rw [hidex]; rfl), hidex] at w3
  rw [c3.memwb_passes.2, c2.bubble_result hidex1, c1.idex_eq, hifid] at w4
  have r1 := step_bubble_retired h1 (by rw [hmemwb]; rfl)
  have r2 := step_bubble_retired h2 hir1
  have r3 := step_bubble_retired h3 hir2
  have r4 := step_bubble_retired h4 hir3
  refine ⟨w1, w2, w3, w4, fun r hr => ?_, r1, by omega, by omega, by omega⟩
  rw [o4 r hr, c3.nxt_eq, o3 r hr, c2.nxt_eq, o2 r hr, c1.nxt_eq, o1 r hr, hnxt]

end Sys2Proof.Machine
end

section
/-! Reset, the image, and the host's moves (70_reset_and_hazards.md section 1, 40_pipeline.md section 8). -/

namespace Sys2Proof.Machine

open Sys2Proof.Claims

/-! ## The image in memory -/

/-- The address after a word's, where it does not run past the end of the address space. -/
theorem toNat_add_four {addr : Word} (h : addr.toNat + 4 < 2 ^ 32) : (addr + 4).toNat = addr.toNat + 4 := by
  rw [BitVec.toNat_add]; exact Nat.mod_eq_of_lt h

/-- Words loaded into a region that owns all their bytes stand at their addresses: each is written, and the ones after it leave it
alone. -/
theorem readWord_loadWords {regions : List Region} {r : Region} (hd : regionsPairwiseDisjoint regions = true) (hr : r ∈ regions)
    (words : List Word) {m : Memory} (hm : m.wf) {addr : Word} (hfirst : r.first.toNat ≤ addr.toNat)
    (hlast : addr.toNat + 4 * words.length ≤ r.last.toNat + 1) {k : Nat} (hk : k < words.length) :
    (loadWords regions m addr words).readWord (addr.toNat + 4 * k) = words[k] := by
  induction words generalizing m addr k with
  | nil => cases hk
  | cons w rest ih =>
    rw [List.length_cons] at hlast hk
    have hend := r.last.isLt
    have hown : owningRegion regions addr = some r := owningRegion_of_disjoint hd hr hfirst (by omega)
    simp only [loadWords, memWrite_inside hown m w (by omega)]
    cases k with
    | zero =>
      have hnext : (addr + 4).toNat = (addr.toNat + 4) % 2 ^ 32 := BitVec.toNat_add addr 4
      refine (Memory.readWord_congr fun j hj => ?_).trans (Memory.readWord_writeWord hm addr.toNat w)
      exact readByte_loadWords_other regions rest _ (addr + 4) (by omega) (by omega)
    | succ k =>
      have hnext := toNat_add_four (addr := addr) (by omega)
      have hrest := ih (Memory.wf_writeWord hm addr.toNat w) (addr := addr + 4) (by omega) (by omega) (k := k) (by omega)
      rw [hnext] at hrest
      rw [List.getElem_cons_succ, ← hrest]
      congr 1
      omega

theorem regionsPairwiseDisjoint_of_wellFormed {regions : List Region} (h : regionsWellFormed regions = true) :
    regionsPairwiseDisjoint regions = true := by
  simp only [regionsWellFormed, Bool.and_eq_true] at h
  exact h.1.2

/-- Settles O55: every byte of the image lies in the text region, which owns it because no two regions share a byte. -/
theorem resetLoadsTheImage : Obligations.ResetLoadsTheImage := by
  intro c d t h
  obtain ⟨hregions, hfits, rfl⟩ := resetWith_inv h
  refine ⟨fun k hk => ?_, fun a ha => readByte_afterReset_other d hfits ha⟩
  obtain ⟨r, hr, hbase, hlast⟩ := imageFits_region hfits
  have hd := regionsPairwiseDisjoint_of_wellFormed hregions
  have hend := r.last.isLt
  have hfirst : r.first.toNat ≤ c.textBase.toNat := by rw [hbase]
  have haddr : (c.textBase + BitVec.ofNat 32 (4 * k)).toNat = c.textBase.toNat + 4 * k := by
    rw [BitVec.toNat_add, BitVec.toNat_ofNat]; omega
  have hown : owningRegion c.regions (c.textBase + BitVec.ofNat 32 (4 * k)) = some r :=
    owningRegion_of_disjoint hd hr (by omega) (by omega)
  rw [memRead_inside hown _ (by omega), haddr]
  exact congrArg _ (readWord_loadWords hd hr c.image ⟨.nil, nofun⟩ hfirst hlast hk)

/-! ## The invariants at reset and across the host's moves -/

theorem afterReset_inv (c : Config) (d : List DiagEvent) : (State.afterReset c d).Inv where
  memoryCanonical := (loadWords_keeps c.regions c.image [] c.textBase).1 ⟨.nil, nofun⟩
  memoryInRegions := (loadWords_keeps c.regions c.image [] c.textBase).2 nofun
  betweenCycles := ⟨rfl, fun _ => rfl⟩

theorem afterReset_latchesProduced (c : Config) (d : List DiagEvent) : (State.afterReset c d).LatchesProduced where
  ifidRest := rfl
  idexImm := rfl
  idexAlu := rfl
  idexLmd := rfl
  exmemImm := rfl
  exmemLmd := rfl
  memwbImm := rfl

theorem afterReset_pcCounts (c : Config) (d : List DiagEvent) : (State.afterReset c d).PcCounts :=
  (BitVec.add_zero c.textBase).symm

/-- Without an image a reset loads nothing. -/
theorem afterReset_default : State.afterReset Config.default [] = State.reset := rfl

/-- Settles O43: `State.reset` is a state after reset, and every such state has the invariants. -/
theorem invariantAtReset : Obligations.InvariantAtReset := by
  rw [Obligations.InvariantAtReset, ← afterReset_default]
  exact ⟨afterReset_inv _ _, afterReset_latchesProduced _ _, afterReset_pcCounts _ _⟩

/-- A move that writes the two instances alike, or the run flag, and not the pc, keeps the invariants. -/
theorem keeps_invariants_of_frame {s t : State} (hframe : t = { s with cur := t.cur, nxt := t.nxt, running := t.running })
    (hpc : t.cur.pc = s.cur.pc) (heq : s.nxt = s.cur → t.nxt = t.cur) :
    (s.Inv → t.Inv) ∧ (s.LatchesProduced → t.LatchesProduced) ∧ (s.PcCounts → t.PcCounts) := by
  rw [hframe]
  refine ⟨fun h => ⟨h.memoryCanonical, h.memoryInRegions, h.betweenCycles.1, fun hs => heq (h.betweenCycles.2 hs)⟩,
    fun h => ⟨h.ifidRest, h.idexImm, h.idexAlu, h.idexLmd, h.exmemImm, h.exmemLmd, h.memwbImm⟩, fun h => hpc.trans h⟩

/-- Settles O46: a step by the statements on steps, a reset by what holds after any reset, and each write by its frame. -/
theorem hostKeepsInvariants : Obligations.HostKeepsInvariants := by
  intro op s t h
  have hs := hostMove_next_safe h
  simp only [hostMove, hs] at h
  cases op with
  | step => exact ⟨fun hi => stepKeepsInvariant s t hi h, fun hl => stepKeepsLatchesProduced s t hl h, step_pcCounts h⟩
  | reset =>
    obtain ⟨-, -, rfl⟩ := resetWith_inv h
    exact ⟨fun _ => afterReset_inv _ _, fun _ => afterReset_latchesProduced _ _, fun _ => afterReset_pcCounts _ _⟩
  | setRunning v => cases h; exact keeps_invariants_of_frame rfl rfl id
  | setReg r v => cases h; exact keeps_invariants_of_frame rfl rfl (congrArg (Arch.write · r v))
  | setHi v => cases h; exact keeps_invariants_of_frame rfl rfl (congrArg fun m : Arch => { m with hi := v })
  | setLo v => cases h; exact keeps_invariants_of_frame rfl rfl (congrArg fun m : Arch => { m with lo := v })

/-! ## What reset and the host's moves answer -/

section OfSafe
variable {s : State} (hs : s.faulted = none)
include hs

theorem hostMove_step : hostMove .step s = step s := by simp only [hostMove, hs]
theorem hostMove_reset : hostMove .reset s = resetWith s.cfg s.diag := by simp only [hostMove, hs]
theorem hostMove_setRunning (v : Bool) : hostMove (.setRunning v) s = .next (s.hostSetRunning v) := by simp only [hostMove, hs]
theorem hostMove_setReg (r : RegNum) (v : Word) : hostMove (.setReg r v) s = .next (s.hostSetReg r v) := by
  simp only [hostMove, hs]
theorem hostMove_setHi (v : Word) : hostMove (.setHi v) s = .next (s.hostSetHi v) := by simp only [hostMove, hs]
theorem hostMove_setLo (v : Word) : hostMove (.setLo v) s = .next (s.hostSetLo v) := by simp only [hostMove, hs]

end OfSafe

/-- Settles O54: the two checks of a reset, then the fields of the state after it. -/
theorem resetLeavesTheStatedValues : Obligations.ResetLeavesTheStatedValues := by
  refine ⟨fun s hs => ?_, rfl⟩
  rw [hostMove_reset hs]
  refine ⟨fun hr => by simp [resetWith, hr], fun hr hf => by simp [resetWith, hr, hf], fun hr hf => ?_⟩
  exact ⟨State.afterReset s.cfg s.diag, by simp [resetWith, hr, hf], Arch.read_atReset s.cfg, rfl, rfl, rfl, rfl, rfl, rfl, rfl, rfl,
    rfl, rfl, rfl, rfl, rfl, rfl⟩

/-- Settles O32: a recorded fault is the answer of a step, of every move, and so of every run that takes a step. -/
theorem faultedStateIsFinal : Obligations.FaultedStateIsFinal := by
  intro s f hf
  have hstep := step_faulted hf
  refine ⟨hstep, fun op => by simp only [hostMove, hf], fun n => ?_⟩
  have hcore : core.step s = .fault f := hstep
  simp only [Host.Core.run, hcore]

/-- Settles O57: a move of a state that has not faulted is its operation; a read of memory answers what `MemRead` answers. -/
theorem hostWritesBothInstances : Obligations.HostWritesBothInstances := by
  intro s r v b hs
  refine ⟨⟨s.hostSetReg r v, hostMove_setReg hs r v, Arch.read_write_same _ r v, Arch.read_write_same _ r v, fun q hq => ?_, rfl⟩,
    hostMove_setHi hs v, hostMove_setLo hs v, hostMove_setRunning hs b, hostMove_step hs, fun f hf => by simp [State.readMem, hf],
    fun w hw => by simp [State.readMem, hw]⟩
  exact ⟨Arch.read_write_other _ v hq, Arch.read_write_other _ v hq⟩

/-! ## The placed word -/

/-- `withFetchWord` of a whole word places it. -/
theorem withFetchWord_toNat (s : State) (w : Word) : s.withFetchWord 32 w.toNat = s.placeWord w := by
  rw [State.withFetchWord, tableWord, Nat.mod_eq_of_lt w.isLt, BitVec.ofNat_toNat, BitVec.setWidth_eq]

/-- Placing a word changes ID/EX and memory alone. -/
theorem placeWord_frame (s : State) (w : Word) :
    s.placeWord w = { s with idex := s.decodedLatch w (s.cur.pc + 4), mem := (s.placeWord w).mem } := by
  rw [State.placeWord]
  cases memWrite s.cfg.regions s.mem s.cur.pc w <;> rfl

/-- Settles O30: ID/EX as Decode would leave it, and memory by the three answers of the write at the pc. -/
theorem placedWordIsNext : Obligations.PlacedWordIsNext := by
  intro s w
  rw [withFetchWord_toNat]
  obtain ⟨hok, herror⟩ := placeWord_mem s w
  have hframe := placeWord_frame s w
  have hidex : (s.placeWord w).idex = s.decodedLatch w (s.cur.pc + 4) := by rw [hframe]
  refine ⟨hidex, decodeTableWord_toNat w, by rw [hidex]; exact hframe, hok, fun a ha => ?bytes,
    fun hnone => hok _ (memWrite_outside hnone _ w), fun r hr hpast => herror _ (memWrite_straddle hr _ w hpast),
    fun r hwf hr hfit => ?inside⟩
  case bytes =>
    cases hw : memWrite s.cfg.regions s.mem s.cur.pc w with
    | ok m => rw [hok m hw]; exact memWrite_other hw ha
    | error f => rw [herror f hw]
  case inside =>
    have hwrite := memWrite_inside hr s.mem w hfit
    exact memRead_memWrite hwf (by rw [hr]; rfl) (hok _ hwrite ▸ hwrite)

end Sys2Proof.Machine
end

section
/-! A step as `exec` of the decoded words (40_pipeline.md section 1), and the run loops as repeated steps (40_pipeline.md section 8). -/

namespace Sys2Proof.Machine

/-! ## A step from its stages -/

/-- Settles O29: a step goes one of three ways, and the states between its stages are those that `exec` answers. -/
theorem stepRunsTheDecodedInstructions : Obligations.StepRunsTheDecodedInstructions := by
  intro s s1 s2 iW iM hs hW hw hM hm
  have h1 : runStage .writeback s.memwb.ir s = .next s1 := (runStage_ok hW s).trans hw
  have h2 : runStage .memoryAccess s.exmem.ir s1 = .next s2 := (runStage_ok hM s1).trans hm
  obtain ⟨t, ht, hways⟩ := step_cases s hs
  rw [ht]
  refine ⟨fun f hf => ?memory, fun hsafe s3 iE hE he => ?rest⟩
  case memory =>
    rcases hways with ⟨u1, u2, u3, w, c⟩ | ⟨u1, u2, g, c⟩ | ⟨u1, u2, u3, g, c⟩
    all_goals
      obtain rfl : s1 = u1 := Host.Outcome.next.inj (h1.symm.trans c.writeback)
      obtain rfl : s2 = u2 := Host.Outcome.next.inj (h2.symm.trans c.memoryAccess)
    · have := c.safe.1; rw [hf] at this; cases this
    · rw [c.result]; rfl
    · have := c.safe.1; rw [hf] at this; cases this
  case rest =>
    have h3 : runStage .execute s.idex.ir s2 = .next s3 := (runStage_ok hE s2).trans he
    rcases hways with ⟨u1, u2, u3, w, c⟩ | ⟨u1, u2, g, c⟩ | ⟨u1, u2, u3, g, c⟩
    all_goals
      obtain rfl : s1 = u1 := Host.Outcome.next.inj (h1.symm.trans c.writeback)
      obtain rfl : s2 = u2 := Host.Outcome.next.inj (h2.symm.trans c.memoryAccess)
    · obtain rfl : s3 = u3 := Host.Outcome.next.inj (h3.symm.trans c.execute)
      have hcycles : s3.cycles = s.cycles := by rw [c.s3_frame]
      refine ⟨fun x hx => ?_, fun f hf => ?_⟩
      · rw [c.fetch] at hx; cases hx
        rw [c.result, ← hcycles]; rfl
      · rw [c.fetch] at hf; cases hf
    · have := c.faulted; rw [hsafe] at this; cases this
    · obtain rfl : s3 = u3 := Host.Outcome.next.inj (h3.symm.trans c.execute)
      refine ⟨fun x hx => ?_, fun f hf => ?_⟩
      · rw [c.fetch] at hx; cases hx
      · rw [c.fetch] at hf; cases hf
        rw [c.result]; rfl

/-! ## The run loops -/

theorem mayRun_eq_false_iff (s : State) : s.mayRun = false ↔ s.running = false ∨ s.faulted ≠ none := by
  rw [← Bool.not_eq_true, s.mayRun_iff, not_and_or, Bool.not_eq_true]

theorem runCycles_of_stopped {s : State} (h : s.mayRun = false) (n : Nat) : runCycles n s = .next s := by
  cases n with
  | zero => rfl
  | succ n => simp [runCycles, h]

theorem runCycles_succ {s t : State} (h : s.mayRun = true) (hst : step s = .next t) (n : Nat) :
    runCycles (n + 1) s = runCycles n t := by simp [runCycles, h, hst]

/-- A state that steps and whose flag is set may run. -/
theorem mayRun_of_step {s t : State} (hr : s.running = true) (hst : step s = .next t) : s.mayRun = true :=
  s.mayRun_iff.mpr ⟨hr, step_next_safe hst⟩

theorem step_running {s t : State} (hst : step s = .next t) : t.running = s.running := (stepKeepsConfigAndRunFlag s t hst).2

/-- A state that may run takes a step. -/
theorem exists_step_of_mayRun {s : State} (h : s.mayRun = true) : ∃ t, step s = .next t :=
  nothingStopsButAFault.2 s (s.mayRun_iff.mp h).2

/-- A safe run is that many cycles of either loop. -/
theorem runCycles_of_safeRun {n : Nat} {s t : State} (hr : s.running = true) (h : SafeRun n s t) :
    runCycles n s = .next t ∧ Host.Core.run core n s = .next t := by
  induction h with
  | done s _ => exact ⟨rfl, rfl⟩
  | step n s t u hst _ _ ih =>
    rw [runCycles_succ (mayRun_of_step hr hst) hst, run_succ_next hst]
    exact ih ((step_running hst).trans hr)

/-- A step that records a fault after a safe run ends both loops. -/
theorem run_ends_of_fault {n : Nat} {s t u : State} (hr : s.running = true) (h : SafeRun n s t) (htu : step t = .next u)
    (hu : u.faulted ≠ none) (k : Nat) : runCycles (n + 1 + k) s = .next u ∧ RunsToCompletion s u := by
  have hstopped : u.mayRun = false := (mayRun_eq_false_iff u).mpr (.inr hu)
  induction h with
  | done s _ =>
    have hmay := mayRun_of_step hr htu
    rw [Nat.add_right_comm, runCycles_succ hmay htu]
    exact ⟨runCycles_of_stopped hstopped _, .step s u u hmay htu (.stopped u hstopped)⟩
  | step n s v t hsv _ _ ih =>
    have hmay := mayRun_of_step hr hsv
    obtain ⟨hrun, hcompletes⟩ := ih ((step_running hsv).trans hr) htu
    rw [show n + 1 + 1 + k = n + 1 + k + 1 by omega, runCycles_succ hmay hsv]
    exact ⟨hrun, .step s v u hmay hsv hcompletes⟩

theorem runCycles_answers (n : Nat) (s : State) : ∃ t, runCycles n s = .next t := by
  induction n generalizing s with
  | zero => exact ⟨s, rfl⟩
  | succ n ih =>
    cases hmay : s.mayRun with
    | false => exact ⟨s, runCycles_of_stopped hmay _⟩
    | true =>
      obtain ⟨t, hst⟩ := exists_step_of_mayRun hmay
      rw [runCycles_succ hmay hst]
      exact ih t

/-- `runToCompletion` ends in a state that may not run, and `runCycles` of the number of its steps ends there. -/
theorem runsToCompletion_runCycles {s t : State} (h : RunsToCompletion s t) :
    t.mayRun = false ∧ ∃ n, runCycles n s = .next t := by
  induction h with
  | stopped s hs => exact ⟨hs, 0, rfl⟩
  | step s t u hmay hst _ ih =>
    obtain ⟨hu, n, hn⟩ := ih
    exact ⟨hu, n + 1, (runCycles_succ hmay hst n).trans hn⟩

theorem runsToCompletion_of_runCycles {n : Nat} {s t : State} (h : runCycles n s = .next t) (ht : t.mayRun = false) :
    RunsToCompletion s t := by
  induction n generalizing s with
  | zero => cases h; exact .stopped _ ht
  | succ n ih =>
    cases hmay : s.mayRun with
    | false =>
      rw [runCycles_of_stopped hmay] at h; cases h
      exact .stopped _ ht
    | true =>
      obtain ⟨u, hsu⟩ := exists_step_of_mayRun hmay
      rw [runCycles_succ hmay hsu] at h
      exact .step s u t hmay hsu (ih h)

theorem runsToCompletion_unique {s t t' : State} (h : RunsToCompletion s t) (h' : RunsToCompletion s t') : t = t' := by
  induction h with
  | stopped s hs =>
    cases h' with
    | stopped => rfl
    | step _ _ _ hmay => rw [hs] at hmay; cases hmay
  | step s u t hmay hsu _ ih =>
    cases h' with
    | stopped _ hs => rw [hs] at hmay; cases hmay
    | step _ v _ _ hsv hv =>
      rw [hsu] at hsv; cases hsv
      exact ih hv

theorem runsToCompletion_running {s t : State} (h : RunsToCompletion s t) : t.running = s.running := by
  induction h with
  | stopped => rfl
  | step s t u _ hst _ ih => exact ih.trans (step_running hst)

/-- Settles O58: each clause by induction on the cycles or on the run, from what one step does to the flag and the fault record. -/
theorem runCyclesIsRepeatedStep : Obligations.RunCyclesIsRepeatedStep := by
  refine ⟨fun n s hs => runCycles_of_stopped ((mayRun_eq_false_iff s).mpr hs) n, fun n s t hr h => runCycles_of_safeRun hr h,
    fun n k s t u hr h htu hu => run_ends_of_fault hr h htu hu k, runCycles_answers, fun s t => ⟨fun h => ?_, fun ⟨n, hn, ht⟩ => ?_⟩,
    fun s t t' => runsToCompletion_unique, fun s t hr h => ?_⟩
  · obtain ⟨ht, n, hn⟩ := runsToCompletion_runCycles h
    exact ⟨n, hn, (mayRun_eq_false_iff t).mp ht⟩
  · exact runsToCompletion_of_runCycles hn ((mayRun_eq_false_iff t).mpr ht)
  · have hrunning := (runsToCompletion_running h).trans hr
    refine ⟨hrunning, ((mayRun_eq_false_iff t).mp (runsToCompletion_runCycles h).1).resolve_left ?_⟩
    rw [hrunning]; nofun

end Sys2Proof.Machine
end

section
/-! The instructions stage by stage, in the words of the claims (42_hilo.md to 46_control.md). -/

namespace Sys2Proof.Machine

open Sys2Proof.Claims

/-! ## The shapes, in the words of the claims -/

theorem writesBackNoDest_of_noDest {i : Instr} {d : RegNum}
    (h : ∀ s, s.stage = .writeback → exec i s = .next (s.writebackNoDest d)) : WritesBackNoDest i d := by
  intro s hs
  constructor
  · intro hm; rw [h s hs, writebackNoDest_skipNoDest hm]; rfl
  · intro hm; rw [h s hs, writebackNoDest_literal hm]; rfl

section EffectOnly
variable {i : Instr} {d : RegNum} {e : State → State} (h : ∀ s, exec i s = effectOnly d e s)
include h

theorem passesMemory_of_effectOnly : PassesMemory i := fun s hs => by rw [h, effectOnly_memoryAccess hs]; rfl

theorem writesBackNoDest_of_effectOnly : WritesBackNoDest i d :=
  writesBackNoDest_of_noDest fun s hs => by rw [h, effectOnly_writeback hs]

end EffectOnly

theorem onlyRetires_of_effectOnly {i : Instr} {d : RegNum} (h : ∀ s, exec i s = effectOnly d id s) : OnlyRetires i d :=
  ⟨fun s hs => by rw [h, effectOnly_execute hs]; rfl, passesMemory_of_effectOnly h, writesBackNoDest_of_effectOnly h⟩

section LoadTo
variable {i : Instr} {d : RegNum} {mask : Word} {v : State → Word} (h : ∀ s, exec i s = loadTo d mask v s)
include h

theorem executesTo_of_loadTo : ExecutesTo i v := fun s hs => by rw [h, loadTo_execute hs]; rfl

theorem loadsMasked_of_loadTo {masked : Word → Word} (hm : ∀ w, w &&& mask = masked w) : LoadsMasked i masked := by
  intro s hs
  rw [h, loadTo_memoryAccess hs]
  constructor
  · intro w hw; rw [← hm]; exact congrArg _ (accessAs_load_ok hw)
  · intro f hf; exact congrArg _ (accessAs_load_error hf)

theorem writesBack_of_loadTo : WritesBack i d fun s => s.memwb.lmd := fun s hs => by rw [h, loadTo_writeback hs]; rfl

end LoadTo

section StoreFrom
variable {i : Instr} {d : RegNum} {v : State → Word} (h : ∀ s, exec i s = storeFrom d v s)
include h

theorem executesTo_of_storeFrom : ExecutesTo i v := fun s hs => by rw [h, storeFrom_execute hs]; rfl

theorem storesWord_of_storeFrom : StoresWord i := by
  intro s hs
  rw [h, storeFrom_memoryAccess hs]
  constructor
  · intro m hm; exact congrArg _ (accessAs_store_ok hm)
  · intro f hf; exact congrArg _ (accessAs_store_error hf)

theorem writesBackNoDest_of_storeFrom : WritesBackNoDest i d :=
  writesBackNoDest_of_noDest fun s hs => by rw [h, storeFrom_writeback hs]

end StoreFrom

/-- Execute of an instruction whose result at `s` is `x`. -/
theorem exec_of_executesTo {i : Instr} {v : State → Word} {s : State} {x : Word} (h : ExecutesTo i v) (hs : s.stage = .execute)
    (hx : v s = x) : exec i s = .next { s with exmem := { s.idex with aluOutput := x, lmd := 0 } } := by rw [h s hs, hx]

/-- Execute of a divide by a divisor other than 0, whose remainder and quotient are `x` and `y`. -/
theorem exec_of_divides {i : Instr} {hi lo : State → Word} {s : State} {x y : Word} (h : Divides i hi lo) (hs : s.stage = .execute)
    (hb : s.idex.b ≠ 0) (hx : hi s = x) (hy : lo s = y) :
    exec i s = .next { s with
      exmem := { s.idex with aluOutput := 0, lmd := 0 }
      nxt := { s.nxt with hi := x, lo := y } } := by rw [(h s hs).2 hb, hx, hy]

/-! ## The statements -/

/-- Settles O11: the three have the shape `resultTo`; both operand forms are exact on an immediate that Decode extended. -/
theorem addAddiLuiComputeSilently : Obligations.AddAddiLuiComputeSilently := by
  refine ⟨fun rs rt rd sa => computesInto_of_resultTo (exec_add rs rt rd sa), fun rs rt imm => ?_⟩
  have haddi := computesInto_of_resultTo (exec_addi rs rt imm)
  have hlui := computesInto_of_resultTo (exec_lui rs rt imm)
  refine ⟨haddi.2.1, haddi.2.2, hlui.2.1, hlui.2.2, haddi.1, hlui.1, fun s v hs himm => ⟨?_, ?_⟩⟩
  · exact exec_of_executesTo haddi.1 hs (by rw [himm, reextend_signExtend, BitVec.add_comm])
  · exact exec_of_executesTo hlui.1 hs (by rw [himm, upperImmediate_signExtend])

/-- Settles O12: the shape `resultTo`, with the comparison under the reading configured. -/
theorem sltiUnderBothReadings : Obligations.SltiUnderBothReadings := by
  intro rs rt imm
  obtain ⟨hexecute, hmemory, hwriteback⟩ := computesInto_of_resultTo (exec_slti rs rt imm)
  refine ⟨hmemory, hwriteback, fun s hs => ⟨fun hu => ?_, fun hu => ?_⟩⟩
  · exact exec_of_executesTo hexecute hs (by rw [hu, boolWord_lessThan_unsigned])
  · exact exec_of_executesTo hexecute hs (by rw [hu, boolWord_lessThan_signed])

/-- Settles O13: both have the shape `resultTo`. -/
theorem moveFromHiLoComputesIntoRd : Obligations.MoveFromHiLoComputesIntoRd := fun rs rt rd sa =>
  ⟨computesInto_of_resultTo (exec_mfhi rs rt rd sa), computesInto_of_resultTo (exec_mflo rs rt rd sa)⟩

/-- Settles O14: both have the shape `effectOnly`; for Execute the statement on HI and LO has it. -/
theorem moveToHiLoWritesHiLo : Obligations.MoveToHiLoWritesHiLo := by
  intro rs rt rd sa
  obtain ⟨-, ⟨hmthi, hmtlo⟩, -⟩ := hiLoReachedByEightInstructionsAndHost.1 rs rt rd sa
  exact ⟨⟨hmthi, passesMemory_of_effectOnly (exec_mthi rs rt rd sa), writesBackNoDest_of_effectOnly (exec_mthi rs rt rd sa)⟩,
    ⟨hmtlo, passesMemory_of_effectOnly (exec_mtlo rs rt rd sa), writesBackNoDest_of_effectOnly (exec_mtlo rs rt rd sa)⟩⟩

/-- Settles O15: both have the shape `effectOnly`, with the effect `writeProduct`; for Execute the statement on HI and LO has it. -/
theorem multiplyIsUnsigned : Obligations.MultiplyIsUnsigned := by
  intro rs rt rd sa
  obtain ⟨-, -, ⟨hmult, hmultu⟩, -⟩ := hiLoReachedByEightInstructionsAndHost.1 rs rt rd sa
  exact ⟨⟨hmult, passesMemory_of_effectOnly (exec_mult rs rt rd sa), writesBackNoDest_of_effectOnly (exec_mult rs rt rd sa)⟩,
    ⟨hmultu, passesMemory_of_effectOnly (exec_multu rs rt rd sa), writesBackNoDest_of_effectOnly (exec_multu rs rt rd sa)⟩⟩

/-- Settles O16: DIVU has the shape `effectOnly`, with the effect `writeQuotient` read unsigned. -/
theorem divideUnsigned : Obligations.DivideUnsigned := fun rs rt rd sa =>
  ⟨divu_divides rs rt rd sa, passesMemory_of_effectOnly (exec_divu rs rt rd sa), writesBackNoDest_of_effectOnly (exec_divu rs rt rd sa)⟩

/-- Settles O17: DIV has the shape `effectOnly`, with the effect `writeQuotient` under the reading configured; the corner is a closed
computation. -/
theorem divideUnderBothReadings : Obligations.DivideUnderBothReadings := by
  intro rs rt rd sa
  refine ⟨passesMemory_of_effectOnly (exec_div rs rt rd sa), writesBackNoDest_of_effectOnly (exec_div rs rt rd sa), fun s hs => ?_⟩
  have hdiv := div_divides rs rt rd sa
  refine ⟨(hdiv s hs).1, fun hb hc => exec_of_divides hdiv hs hb ?_ ?_, fun hb hc => exec_of_divides hdiv hs hb ?_ ?_,
    fun ha hb hc => exec_of_divides hdiv hs (by rw [hb]; decide) ?_ ?_⟩
  · rw [hc, remainder_unsigned]
  · rw [hc, quotient_unsigned]
  · rw [hc, remainder_signed]
  · rw [hc]; rfl
  · rw [hc, ha, hb]; decide
  · rw [hc, ha, hb]; decide

/-- Settles O18: the three have the shape `loadTo`, whose masks keep the low bits. -/
theorem loadsKeepLowBits : Obligations.LoadsKeepLowBits := fun rs rt imm =>
  ⟨⟨executesTo_of_loadTo (exec_lb rs rt imm), loadsMasked_of_loadTo (exec_lb rs rt imm) and_byteMask,
      writesBack_of_loadTo (exec_lb rs rt imm)⟩,
    ⟨executesTo_of_loadTo (exec_lh rs rt imm), loadsMasked_of_loadTo (exec_lh rs rt imm) and_halfMask,
      writesBack_of_loadTo (exec_lh rs rt imm)⟩,
    ⟨executesTo_of_loadTo (exec_lw rs rt imm), loadsMasked_of_loadTo (exec_lw rs rt imm) and_wordMask,
      writesBack_of_loadTo (exec_lw rs rt imm)⟩⟩

/-- Settles O19: the three have the shape `storeFrom`, which stores the whole of `b`. -/
theorem storesWriteTheWholeWord : Obligations.StoresWriteTheWholeWord := fun rs rt imm =>
  ⟨⟨executesTo_of_storeFrom (exec_sb rs rt imm), storesWord_of_storeFrom (exec_sb rs rt imm),
      writesBackNoDest_of_storeFrom (exec_sb rs rt imm)⟩,
    ⟨executesTo_of_storeFrom (exec_sh rs rt imm), storesWord_of_storeFrom (exec_sh rs rt imm),
      writesBackNoDest_of_storeFrom (exec_sh rs rt imm)⟩,
    ⟨executesTo_of_storeFrom (exec_sw rs rt imm), storesWord_of_storeFrom (exec_sw rs rt imm),
      writesBackNoDest_of_storeFrom (exec_sw rs rt imm)⟩⟩

/-- Settles O20: all eleven have the shape `effectOnly` without an effect. -/
theorem controlWordsOnlyRetire : Obligations.ControlWordsOnlyRetire := by
  refine ⟨fun rs rt rd sa => ⟨?_, ?_⟩, fun rs imm => ⟨?_, ?_⟩, fun rs rt imm => ⟨?_, ?_, ?_, ?_, ?_⟩, fun target => ⟨?_, ?_⟩⟩
  all_goals exact onlyRetires_of_effectOnly fun _ => rfl

/-- Under opcode 0x01 the instruction, whatever its row, does nothing but retire. -/
theorem exec_decodeRegimm (w : Word) (s : State) : exec (decodeRegimm w) s = effectOnly (rtField w) id s := by
  by_cases h0 : rtField w = 0#5
  · rw [decodeRegimm_bltz h0, h0]; rfl
  · by_cases h1 : rtField w = 1#5
    · rw [decodeRegimm_bgez h1, h1]; rfl
    · rw [decodeRegimm_other h0 h1]; rfl

/-- Settles O21: the two instructions have the shape `effectOnly` without an effect, and differ in the destination field alone, which
only Writeback under `literal` reads. -/
theorem regimmIgnoresRt : Obligations.RegimmIgnoresRt := by
  intro w w' hw hw'
  have he := exec_decodeRegimm w
  have he' := exec_decodeRegimm w'
  refine ⟨decodeRegimm w, decodeRegimm w', decodeWord_regimm hw, decodeWord_regimm hw', onlyRetires_of_effectOnly he,
    onlyRetires_of_effectOnly he', fun s hs => ?_, fun s hs hm => ?_⟩
  · rw [he, he']
    cases hstage : s.stage with
    | execute => rw [effectOnly_execute hstage, effectOnly_execute hstage]
    | memoryAccess => rw [effectOnly_memoryAccess hstage, effectOnly_memoryAccess hstage]
    | writeback =>
      have hmode : s.cfg.wbMode = .skipNoDest := by simpa [hstage] using hs
      rw [effectOnly_writeback hstage, effectOnly_writeback hstage, writebackNoDest_skipNoDest hmode, writebackNoDest_skipNoDest hmode]
  · rw [he, he', effectOnly_writeback hs, effectOnly_writeback hs, writebackNoDest_literal hm, writebackNoDest_literal hm]
    refine ⟨_, _, rfl, rfl, Arch.read_write_same _ _ _, Arch.read_write_same _ _ _, fun r hr hr' => ?_, rfl⟩
    exact (Arch.read_write_other _ _ hr).trans (Arch.read_write_other _ _ hr').symm

/-- Settles O22: the frames of Execute and MemoryAccess, and nothing in Writeback. -/
theorem syscallUpdatesNothing : Obligations.SyscallUpdatesNothing := by
  intro code
  refine ⟨fun s hs => ?_, fun s hs => ?_, fun s hs => ?_⟩
  · rw [exec_syscall, stageWork_execute hs]; rfl
  · rw [exec_syscall, stageWork_memoryAccess hs]; rfl
  · rw [exec_syscall, stageWork_writeback hs]; rfl

end Sys2Proof.Machine
end

section
/-! Which fields of a word its instruction uses (30_encoding.md R64): words that agree in the used bits decode to instructions that differ
in ignored fields alone, and those work alike. -/

namespace Sys2Proof.Machine

open Sys2Proof.Claims

/-! ## The instruction of the same row with the fields of another word -/

/-- A register-format instruction with the fields of a word. -/
def fitRegister (w : Word) (i : RegNum → RegNum → RegNum → ShiftAmount → Instr) : Instr :=
  i (rsField w) (rtField w) (rdField w) (saField w)

/-- An instruction of rs, rt and imm16 with the fields of a word. -/
def fitImmediate (w : Word) (i : RegNum → RegNum → Imm16 → Instr) : Instr := i (rsField w) (rtField w) (immField w)

/-- The instruction of a row, under opcode 0x01 of its three rows, with the fields of a word. -/
def refit (w : Word) : Instr → Instr
  | .sll .. => fitRegister w .sll | .srl .. => fitRegister w .srl | .sra .. => fitRegister w .sra
  | .jr .. => fitRegister w .jr | .jalr .. => fitRegister w .jalr | .syscall _ => .syscall (codeField w)
  | .mfhi .. => fitRegister w .mfhi | .mthi .. => fitRegister w .mthi
  | .mflo .. => fitRegister w .mflo | .mtlo .. => fitRegister w .mtlo
  | .mult .. => fitRegister w .mult | .multu .. => fitRegister w .multu
  | .div .. => fitRegister w .div | .divu .. => fitRegister w .divu
  | .add .. => fitRegister w .add | .addu .. => fitRegister w .addu | .sub .. => fitRegister w .sub
  | .subu .. => fitRegister w .subu | .and .. => fitRegister w .and | .or .. => fitRegister w .or
  | .xor .. => fitRegister w .xor | .nor .. => fitRegister w .nor | .slt .. => fitRegister w .slt
  | .bltz .. | .bgez .. | .regimmOther .. => decodeRegimm w
  | .j _ => .j (targetField w) | .jal _ => .jal (targetField w)
  | .beq .. => fitImmediate w .beq | .bne .. => fitImmediate w .bne | .blez .. => fitImmediate w .blez
  | .bgtz .. => fitImmediate w .bgtz | .addi .. => fitImmediate w .addi | .addiu .. => fitImmediate w .addiu
  | .slti .. => fitImmediate w .slti | .andi .. => fitImmediate w .andi | .ori .. => fitImmediate w .ori
  | .xori .. => fitImmediate w .xori | .lui .. => fitImmediate w .lui | .lb .. => fitImmediate w .lb
  | .lh .. => fitImmediate w .lh | .lw .. => fitImmediate w .lw | .sb .. => fitImmediate w .sb
  | .sh .. => fitImmediate w .sh | .sw .. => fitImmediate w .sw

theorem refit_decodeRegimm (w w' : Word) : refit w' (decodeRegimm w) = decodeRegimm w' := by
  by_cases h0 : rtField w = 0#5
  · rw [decodeRegimm_bltz h0, refit]
  · by_cases h1 : rtField w = 1#5
    · rw [decodeRegimm_bgez h1, refit]
    · rw [decodeRegimm_other h0 h1, refit]

/-- The opcode, and under opcode 0 the function code, decide the row alone. -/
theorem decodeWord_refit {w w' : Word} {i : Instr} (h : decodeWord w = .ok i) (hop : opField w' = opField w)
    (hfunct : opField w = 0#6 → functField w' = functField w) : decodeWord w' = .ok (refit w' i) := by
  unfold decodeWord at h
  split at h
  case h_1 hw =>
    rw [decodeWord_register (hop.trans hw)]
    have hf := hfunct hw
    unfold decodeRegister at h
    split at h
    case h_24 => cases h
    all_goals
      next hf' =>
      cases h
      rw [decodeRegister, hf, hf']; rfl
  case h_2 hw => cases h; rw [decodeWord_regimm (hop.trans hw), refit_decodeRegimm]
  case h_22 => cases h
  all_goals
    next hw =>
    cases h
    rw [decodeWord, hop, hw]; rfl

/-- An instruction has the fields of the word it is decoded from. -/
theorem refit_self {w : Word} {i : Instr} (h : decodeWord w = .ok i) : refit w i = i :=
  Except.ok.inj ((decodeWord_refit h rfl fun _ => rfl).symm.trans h)

theorem tableRow_refit {w w' : Word} {i : Instr} (h : decodeWord w = .ok i) (hop : opField w ≠ 1#6) :
    tableRow (refit w' i) = tableRow i := by
  have hw := (encodeOfDecode w i h).1
  cases i with
  | bltz | bgez | regimmOther => exact absurd (by rw [← hw]; simp [encode]) hop
  | _ => rfl

/-! ## Fields from used bits -/

/-- A field whose bits a mask covers is fixed by the bits under the mask. -/
theorem field_of_masked {w w' m : Word} (h : w' &&& m = w &&& m) (k n : Nat) (hm : m.extractLsb' k n = BitVec.allOnes n) :
    w'.extractLsb' k n = w.extractLsb' k n := by
  have he := congrArg (BitVec.extractLsb' k n) h
  simpa [BitVec.extractLsb'_and, hm] using he

/-- The opcode is always used. -/
theorem opField_of_used {w w' : Word} {mode : WbMode} {i : Instr} (h : w' &&& usedBits mode i = w &&& usedBits mode i) :
    opField w' = opField w :=
  field_of_masked h 26 6 (by cases i <;> cases mode <;> simp only [usedBits] <;> decide)

/-- The function code is used where the opcode is 0. -/
theorem functField_of_used {w w' : Word} {mode : WbMode} {i : Instr} (hi : decodeWord w = .ok i)
    (h : w' &&& usedBits mode i = w &&& usedBits mode i) (hop : opField w = 0#6) : functField w' = functField w := by
  rw [← (encodeOfDecode w i hi).1] at hop
  refine field_of_masked h 0 6 ?_
  cases i with
  | bltz | bgez | regimmOther | beq | bne | blez | bgtz | addi | addiu | slti | andi | ori | xori | lui | lb | lh | lw | sb | sh
  | sw => rw [encode, opField_immediateWord] at hop; exact absurd hop (by decide)
  | j | jal => rw [encode, opField_jumpWord] at hop; exact absurd hop (by decide)
  | _ => cases mode <;> simp only [usedBits] <;> decide

/-! ## Instructions that work alike -/

/-- Two instructions, with the words `w` and `w'`, that compute alike from what Decode forms of these words, make no access, and write and
retire alike. -/
structure WorkAlike (c : Config) (w w' : Word) (i i' : Instr) : Prop where
  noAccess    : accessOf i = .none ∧ accessOf i' = .none
  result      : ∀ (s : State) (pc : Word) (m : Arch), aluOf c i' (s.decodedLatch w' pc) m = aluOf c i (s.decodedLatch w pc) m
  hiLo        : ∀ (m : Arch) (hi lo : Word), hiLoAfter c i' (m.read (rsField w')) (m.read (rtField w')) hi lo =
                  hiLoAfter c i (m.read (rsField w)) (m.read (rtField w)) hi lo
  divides     : ∀ m : Arch, (isDivide i' = true ∧ m.read (rtField w') = 0) ↔ (isDivide i = true ∧ m.read (rtField w) = 0)
  destination : destination c.wbMode i' = destination c.wbMode i
  retires     : retiresInstr i' = retiresInstr i

variable {c : Config} {w w' : Word}

theorem isDivide_eq_false {i : Instr} (h : writesHiLo i = false) : isDivide i = false := by
  cases i with
  | div | divu => cases h
  | _ => rfl

/-- Instructions that write neither HI nor LO. -/
theorem workAlike_of_result {i i' : Instr} (hacc : accessOf i = .none ∧ accessOf i' = .none)
    (hw : writesHiLo i = false ∧ writesHiLo i' = false)
    (hresult : ∀ (s : State) (pc : Word) (m : Arch), aluOf c i' (s.decodedLatch w' pc) m = aluOf c i (s.decodedLatch w pc) m)
    (hdest : destination c.wbMode i' = destination c.wbMode i) (hret : retiresInstr i' = retiresInstr i) :
    WorkAlike c w w' i i' where
  noAccess := hacc
  result := hresult
  hiLo m hi lo := by rw [hiLoAfter_of_not_writesHiLo hw.1, hiLoAfter_of_not_writesHiLo hw.2]
  divides m := by simp [isDivide_eq_false hw.1, isDivide_eq_false hw.2]
  destination := hdest
  retires := hret

/-- The destination of an instruction without one depends on its field under `literal` alone. -/
theorem noDest_congr {mode : WbMode} {d d' : RegNum} (h : mode = .literal → d' = d) :
    (if mode = .literal then some d' else none) = if mode = .literal then some d else none :=
  ite_congr rfl (fun hm => congrArg some (h hm)) fun _ => rfl

/-- What the three rows of opcode 0x01 have in common. -/
theorem decodeRegimm_kind (w : Word) :
    accessOf (decodeRegimm w) = .none ∧ writesHiLo (decodeRegimm w) = false ∧ retiresInstr (decodeRegimm w) = true ∧
      ∀ mode, destination mode (decodeRegimm w) = if mode = .literal then some (rtField w) else none := by
  by_cases h0 : rtField w = 0#5
  · rw [decodeRegimm_bltz h0, h0]; exact ⟨rfl, rfl, rfl, fun _ => rfl⟩
  · by_cases h1 : rtField w = 1#5
    · rw [decodeRegimm_bgez h1, h1]; exact ⟨rfl, rfl, rfl, fun _ => rfl⟩
    · rw [decodeRegimm_other h0 h1]; exact ⟨rfl, rfl, rfl, fun _ => rfl⟩

/-- Bits 20:16 of a word, read from the target field (R144, R145). -/
theorem extract_targetField (w : Word) : (targetField w).extractLsb' 16 5 = rtField w := by
  apply BitVec.eq_of_getLsbD_eq; intro i hi; interval_cases i <;> simp [targetField, rtField]

/-- Words that agree in the bits their instruction uses are equal, or their instructions work alike. -/
theorem refit_workAlike (i : Instr) (h : w' &&& usedBits c.wbMode i = w &&& usedBits c.wbMode i) :
    w' = w ∨ WorkAlike c w w' (refit w i) (refit w' i) := by
  cases i with
  | sll | srl | sra =>
    have h : w' &&& 0xFC1FFFFF#32 = w &&& 0xFC1FFFFF#32 := h
    have hrt : rtField w' = rtField w := field_of_masked h 16 5 (by decide)
    have hrd : rdField w' = rdField w := field_of_masked h 11 5 (by decide)
    have hsa : saField w' = saField w := field_of_masked h 6 5 (by decide)
    refine .inr (workAlike_of_result ⟨rfl, rfl⟩ ⟨rfl, rfl⟩ (fun s pc m => ?_) ?_ rfl)
    · simp [refit, fitRegister, aluOf, State.decodedLatch, hrt, hsa]
    · simp [refit, fitRegister, destination, hrd]
  | add | addu | sub | subu | and | or | xor | nor | slt =>
    have h : w' &&& 0xFFFFF83F#32 = w &&& 0xFFFFF83F#32 := h
    have hrs : rsField w' = rsField w := field_of_masked h 21 5 (by decide)
    have hrt : rtField w' = rtField w := field_of_masked h 16 5 (by decide)
    have hrd : rdField w' = rdField w := field_of_masked h 11 5 (by decide)
    refine .inr (workAlike_of_result ⟨rfl, rfl⟩ ⟨rfl, rfl⟩ (fun s pc m => ?_) ?_ rfl)
    · simp [refit, fitRegister, aluOf, State.decodedLatch, hrs, hrt]
    · simp [refit, fitRegister, destination, hrd]
  | mfhi | mflo =>
    have h : w' &&& 0xFC00F83F#32 = w &&& 0xFC00F83F#32 := h
    have hrd : rdField w' = rdField w := field_of_masked h 11 5 (by decide)
    refine .inr (workAlike_of_result ⟨rfl, rfl⟩ ⟨rfl, rfl⟩ (fun s pc m => rfl) ?_ rfl)
    simp [refit, fitRegister, destination, hrd]
  | lui =>
    have h : w' &&& 0xFC1FFFFF#32 = w &&& 0xFC1FFFFF#32 := h
    have hrt : rtField w' = rtField w := field_of_masked h 16 5 (by decide)
    have himm : immField w' = immField w := field_of_masked h 0 16 (by decide)
    refine .inr (workAlike_of_result ⟨rfl, rfl⟩ ⟨rfl, rfl⟩ (fun s pc m => ?_) ?_ rfl)
    · simp [refit, fitImmediate, aluOf, State.decodedLatch, himm]
    · simp [refit, fitImmediate, destination, hrt]
  | syscall => exact .inr (workAlike_of_result ⟨rfl, rfl⟩ ⟨rfl, rfl⟩ (fun _ _ _ => rfl) rfl rfl)
  | addi | addiu | slti | andi | ori | xori | lb | lh | lw | sb | sh | sw =>
    have h : w' &&& BitVec.allOnes 32 = w &&& BitVec.allOnes 32 := h
    rw [BitVec.and_allOnes, BitVec.and_allOnes] at h
    exact .inl h
  | jr | jalr =>
    have hrd : c.wbMode = .literal → rdField w' = rdField w := fun hm =>
      field_of_masked h 11 5 (by simp only [usedBits, hm, if_true]; decide)
    exact .inr (workAlike_of_result ⟨rfl, rfl⟩ ⟨rfl, rfl⟩ (fun _ _ _ => rfl) (noDest_congr hrd) rfl)
  | mthi | mtlo =>
    have hrs : rsField w' = rsField w := field_of_masked h 21 5 (by simp only [usedBits]; split <;> decide)
    have hrd : c.wbMode = .literal → rdField w' = rdField w := fun hm =>
      field_of_masked h 11 5 (by simp only [usedBits, hm, if_true]; decide)
    exact .inr {
      noAccess := ⟨rfl, rfl⟩
      result := fun _ _ _ => rfl
      hiLo := fun m hi lo => by simp [refit, fitRegister, hiLoAfter, hrs]
      divides := fun m => by simp [refit, fitRegister, isDivide]
      destination := noDest_congr hrd
      retires := rfl }
  | mult | multu | div | divu =>
    have hrs : rsField w' = rsField w := field_of_masked h 21 5 (by simp only [usedBits]; split <;> decide)
    have hrt : rtField w' = rtField w := field_of_masked h 16 5 (by simp only [usedBits]; split <;> decide)
    have hrd : c.wbMode = .literal → rdField w' = rdField w := fun hm =>
      field_of_masked h 11 5 (by simp only [usedBits, hm, if_true]; decide)
    exact .inr {
      noAccess := ⟨rfl, rfl⟩
      result := fun s pc m => by simp [refit, fitRegister, aluOf]
      hiLo := fun m hi lo => by simp [refit, fitRegister, hiLoAfter, hrs, hrt]
      divides := fun m => by simp [refit, fitRegister, isDivide, hrt]
      destination := noDest_congr hrd
      retires := rfl }
  | bltz | bgez | regimmOther =>
    have hrt : c.wbMode = .literal → rtField w' = rtField w := fun hm =>
      field_of_masked h 16 5 (by simp only [usedBits, hm, if_true]; decide)
    obtain ⟨hacc, hw, hret, hdest⟩ := decodeRegimm_kind w
    obtain ⟨hacc', hw', hret', hdest'⟩ := decodeRegimm_kind w'
    refine .inr (workAlike_of_result ⟨hacc, hacc'⟩ ⟨hw, hw'⟩ (fun s pc m => ?_) ?_ (hret'.trans hret.symm))
    · simp [refit, aluOf, exec_decodeRegimm]
    · exact (hdest' _).trans ((noDest_congr hrt).trans (hdest _).symm)
  | j | jal =>
    have hrt : c.wbMode = .literal → rtField w' = rtField w := fun hm =>
      field_of_masked h 16 5 (by simp only [usedBits, hm, if_true]; decide)
    refine .inr (workAlike_of_result ⟨rfl, rfl⟩ ⟨rfl, rfl⟩ (fun _ _ _ => rfl) ?_ rfl)
    simpa [refit, destination, extract_targetField] using noDest_congr hrt
  | beq | bne | blez | bgtz =>
    have hrt : c.wbMode = .literal → rtField w' = rtField w := fun hm =>
      field_of_masked h 16 5 (by simp only [usedBits, hm, if_true]; decide)
    exact .inr (workAlike_of_result ⟨rfl, rfl⟩ ⟨rfl, rfl⟩ (fun _ _ _ => rfl) (noDest_congr hrt) rfl)

end Sys2Proof.Machine
end

section
/-! Two runs that differ in one word of the pipeline (30_encoding.md R64). While the word passes, the states differ in the latch it stands
in and in the words the log names; what differs is carried along by every stage, and leaves the pipeline with the word. -/

namespace Sys2Proof.Machine

open Sys2Proof.Claims

/-! ## The second state of a pair -/

/-- What may differ between two states: the latches and the log. -/
structure Variant where
  ifid  : Latch
  idex  : Latch
  exmem : Latch
  memwb : Latch
  diag  : List DiagEvent

/-- The state with these latches and this log. -/
def State.vary (s : State) (v : Variant) : State :=
  { s with ifid := v.ifid, idex := v.idex, exmem := v.exmem, memwb := v.memwb, diag := v.diag }

/-- The events of a log without the words they name. -/
def eventsOf (d : List DiagEvent) : List (Nat × DiagKind) := d.map fun e => (e.cycle, e.kind)

theorem eventsOf_append (d e : List DiagEvent) : eventsOf (d ++ e) = eventsOf d ++ eventsOf e := List.map_append

/-! ## How the latches differ -/

section
variable (w w' : Word)

/-- IF/ID with the one word or the other. -/
def Fetched (l l' : Latch) : Prop := l.ir = w ∧ l' = { l with ir := w' }

/-- ID/EX as Decode forms it for the one word or the other. -/
def Decoded (l l' : Latch) : Prop := ∃ (s : State) (pc : Word), l = s.decodedLatch w pc ∧ l' = s.decodedLatch w' pc

/-- EX/MEM or MEM/WB after the one word or the other, with the same result. -/
def Carried (l l' : Latch) : Prop := l.ir = w ∧ l'.ir = w' ∧ SameWork l l'

/-- Latch `j` in cycle `k`: the two differ as `R` says where the word has reached it, and are equal elsewhere. -/
def DiffersAt (k j : Nat) (R : Latch → Latch → Prop) (l l' : Latch) : Prop := if k = j then R l l' else l' = l

/-- The variant `v` of the state `s`, where the four latches are those of the cycles `k0` to `k3`, counted from the one in which the words
`w` and `w'` are in IF/ID. -/
structure Varies (c : Config) (k0 k1 k2 k3 : Nat) (s : State) (v : Variant) : Prop where
  cfg   : s.cfg = c
  ifid  : DiffersAt k0 0 (Fetched w w') s.ifid v.ifid
  idex  : DiffersAt k1 1 (Decoded w w') s.idex v.idex
  exmem : DiffersAt k2 2 (Carried w w') s.exmem v.exmem
  memwb : DiffersAt k3 3 (Carried w w') s.memwb v.memwb
  diag  : eventsOf v.diag = eventsOf s.diag

end

variable {w w' : Word} {c : Config} {k : Nat} {s : State} {v : Variant}

/-- A latch that the stage before it fills from equal latches alike, and from differing ones with the difference `R'`. -/
theorem DiffersAt.move {j : Nat} {R R' : Latch → Latch → Prop} {l l' m m' : Latch} (h : DiffersAt k j R l l')
    (hsame : l' = l → m' = m) (hdiffers : R l l' → R' m m') : DiffersAt (k + 1) (j + 1) R' m m' := by
  by_cases hk : k = j
  · rw [DiffersAt, if_pos hk] at h
    rw [DiffersAt, if_pos (congrArg (· + 1) hk)]
    exact hdiffers h
  · rw [DiffersAt, if_neg hk] at h
    rw [DiffersAt, if_neg fun e => hk (Nat.succ.inj e)]
    exact hsame h

theorem DiffersAt.sameWork {j : Nat} {R : Latch → Latch → Prop} {l l' : Latch} (h : DiffersAt k j R l l')
    (hR : R l l' → SameWork l l') : SameWork l l' := by
  by_cases hk : k = j
  · rw [DiffersAt, if_pos hk] at h; exact hR h
  · rw [DiffersAt, if_neg hk] at h; rw [h]; exact ⟨rfl, rfl, rfl⟩

theorem DiffersAt.eq {j : Nat} {R : Latch → Latch → Prop} {l l' : Latch} (h : DiffersAt k j R l l') (hk : j < k) : l' = l := by
  rwa [DiffersAt, if_neg hk.ne'] at h

/-- A property of two latches that holds of equal ones and of differing ones. -/
theorem DiffersAt.elim {j : Nat} {R : Latch → Latch → Prop} {l l' : Latch} {P : Prop} (h : DiffersAt k j R l l')
    (hsame : l' = l → P) (hdiffers : R l l' → P) : P := by
  by_cases hk : k = j
  · rw [DiffersAt, if_pos hk] at h; exact hdiffers h
  · rw [DiffersAt, if_neg hk] at h; exact hsame h

/-! ## The words work alike, stage by stage -/

/-- Two words whose instructions work alike. -/
def WordsAlike (c : Config) (w w' : Word) : Prop :=
  ∃ i i', decodeWord w = .ok i ∧ decodeWord w' = .ok i' ∧ WorkAlike c w w' i i'

theorem eventsOf_divideEvent (i : Instr) (n : Nat) (l : Latch) :
    eventsOf (divideEvent i n l) = if isDivide i = true ∧ l.b = 0 then [(n, .divideByZero)] else [] := by
  rw [divideEvent]; split <;> rfl

theorem isLoad_of_accessOf_none {i : Instr} (h : accessOf i = .none) : isLoad i = false := ((accessOf_none_iff i).mp h).1

namespace WordsAlike
variable (a : WordsAlike c w w') {l l' : Latch}
include a

/-- Writeback of the two words. -/
theorem writeback (h : Carried w w' l l') :
    wordDestination c.wbMode l'.ir = wordDestination c.wbMode l.ir ∧ wordWritten l' = wordWritten l ∧
      retires l'.ir = retires l.ir := by
  obtain ⟨i, i', hi, hi', work⟩ := a
  obtain ⟨rfl, rfl, -, halu, -⟩ := h
  refine ⟨?_, ?_, ?_⟩
  · rw [wordDestination_ok hi, wordDestination_ok hi', work.destination]
  · rw [wordWritten_ok hi, wordWritten_ok hi', writtenValue_of_not_load (isLoad_of_accessOf_none work.noAccess.1),
      writtenValue_of_not_load (isLoad_of_accessOf_none work.noAccess.2), halu]
  · rw [retires_ok hi, retires_ok hi', work.retires]

/-- MemoryAccess of the two words. -/
theorem access (h : Carried w w' l l') : wordAccess l.ir = .none ∧ wordAccess l'.ir = .none := by
  obtain ⟨i, i', hi, hi', work⟩ := a
  obtain ⟨rfl, rfl, -⟩ := h
  exact ⟨(wordAccess_ok hi).trans work.noAccess.1, (wordAccess_ok hi').trans work.noAccess.2⟩

/-- Execute of the two words. -/
theorem execute (h : Decoded w w' l l') (m : Arch) (hi lo : Word) (n : Nat) :
    wordAlu c l' m = wordAlu c l m ∧ wordHiLo c l' hi lo = wordHiLo c l hi lo ∧
      eventsOf (diagnosticOf n l') = eventsOf (diagnosticOf n l) := by
  obtain ⟨i, i', hi, hi', work⟩ := a
  obtain ⟨s, pc, rfl, rfl⟩ := h
  have hw : decodeWord (s.decodedLatch w pc).ir = .ok i := hi
  have hw' : decodeWord (s.decodedLatch w' pc).ir = .ok i' := hi'
  refine ⟨?_, ?_, ?_⟩
  · rw [wordAlu_ok hw, wordAlu_ok hw', work.result]
  · rw [wordHiLo_ok hw, wordHiLo_ok hw']; exact work.hiLo s.cur _ _
  · rw [diagnosticOf_ok hw, diagnosticOf_ok hw', eventsOf_divideEvent, eventsOf_divideEvent]
    exact if_congr (work.divides s.cur) rfl rfl

end WordsAlike

/-! ## A stage of the one state and of the other -/

/-- What the first answers, the second answers with a variant of it. -/
def Follows (R : State → Variant → Prop) (r r' : Result) : Prop := ∀ t, r = .next t → ∃ v, r' = .next (t.vary v) ∧ R t v

/-- Where the first part of a cycle follows, so does the cycle: it stops at the same fault, or goes on. -/
theorem follows_andThen {R Q : State → Variant → Prop} {r r' : Result} {rest : State → Result} (h : Follows R r r')
    (hstop : ∀ s v, R s v → s.faulted ≠ none → Q (s.atStage .writeback) v)
    (hgo : ∀ s v, R s v → s.faulted = none → Follows Q (rest s) (rest (s.vary v))) : Follows Q (andThen r rest) (andThen r' rest) := by
  intro t ht
  cases r with
  | fault f => cases ht
  | refused x => cases ht
  | next s =>
    obtain ⟨v, rfl, hR⟩ := h s rfl
    cases hs : s.faulted with
    | none =>
      have hsv : (s.vary v).faulted = none := hs
      simp only [andThen, hs] at ht
      simp only [andThen, hsv]
      exact hgo s v hR hs t ht
    | some f =>
      have hsv : (s.vary v).faulted = some f := hs
      simp only [andThen, hs] at ht
      cases ht
      simp only [andThen, hsv]
      exact ⟨v, rfl, hstop s v hR (by rw [hs]; nofun)⟩

theorem writeback_follows (a : WordsAlike c w w') (h : Varies w w' c k k k k s v) :
    Follows (fun t v => Varies w w' c k k k k t v ∧ t.faulted = s.faulted) (runStage .writeback s.memwb.ir s)
      (runStage .writeback (s.vary v).memwb.ir (s.vary v)) := by
  intro t ht
  obtain ⟨hdest, hvalue, hret⟩ : wordDestination s.cfg.wbMode v.memwb.ir = wordDestination s.cfg.wbMode s.memwb.ir ∧
      wordWritten v.memwb = wordWritten s.memwb ∧ retires v.memwb.ir = retires s.memwb.ir := by
    rw [h.cfg]
    exact h.memwb.elim (fun e => by rw [e]; exact ⟨rfl, rfl, rfl⟩) a.writeback
  obtain rfl := writeback_share ht
  refine ⟨v, ?_, ⟨h.cfg, h.ifid, h.idex, h.exmem, h.memwb, h.diag⟩, rfl⟩
  rw [runStage_writeback_eq]
  show Host.Outcome.next (((s.vary v).atStage .writeback).writebackAs (wordDestination s.cfg.wbMode v.memwb.ir) (wordWritten v.memwb)
    (retires v.memwb.ir)) = _
  rw [hdest, hvalue, hret]
  rfl

/-- An access from equal EX/MEM latches is the same access, and fills MEM/WB alike. -/
theorem accessAs_vary (s : State) (v : Variant) (b : Access) (h : v.exmem = s.exmem) :
    (s.vary v).accessAs b = (s.accessAs b).vary { v with memwb := (s.accessAs b).memwb } := by
  have hx : (s.vary v).exmem = s.exmem := h
  cases b with
  | none => simp only [State.accessAs, State.memoryPass, hx]; rfl
  | load mask =>
    cases hr : memRead s.cfg.regions s.mem s.exmem.aluOutput with
    | ok x => rw [accessAs_load_ok hr, accessAs_load_ok (s := s.vary v) (hx ▸ hr), hx]; rfl
    | error f => rw [accessAs_load_error hr, accessAs_load_error (s := s.vary v) (hx ▸ hr), State.memoryPass, hx]; rfl
  | store =>
    cases hw : memWrite s.cfg.regions s.mem s.exmem.aluOutput s.exmem.b with
    | ok m => rw [accessAs_store_ok hw, accessAs_store_ok (s := s.vary v) (hx ▸ hw), State.memoryPass, hx]; rfl
    | error f => rw [accessAs_store_error hw, accessAs_store_error (s := s.vary v) (hx ▸ hw), State.memoryPass, hx]; rfl

/-- MEM/WB after the access of the second state. -/
def Variant.accessed (v : Variant) (s : State) : Variant :=
  { v with memwb := ((s.vary v).accessAs (wordAccess v.exmem.ir)).memwb }

theorem accessAs_accessed (a : WordsAlike c w w') (h : DiffersAt k 2 (Carried w w') s.exmem v.exmem) :
    (s.vary v).accessAs (wordAccess v.exmem.ir) = (s.accessAs (wordAccess s.exmem.ir)).vary (v.accessed s) := by
  refine h.elim (fun e => ?_) fun hx => ?_
  · have hrun := accessAs_vary s v (wordAccess v.exmem.ir) e
    rw [Variant.accessed, hrun, e]; rfl
  · obtain ⟨ha, ha'⟩ := a.access hx
    rw [Variant.accessed, ha, ha']; rfl

theorem accessed_memwb (a : WordsAlike c w w') (h : DiffersAt k 2 (Carried w w') s.exmem v.exmem) :
    DiffersAt (k + 1) 3 (Carried w w') (s.accessAs (wordAccess s.exmem.ir)).memwb (v.accessed s).memwb := by
  refine h.move (fun e => ?_) fun hx => ?_
  · rw [Variant.accessed, e, accessAs_vary s v _ e]; rfl
  · obtain ⟨ha, ha'⟩ := a.access hx
    obtain ⟨hir, hir', hpc, halu, -⟩ := hx
    rw [Variant.accessed, ha, ha']
    exact ⟨hir, hir', hpc, halu, rfl⟩

theorem memoryAccess_follows (a : WordsAlike c w w') (h : Varies w w' c k k k k s v) :
    Follows (Varies w w' c k k k (k + 1)) (runStage .memoryAccess s.exmem.ir s)
      (runStage .memoryAccess (s.vary v).exmem.ir (s.vary v)) := by
  intro t ht
  obtain ⟨u, hu, hdoes⟩ := runStage_memoryAccess s.exmem.ir s
  rw [ht] at hu; cases hu
  have hframe := hdoes.frame
  obtain rfl : (s.atStage .memoryAccess).accessAs (wordAccess s.exmem.ir) = t := by
    rw [runStage_memoryAccess_eq] at ht; exact Host.Outcome.next.inj ht
  refine ⟨v.accessed (s.atStage .memoryAccess), ?_, ?_, ?_, ?_, ?_, accessed_memwb (s := s.atStage .memoryAccess) a h.exmem, ?_⟩
  · rw [runStage_memoryAccess_eq]
    exact congrArg _ (accessAs_accessed (s := s.atStage .memoryAccess) a h.exmem)
  · rw [hframe]; exact h.cfg
  · rw [hframe]; exact h.ifid
  · rw [hframe]; exact h.idex
  · rw [hframe]; exact h.exmem
  · rw [hframe]; exact h.diag

theorem execute_follows (a : WordsAlike c w w') (h : Varies w w' c k k k (k + 1) s v) :
    Follows (Varies w w' c k k (k + 1) (k + 1)) (runStage .execute s.idex.ir s)
      (runStage .execute (s.vary v).idex.ir (s.vary v)) := by
  intro t ht
  have hcfg := h.cfg
  obtain ⟨halu, hhiLo, hevents⟩ : wordAlu s.cfg v.idex s.cur = wordAlu s.cfg s.idex s.cur ∧
      wordHiLo s.cfg v.idex s.nxt.hi s.nxt.lo = wordHiLo s.cfg s.idex s.nxt.hi s.nxt.lo ∧
      eventsOf (diagnosticOf s.cycles v.idex) = eventsOf (diagnosticOf s.cycles s.idex) := by
    rw [h.cfg]
    exact h.idex.elim (fun e => by rw [e]; exact ⟨rfl, rfl, rfl⟩) fun hd => a.execute hd _ _ _ _
  rw [runStage_execute_eq] at ht; cases ht
  refine ⟨{ v with
      exmem := { v.idex with aluOutput := wordAlu s.cfg s.idex s.cur, lmd := 0 }
      diag := v.diag ++ diagnosticOf s.cycles v.idex }, ?_, h.cfg, h.ifid, h.idex, h.idex.move (fun e => ?_) (fun hd => ?_), h.memwb, ?_⟩
  · rw [runStage_execute_eq, ← halu]
    show Host.Outcome.next (((s.vary v).atStage .execute).executeAs (wordAlu s.cfg v.idex s.cur)
      (wordHiLo s.cfg v.idex s.nxt.hi s.nxt.lo) (diagnosticOf s.cycles v.idex)) = _
    rw [hhiLo]; simp only [halu]; rfl
  · dsimp only; rw [e]; rfl
  · obtain ⟨s0, pc, hl, hl'⟩ := hd
    show Carried w w' { s.idex with aluOutput := _, lmd := 0 } { v.idex with aluOutput := _, lmd := 0 }
    rw [hl, hl']
    exact ⟨rfl, rfl, rfl, rfl, rfl⟩
  · show eventsOf (v.diag ++ diagnosticOf s.cycles v.idex) = eventsOf (s.diag ++ diagnosticOf s.cycles s.idex)
    rw [eventsOf_append, eventsOf_append, h.diag, hevents]

/-- Decode forms ID/EX of the second state from the word in its IF/ID. -/
theorem decodeStage_varies (h : Varies w w' c k k (k + 1) (k + 1) s v) :
    ∃ v', (s.vary v).decodeStage = s.decodeStage.vary v' ∧ Varies w w' c k (k + 1) (k + 1) (k + 1) s.decodeStage v' := by
  refine ⟨{ v with idex := s.decodedLatch v.ifid.ir v.ifid.pc }, rfl, h.cfg, h.ifid, h.ifid.move (fun e => ?_) fun hf => ?_, h.exmem,
    h.memwb, h.diag⟩
  · dsimp only; rw [e]; rfl
  · obtain ⟨hir, hv⟩ := hf
    refine ⟨s, s.ifid.pc, by rw [← hir]; rfl, ?_⟩
    dsimp only; rw [hv]

/-- Fetch fills IF/ID of both states with the same word, or faults in both. -/
theorem fetchStage_varies (h : Varies w w' c k (k + 1) (k + 1) (k + 1) s v) :
    ∃ k0 v', (s.vary v).fetchStage = s.fetchStage.vary v' ∧ Varies w w' c k0 (k + 1) (k + 1) (k + 1) s.fetchStage v' ∧ k ≤ k0 ∧
      (s.fetchStage.faulted = none → k0 = k + 1) := by
  have hread : memRead (s.vary v).cfg.regions (s.vary v).mem (s.vary v).cur.pc = memRead s.cfg.regions s.mem s.cur.pc := rfl
  cases hr : memRead s.cfg.regions s.mem s.cur.pc with
  | ok x =>
    simp only [State.fetchStage, hread, hr]
    exact ⟨k + 1, { v with ifid := s.fetchedLatch x }, rfl,
      ⟨h.cfg, by rw [DiffersAt, if_neg (Nat.succ_ne_zero k)]; rfl, h.idex, h.exmem, h.memwb, h.diag⟩, Nat.le_succ k, fun _ => rfl⟩
  | error f =>
    simp only [State.fetchStage, hread, hr]
    exact ⟨k, v, rfl, ⟨h.cfg, h.ifid, h.idex, h.exmem, h.memwb, h.diag⟩, le_rfl, nofun⟩

/-! ## A cycle, a step and a run -/

/-- After `n` cycles: every latch has been filled `n` times, but where a fault stopped the last of them the three that MemoryAccess does not
fill may have been filled once less. -/
def VariesAfter (w w' : Word) (c : Config) (n : Nat) (t : State) (v : Variant) : Prop :=
  ∃ k0 k1 k2 k3, Varies w w' c k0 k1 k2 k3 t v ∧ n ≤ k0 + 1 ∧ n ≤ k1 + 1 ∧ n ≤ k2 + 1 ∧ n ≤ k3 ∧
    (t.faulted = none → k0 = n ∧ k1 = n ∧ k2 = n ∧ k3 = n)

theorem Varies.after (h : Varies w w' c k k k k s v) : VariesAfter w w' c k s v :=
  ⟨k, k, k, k, h, by omega, by omega, by omega, le_rfl, fun _ => ⟨rfl, rfl, rfl, rfl⟩⟩

theorem VariesAfter.safe (h : VariesAfter w w' c k s v) (hs : s.faulted = none) : Varies w w' c k k k k s v := by
  obtain ⟨k0, k1, k2, k3, hv, -, -, -, -, hsafe⟩ := h
  obtain ⟨rfl, rfl, rfl, rfl⟩ := hsafe hs
  exact hv

/-- A cycle that a fault stops after MemoryAccess has filled MEM/WB. -/
theorem Varies.stopped {k0 k1 k2 : Nat} (h : Varies w w' c k0 k1 k2 (k + 1) s v) (h0 : k ≤ k0) (h1 : k ≤ k1) (h2 : k ≤ k2)
    (hs : s.faulted ≠ none) : VariesAfter w w' c (k + 1) (s.atStage .writeback) v :=
  ⟨k0, k1, k2, k + 1, ⟨h.cfg, h.ifid, h.idex, h.exmem, h.memwb, h.diag⟩, by omega, by omega, by omega, le_rfl, fun hn => absurd hn hs⟩

theorem step_follows (a : WordsAlike c w w') (h : Varies w w' c k k k k s v) (hs : s.faulted = none) :
    Follows (VariesAfter w w' c (k + 1)) (step s) (step (s.vary v)) := by
  have hsv : (s.vary v).faulted = none := hs
  simp only [step, cycleIfEnabled, hs, hsv, cycle]
  refine follows_andThen (writeback_follows a h) (fun s1 v1 h1 hf => absurd (h1.2.trans hs) hf) fun s1 v1 h1 _ => ?_
  refine follows_andThen (memoryAccess_follows a h1.1) (fun s2 v2 h2 hf => h2.stopped le_rfl le_rfl le_rfl hf) fun s2 v2 h2 _ => ?_
  refine follows_andThen (execute_follows a h2) (fun s3 v3 h3 hf => h3.stopped le_rfl le_rfl (Nat.le_succ k) hf) fun s3 v3 h3 _ => ?_
  obtain ⟨v4, hd, h4⟩ := decodeStage_varies h3
  obtain ⟨k0, v5, hf, h5, hk0, hsafe⟩ := fetchStage_varies h4
  rw [hd, hf]
  intro t ht
  cases hfault : s3.decodeStage.fetchStage.faulted with
  | none =>
    have hfault' : (s3.decodeStage.fetchStage.vary v5).faulted = none := hfault
    simp only [andThen, hfault] at ht
    simp only [andThen, hfault']
    cases ht
    obtain rfl := hsafe hfault
    exact ⟨v5, rfl, Varies.after ⟨h5.cfg, h5.ifid, h5.idex, h5.exmem, h5.memwb, h5.diag⟩⟩
  | some f =>
    have hfault' : (s3.decodeStage.fetchStage.vary v5).faulted = some f := hfault
    simp only [andThen, hfault] at ht
    simp only [andThen, hfault']
    cases ht
    exact ⟨v5, rfl, h5.stopped hk0 (Nat.le_succ k) (Nat.le_succ k) (by rw [hfault]; nofun)⟩

theorem run_follows (a : WordsAlike c w w') (n : Nat) (h : VariesAfter w w' c k s v) :
    Follows (VariesAfter w w' c (k + n)) (Host.Core.run core n s) (Host.Core.run core n (s.vary v)) := by
  induction n generalizing k s v with
  | zero =>
    intro t ht
    cases ht
    exact ⟨v, rfl, h⟩
  | succ n ih =>
    cases hs : s.faulted with
    | some f =>
      intro t ht
      rw [(faultedStateIsFinal s f hs).2.2 n] at ht
      cases ht
    | none =>
      obtain ⟨u, hu⟩ := nothingStopsButAFault.2 s hs
      obtain ⟨v', hu', hafter⟩ := step_follows a (h.safe hs) hs u hu
      rw [run_succ_next hu, run_succ_next hu', show k + (n + 1) = k + 1 + n by omega]
      exact ih hafter

/-! ## What the two states share in the end -/

/-- Two states that differ as far as the one word does. -/
theorem Varies.sameEffects {k0 k1 k2 k3 : Nat} (h : Varies w w' c k0 k1 k2 k3 s v) : SameEffects s (s.vary v) := by
  refine ⟨rfl, rfl, rfl, rfl, rfl, rfl, rfl, rfl, rfl, h.diag, h.ifid.sameWork fun hf => ?_, h.idex.sameWork fun hd => ?_,
    h.exmem.sameWork fun hc => hc.2.2, h.memwb.sameWork fun hc => hc.2.2⟩
  · rw [hf.2]; exact ⟨rfl, rfl, rfl⟩
  · obtain ⟨s0, pc, hl, hl'⟩ := hd
    rw [hl, hl']; exact ⟨rfl, rfl, rfl⟩

theorem VariesAfter.sameEffects {n : Nat} (h : VariesAfter w w' c n s v) : SameEffects s (s.vary v) := by
  obtain ⟨_, _, _, _, hv, -⟩ := h
  exact hv.sameEffects

/-- From the fourth cycle on the word has left the pipeline. -/
theorem VariesAfter.latches_eq {n : Nat} (h : VariesAfter w w' c n s v) (hn : 4 ≤ n) :
    v.ifid = s.ifid ∧ v.idex = s.idex ∧ v.exmem = s.exmem ∧ v.memwb = s.memwb := by
  obtain ⟨k0, k1, k2, k3, hv, h0, h1, h2, h3, -⟩ := h
  exact ⟨hv.ifid.eq (by omega), hv.idex.eq (by omega), hv.exmem.eq (by omega), hv.memwb.eq (by omega)⟩

/-- Settles O7: a word that agrees in the used bits decodes to an instruction that works alike (`refit_workAlike`), and what differs is
carried through the pipeline with the word (`run_follows`). -/
theorem unusedFieldsChangeNothing : Obligations.UnusedFieldsChangeNothing := by
  refine ⟨fun w w' i hi hop hfunct => ⟨refit w' i, decodeWord_refit hi hop hfunct, tableRow_refit hi⟩, ?_⟩
  intro n s t w w' i hi hused hrun
  have hi' := decodeWord_refit hi (opField_of_used hused) (functField_of_used hi hused)
  rcases refit_workAlike (c := s.cfg) i hused with rfl | work
  · exact ⟨t, hrun, ⟨rfl, rfl, rfl, rfl, rfl, rfl, rfl, rfl, rfl, rfl, ⟨rfl, rfl, rfl⟩, ⟨rfl, rfl, rfl⟩, ⟨rfl, rfl, rfl⟩, ⟨rfl, rfl, rfl⟩⟩,
      fun _ => ⟨rfl, rfl, rfl, rfl⟩⟩
  · rw [refit_self hi] at work
    have start : Varies w w' s.cfg 0 0 0 0 { s with ifid := { s.ifid with ir := w } }
        ⟨{ s.ifid with ir := w' }, s.idex, s.exmem, s.memwb, s.diag⟩ := ⟨rfl, ⟨rfl, rfl⟩, rfl, rfl, rfl, rfl⟩
    obtain ⟨v, ht', hafter⟩ := run_follows ⟨i, _, hi, hi', work⟩ n start.after t hrun
    rw [Nat.zero_add] at hafter
    exact ⟨t.vary v, ht', hafter.sameEffects, hafter.latches_eq⟩

end Sys2Proof.Machine
end
